-- ==== Sys2Proof/Word.lean ====
section
/-! DEFINITION. Word.lean: the word types of the block and their readings as integers (00_scope.md R5, R7, R8). -/

namespace Sys2Proof

/-- One byte of the byte source, of the byte sink or of a START tuple (R50, R70). -/
abbrev Byte := BitVec 8

/-- The seven payload bits of an encoded byte: one group of the value (R70). -/
abbrev Payload := BitVec 7

/-- A 128-bit value; N = 128 is fixed (R5, R8). -/
abbrev Bits128 := BitVec 128

/-- `uint(v)` of R8. -/
abbrev uint (v : Bits128) : Nat := v.toNat

/-- `sint(v)` of R8: the two's-complement reading. -/
abbrev sint (v : Bits128) : Int := v.toInt

/-- `bv(x)` of R8: an integer stored as a 128-bit value, `x mod 2^128`. -/
abbrev bv (x : Int) : Bits128 := BitVec.ofInt 128 x

/-- `ones_128` of R8. -/
abbrev ones128 : Bits128 := BitVec.allOnes 128

end Sys2Proof
end

