-- ==== Sys2Proof/Config.lean ====
section
/-! DEFINITION. Config.lean: what an implementation fixes and the values the spec leaves free. -/

namespace Sys2Proof

/-- FREE VALUE (R166, 93_implementation_defined.md section 2 "any value"): the byte of draw number `n`. A host read
of a sink position of a running encode, and a sink position the host wrote during one, hold such a byte. It has no
body, so no proof can know it. DESIGN CHOICE (form of the draw), log entry 13. -/
opaque Config.freeByte : Nat → Byte

/-- R6, D4: USIZE_BITS = W is open with `W ≥ 5`. -/
def Config.minUsizeBits : Nat := 5

/-- The W that `State.reset` and `decodeTableWord` use. W itself is the field `usizeBits` of State, so statements
about states hold for every W. DESIGN CHOICE (the source gives no width), log entry 2. -/
def Config.resetUsizeBits : Nat := 64

end Sys2Proof
end

