-- ==== Sys2Proof/Syntax.lean ====
section
/-! DEFINITION. Syntax.lean: the four commands of the block, one constructor per row of opcode_table.json. -/

namespace Sys2Proof

/-- A command with the operands START takes (R34, R78, R80). Every command carries all three operands, because
START latches OFFSET and SRC_LEN whatever the operation is; the ones an operation does not use are never read
(R80, D13). Offsets and lengths are W-bit unsigned numbers (R6); `Instr.wellFormed` bounds them. -/
inductive Instr where
  /-- `OP = 0b00`, R100: encode `uint(vin)`; `offset` and `srcLen` are ignored. -/
  | encu (vin : Bits128) (offset srcLen : Nat)
  /-- `OP = 0b01`, R103: decode an unsigned sequence from `offset`; `vin` is ignored. -/
  | decu (vin : Bits128) (offset srcLen : Nat)
  /-- `OP = 0b10`, R120: encode `sint(vin)`; `offset` and `srcLen` are ignored. -/
  | encs (vin : Bits128) (offset srcLen : Nat)
  /-- `OP = 0b11`, R123: decode a signed sequence from `offset`; `vin` is ignored. -/
  | decs (vin : Bits128) (offset srcLen : Nat)
deriving DecidableEq, Repr

/-- The START operand `vin`. -/
def Instr.vin : Instr → Bits128
  | .encu v _ _ => v
  | .decu v _ _ => v
  | .encs v _ _ => v
  | .decs v _ _ => v

/-- The START operand `offset`. -/
def Instr.offset : Instr → Nat
  | .encu _ o _ => o
  | .decu _ o _ => o
  | .encs _ o _ => o
  | .decs _ o _ => o

/-- The START operand `src_len`. -/
def Instr.srcLen : Instr → Nat
  | .encu _ _ l => l
  | .decu _ _ l => l
  | .encs _ _ l => l
  | .decs _ _ l => l

end Sys2Proof
end

