-- ==== Sys2Proof/WellFormed.lean ====
section
/-! DEFINITION. WellFormed.lean: which commands the host can express when offsets and lengths have W bits. -/

namespace Sys2Proof

/-- R34, R6: `offset` and `src_len` are W-bit unsigned numbers. Every `vin` and every `OP` is legal (R79, R80). -/
abbrev Instr.wellFormed (w : Nat) (i : Instr) : Prop := i.offset < 2 ^ w ∧ i.srcLen < 2 ^ w

end Sys2Proof
end

