-- ==== Sys2Proof/Decode.lean ====
section
/-! DEFINITION. Decode.lean: the command word OP[1:0] (R78, R79), the START tuple in its binary form (R82), decoding
it and, after that, encoding it. R82 gives the tuple's fields and their order, not a packing into bytes: this model
packs them least significant bit first, OP lowest, and stores the bytes in rising order, with zero bits up to a
whole byte. DESIGN CHOICE, log entry 8. -/

namespace Sys2Proof

/-- Why bytes are not a START tuple. -/
inductive DecodeError where
  /-- The tuple of width W has another number of bytes. Raised by `decode`; safe. -/
  | wrongLength
  /-- A bit above SRC_LEN, up to the whole byte, is set. Raised by `decode`; safe. -/
  | strayPadding
deriving DecidableEq, Repr

/-- R82: OP (2 bits), vin (128 bits), offset and src_len (W bits each). -/
def tupleBits (w : Nat) : Nat := 2 + 128 + w + w

/-- The number of bytes that hold a START tuple. -/
def tupleBytes (w : Nat) : Nat := (tupleBits w + 7) / 8

/-- The `n` low bytes of a number, least significant first. -/
def bytesOfNat : Nat → Nat → List Byte
  | 0, _ => []
  | n + 1, x => BitVec.ofNat 8 x :: bytesOfNat n (x / 256)

/-- The number that bytes stand for, least significant first. -/
def natOfBytes : List Byte → Nat
  | [] => 0
  | b :: bs => b.toNat + 256 * natOfBytes bs

/-- R78: the command of each value of OP[1:0]. All four are defined (R79), so this is total. -/
def commandOf (op : BitVec 2) (vin : Bits128) (offset srcLen : Nat) : Instr :=
  match op.getLsbD 1, op.getLsbD 0 with
  | false, false => .encu vin offset srcLen
  | false, true => .decu vin offset srcLen
  | true, false => .encs vin offset srcLen
  | true, true => .decs vin offset srcLen

/-- R82: the fields of a START tuple, each at its place. -/
def decodeTuple (w n : Nat) : Except DecodeError Instr :=
  let op := BitVec.ofNat 2 n
  let vin := BitVec.ofNat 128 (n / 2 ^ 2)
  let offset := n / 2 ^ 130 % 2 ^ w
  let srcLen := n / 2 ^ (130 + w)
  if srcLen < 2 ^ w then .ok (commandOf op vin offset srcLen) else .error .strayPadding

/-- The command that the bytes of a START tuple stand for, or why they are none. -/
def decode (w : Nat) (bytes : List Byte) : Except DecodeError Instr :=
  if bytes.length = tupleBytes w then decodeTuple w (natOfBytes bytes) else .error .wrongLength

/-- The bytes of an opcode-table word of `nbits` bits: a START tuple whose bits above `nbits` are zero. -/
def tableBytes (w nbits word : Nat) : List Byte := bytesOfNat (tupleBytes w) (word % 2 ^ nbits)

/-- What the decoder reads from a table word, bit 0 being OP[0]. -/
def decodeTableWord (nbits w : Nat) : Option Instr :=
  match decode Config.resetUsizeBits (tableBytes Config.resetUsizeBits nbits w) with
  | .ok i => some i
  | .error _ => none

/-- R78: the command word of a command; OP[1] is the signedness, OP[0] the direction. -/
def Instr.op : Instr → BitVec 2
  | .encu _ _ _ => 0b00#2
  | .decu _ _ _ => 0b01#2
  | .encs _ _ _ => 0b10#2
  | .decs _ _ _ => 0b11#2

/-- R82: the START tuple as a number. -/
def encodeTuple (w : Nat) (i : Instr) : Nat :=
  i.op.toNat + 2 ^ 2 * (i.vin.toNat + 2 ^ 128 * (i.offset + 2 ^ w * i.srcLen))

/-- R82: the bytes of a command's START tuple. -/
def encode (w : Nat) (i : Instr) : List Byte := bytesOfNat (tupleBytes w) (encodeTuple w i)

end Sys2Proof
end

