-- ==== Sys2Proof/Machine/State.lean ====
section
/-! DEFINITION. Machine/State.lean: the registers of a block (10_state.md), the host's side of its byte spaces
(20_memory.md), the host's pending actions, why the machine stops, and the state after reset. -/

namespace Sys2Proof.Machine

/-- STATE (R27): one bit, IDLE (0) or BUSY (1). -/
inductive RunState where
  | idle
  | busy
deriving DecidableEq, Repr

/-- The registers of one block and nothing else (R20, R40). A register of type `Option` holds a value or holds no
value: that is the spec's own state (R26, R41), not a missing reset value (log entry 1). W-bit registers are natural
numbers, since the spec computes with them without wrap-around (R8, R31); `Block.WellFormed` bounds them. -/
structure Block where
  /-- OP[1:0], R21. -/
  op : Option (BitVec 2)
  /-- OFFSET[W−1:0], R22. -/
  offset : Option Nat
  /-- SRC_LEN[W−1:0], R23. -/
  srcLen : Option Nat
  /-- VOUT[127:0], R24. -/
  vout : Option Bits128
  /-- COUNT[W−1:0], R25. -/
  count : Option Nat
  /-- STATE, R27. -/
  state : RunState
  /-- ERR[1:0], R28. -/
  err : BitVec 2
  /-- REM[127:0], R29. -/
  rem : Option Bits128
  /-- ACC[127:0], R30. -/
  acc : Option Bits128
  /-- K[W−1:0], R31. -/
  k : Option Nat
deriving DecidableEq, Repr

/-- R41: the registers of a block after reset. -/
def Block.reset : Block :=
  { op := none, offset := none, srcLen := none, vout := none, count := none
    state := .idle, err := 0, rem := none, acc := none, k := none }

/-- One byte access of an operation (R51, R52, R53). -/
inductive Access where
  /-- `MemRead(index, 1)` returned `byte`. -/
  | read (index : Nat) (byte : Byte)
  /-- `MemWrite(position, 1, byte)`. -/
  | write (position : Nat) (byte : Byte)
deriving DecidableEq, Repr

/-- The host's side of one block's two byte spaces (R50, R52: where the host keeps the bytes is its own business).
Log entries 4, 13, 17, 28. -/
structure Port where
  /-- Host address of index 0 of the byte source. -/
  srcBase : Nat
  /-- Host address of position 0 of the byte sink. -/
  sinkBase : Nat
  /-- Host addresses of sink positions of the running encode that another agent wrote (R166). -/
  raced : List Nat
  /-- The accesses of the last operation started, in order (R53). -/
  accesses : List Access
deriving DecidableEq, Repr

/-- A port at which nothing has happened. -/
def Port.reset : Port := { srcBase := 0, sinkBase := 0, raced := [], accesses := [] }

/-- A block with its port. -/
abbrev Agent := Block × Port

/-- A statement of the host program syntax (R81). -/
inductive Statement where
  /-- `ENCU v`. -/
  | encu (v : Int)
  /-- `ENCS v`. -/
  | encs (v : Int)
  /-- `DECU o`. -/
  | decu (o : Int)
  /-- `DECS o`. -/
  | decs (o : Int)
  /-- `DECU c`. -/
  | decuCursor
  /-- `DECS c`. -/
  | decsCursor
  /-- `SETC n`. -/
  | setc (n : Int)
deriving DecidableEq, Repr

/-- What moves next: an action of the host or another agent, or the block's own step (R33, R35). -/
inductive Action where
  /-- START with the command of these tuple bytes, then every STEP of the operation (R39, R81). -/
  | command (tuple : List Byte)
  /-- One line of a host program (R81). -/
  | statement (st : Statement)
  /-- START alone (R34). -/
  | start (tuple : List Byte)
  /-- The block's STEP, when one is enabled (R35). -/
  | blockTurn
  /-- The host reads STATE (R33). -/
  | readState
  /-- The host reads ERR (R33). -/
  | readErr
  /-- The host reads VOUT (R33). -/
  | readVout
  /-- The host reads COUNT (R33). -/
  | readCount
  /-- Reset of the block (R160). -/
  | reset
  /-- The host, or any agent other than a block, writes a byte of host memory (R165, R166). -/
  | hostWrite (addr : Nat) (byte : Byte)
  /-- The host reads a byte of host memory (R166). -/
  | hostRead (addr : Nat)
  /-- The host says where the selected block's source and sink lie (R52). -/
  | place (srcBase sinkBase : Nat)
  /-- The host turns to another block (R149). -/
  | select (n : Nat)
deriving DecidableEq, Repr

/-- What a read returned to the host (R33). -/
inductive Reading where
  /-- STATE: 0 IDLE, 1 BUSY (R27). -/
  | state (bit : BitVec 1)
  /-- ERR (R28). -/
  | err (code : BitVec 2)
  /-- VOUT (R24). -/
  | vout (value : Bits128)
  /-- COUNT (R25). -/
  | count (n : Nat)
  /-- A byte of host memory. -/
  | byte (b : Byte)
deriving DecidableEq, Repr

/-- Why the machine stops. The first three are the spec's model faults (R142): the host broke the protocol. -/
inductive Fault where
  /-- HOST_BUSY: START while STATE = BUSY (R142, R163). Raised by START; safe. -/
  | hostBusy
  /-- RESULT_UNAVAILABLE: ERR read while BUSY, VOUT or COUNT read while BUSY or holding no value (R142, R164).
  Raised by the host's reads; safe. -/
  | resultUnavailable
  /-- SOURCE_RACE: a write to the source range of a running decode, or a sink that overlaps one (R142, R165, R167).
  Raised by host writes and by START; safe. -/
  | sourceRace
  /-- Two running encodes share sink positions, which R167 forbids without saying what happens. Raised by START;
  safe (log entry 12). -/
  | sinkShared
  /-- A byte of host memory that nothing has written is read; for a decode the host broke R162. Raised by MemRead and
  by host reads; safe (log entry 5). -/
  | byteAbsent
deriving DecidableEq, Repr

/-- What the machine does not take: the host expressed something that is no action of R33 or no statement of R81. -/
inductive Refusal where
  /-- An instruction whose meaning is not written yet. Raised by an arm of `exec`; safe. -/
  | notModelled (mnemonic : String)
  /-- Bytes that are no START tuple. Raised by the `command` and `start` actions; safe. -/
  | notATuple (why : DecodeError)
  /-- `offset` or `src_len` does not fit W bits (R6, R34). Raised by START; safe. -/
  | operandTooWide
  /-- The assembler refuses the statement's value or offset (R81). Raised by statements; safe. -/
  | statementOutOfRange
  /-- The encode would write outside the host's buffer (R54, R81). Raised by statements; safe. -/
  | sinkOutsideBuffer
  /-- The host moves the byte spaces of a running operation. Raised by `place`; safe (log entry 4). -/
  | placeWhileBusy
  /-- There is no such block (R149). Raised by `select`; safe. -/
  | noSuchBlock
  /-- A step needs a register that holds no value (R26); no reachable state does. Raised by the block's step; safe
  (log entry 18). -/
  | registerWithoutValue
deriving DecidableEq, Repr

/-- The machine: the selected block and its port, the other blocks (R149), the host's memory, cursor and buffer
length (R81), what the host and the other agents will do, and what the host last read. -/
structure State where
  /-- W = USIZE_BITS (R6, D4): open, never written. -/
  usizeBits : Nat
  /-- The registers of the block the host is turned to (R20). -/
  blk : Block
  /-- That block's byte spaces. -/
  port : Port
  /-- The other blocks of the platform; INSTANCES is one more than their number (R149). -/
  others : List Agent
  /-- The host's memory: addresses strictly rising (`Memory.wf`); an unlisted address holds no byte. -/
  mem : List Host.Cell
  /-- LEN, the length of the host's buffer BUF (R81). -/
  bufLen : Nat
  /-- The host's cursor c (R81). -/
  cursor : Int
  /-- Actions still to happen, first one first (log entry 6). -/
  actions : List Action
  /-- What the host's last read returned (log entry 16). -/
  lastRead : Option Reading
  /-- How many free values have been drawn (log entry 13). -/
  draws : Nat
deriving DecidableEq, Repr

/-- R41, R160, R161: the machine after reset. The registers are the spec's; W, one block, the host's bases, LEN and
the model's own fields are DESIGN CHOICES (log entries 2, 3, 13, 16, 17, 23); the cursor is R81's. -/
def State.reset : State :=
  { usizeBits := Config.resetUsizeBits
    blk := Block.reset
    port := Port.reset
    others := []
    mem := []
    bufLen := 0
    cursor := 0
    actions := []
    lastRead := none
    draws := 0 }

end Sys2Proof.Machine
end

