-- ==== Sys2Proof/Machine/Wire.lean ====
section
/-! DEFINITION. Machine/Wire.lean: the wire byte format and what a sequence denotes (30_encoding.md R70 to R76). -/

namespace Sys2Proof.Machine

/-- R70: the continuation flag C, bit 7. -/
def continues (b : Byte) : Bool := b.getLsbD 7

/-- R70: the payload P, bits 6:0. -/
def payload (b : Byte) : Payload := b.setWidth 7

/-- R9, R70: the byte `{c, p}`. -/
def wireByte (c : Bool) (p : Payload) : Byte := BitVec.ofBool c ++ p

/-- R71: the continuation flag is set on every byte but the last. -/
def isSequence : List Byte → Bool
  | [] => false
  | [b] => !continues b
  | b :: c :: bs => continues b && isSequence (c :: bs)

/-- R72: the sum over k of `uint(b_k[6:0]) * 2^(7k)`. -/
def denoteU : List Byte → Nat
  | [] => 0
  | b :: bs => (payload b).toNat + 2 ^ 7 * denoteU bs

/-- The sign bit of R73: bit 6 of the last payload. -/
def lastSign (bs : List Byte) : Bool :=
  match bs.getLast? with
  | none => false
  | some b => (payload b).getLsbD 6

/-- R73: `U − b_{n−1}[6] * 2^(7n)`. -/
def denoteS (bs : List Byte) : Int :=
  (denoteU bs : Int) - if lastSign bs then 2 ^ (7 * bs.length) else 0

/-- R75: `bitlen`. -/
def bitlen (v : Nat) : Nat := if v = 0 then 0 else Nat.log2 v + 1

/-- R75: `n_u(v) = max(1, ceil(bitlen(v) / 7))`. -/
def lengthU (v : Nat) : Nat := max 1 ((bitlen v + 6) / 7)

/-- R76: `n_s(v)`, the least `n ≥ 1` with `−2^(7n−1) ≤ v < 2^(7n−1)`. The bits of v (of −v − 1 when v is negative)
and one sign bit must fit 7n bits; that this is the least such n is a statement of its own. -/
def lengthS (v : Int) : Nat :=
  bitlen (if v < 0 then (-v - 1).toNat else v.toNat) / 7 + 1

/-- R101: byte k of the n bytes ENCU writes for `v`. -/
def wireU (v : Bits128) (n k : Nat) : Byte := wireByte (decide (k < n - 1)) ((v >>> (7 * k)).setWidth 7)

/-- R121: byte k of the n bytes ENCS writes for `v`. -/
def wireS (v : Bits128) (n k : Nat) : Byte :=
  wireByte (decide (k < n - 1)) ((v.sshiftRight (7 * k)).setWidth 7)

/-- R101: the minimal unsigned sequence of a value. -/
def encodingU (v : Bits128) : List Byte := (List.range (lengthU (uint v))).map (wireU v (lengthU (uint v)))

/-- R121: the minimal signed sequence of a value. -/
def encodingS (v : Bits128) : List Byte := (List.range (lengthS (sint v))).map (wireS v (lengthS (sint v)))

end Sys2Proof.Machine
end

