-- ==== Sys2Proof/Machine/Operands.lean ====
section
/-! DEFINITION. Machine/Operands.lean: how a step takes its operands from the working registers and puts a group back
(R9, R100, R103, R120, R123, R125). -/

namespace Sys2Proof.Machine

/-- `REM[6:0]`, the group an encoder step writes. -/
def lowGroup (rem : Bits128) : Payload := rem.setWidth 7

/-- `REM >>u 7` (R9, R100). -/
def shiftUnsigned (rem : Bits128) : Bits128 := rem >>> 7

/-- `REM >>s 7` (R9, R120). -/
def shiftSigned (rem : Bits128) : Bits128 := rem.sshiftRight 7

/-- The source index `OFFSET + K`, an integer without wrap-around (R31, R103). -/
def sourceIndex (offset k : Nat) : Nat := offset + k

/-- `if 7*K < 128 then ACC | (zext_128(p) << (7*K))` (R103, R123). -/
def accumulate (acc : Bits128) (p : Payload) (k : Nat) : Bits128 :=
  if 7 * k < 128 then acc ||| (p.setWidth 128 <<< (7 * k)) else acc

/-- R125: the sign extension at the terminating byte; `n` is the number of bytes read. -/
def completeSign (acc : Bits128) (p : Payload) (n : Nat) : Bits128 :=
  if 7 * n < 128 ∧ p.getLsbD 6 then acc ||| (ones128 <<< (7 * n)) else acc

/-- DECU completes nothing (R103). -/
def completeNothing (acc : Bits128) (_ : Payload) (_ : Nat) : Bits128 := acc

end Sys2Proof.Machine
end

