-- ==== Sys2Proof/Machine/Flags.lean ====
section
/-! DEFINITION. Machine/Flags.lean: the codes of STATE and ERR (R27, R28, R140), the encoders' continuation flag
(R100, R120) and the decoders' overflow tests (R104, R124). -/

namespace Sys2Proof.Machine

/-- R28: ERR = 0, OK. -/
def errOk : BitVec 2 := 0

/-- R28, R140: ERR = 1, TRUNCATED. -/
def errTruncated : BitVec 2 := 1

/-- R28, R140: ERR = 2, OVERFLOW. -/
def errOverflow : BitVec 2 := 2

/-- R27: the STATE bit the host reads. -/
def RunState.bit : RunState → BitVec 1
  | .idle => 0
  | .busy => 1

/-- R100: `c <- (r != 0)`; bits remain. -/
def moreUnsigned (_ : Payload) (r : Bits128) : Bool := r != 0

/-- R120: `c <- t ? 0 : 1`, where t says that the payload's bit 6 predicts all remaining bits. -/
def moreSigned (p : Payload) (r : Bits128) : Bool :=
  !((r == 0 && !p.getLsbD 6) || (r == ones128 && p.getLsbD 6))

/-- `rep7(c)` of R8. -/
def rep7 (c : Bool) : Payload := if c then BitVec.allOnes 7 else 0

/-- R104: a set payload bit would land at bit 128 or above. -/
def overflowU (p : Payload) (k : Nat) (_ : Bits128) : Bool :=
  if k ≤ 17 then false else if k = 18 then p.extractLsb 6 2 != 0 else p != 0

/-- R124: a payload bit at 127 or above differs from bit 127. -/
def overflowS (p : Payload) (k : Nat) (acc : Bits128) : Bool :=
  if k ≤ 17 then false
  else if k = 18 then !(p.extractLsb 6 1 == 0 || p.extractLsb 6 1 == BitVec.allOnes 6)
  else p != rep7 (acc.getLsbD 127)

end Sys2Proof.Machine
end

