-- ==== Sys2Proof/Machine/Ops.lean ====
section
/-! DEFINITION. Machine/Ops.lean: the operations the meanings share: host memory, MemRead and MemWrite (R51, R52),
START (R34), one encoder step and one decoder step, finishOK (R38), raise (R143), reset (R160). -/

namespace Sys2Proof.Machine

/-- The outcome type of the machine. -/
abbrev Result := Host.Outcome State Fault Refusal

/-- Go on from a next state; a fault or a refusal ends the run. -/
def andThen (r : Result) (f : State → Result) : Result :=
  match r with
  | .next s => f s
  | .fault e => .fault e
  | .refused e => .refused e

/-! ## Updates of one field -/

def State.withBlk (s : State) (b : Block) : State := { s with blk := b }
def State.withPort (s : State) (p : Port) : State := { s with port := p }
def State.withOthers (s : State) (o : List Agent) : State := { s with others := o }
def State.withMem (s : State) (m : List Host.Cell) : State := { s with mem := m }
def State.withCursor (s : State) (c : Int) : State := { s with cursor := c }
def State.withActions (s : State) (a : List Action) : State := { s with actions := a }
def State.withReading (s : State) (r : Reading) : State := { s with lastRead := some r }
def State.withDraws (s : State) (n : Nat) : State := { s with draws := n }

/-! ## Host memory -/

/-- The host's memory in its one form: addresses strictly rising. An unlisted address holds no byte. -/
abbrev Memory.wf (m : List Host.Cell) : Prop := m.Pairwise (fun a b => a.1 < b.1)

/-- The byte at an address, if any. -/
def Memory.read : List Host.Cell → Nat → Option Byte
  | [], _ => none
  | (a, b) :: m, x => if x = a then some b else Memory.read m x

/-- Store one byte. -/
def Memory.write : List Host.Cell → Nat → Byte → List Host.Cell
  | [], x, v => [(x, v)]
  | (a, b) :: m, x, v =>
    if x < a then (x, v) :: (a, b) :: m
    else if x = a then (x, v) :: m
    else (a, b) :: Memory.write m x v

/-- Store bytes at rising addresses. -/
def Memory.writeAll (m : List Host.Cell) (x : Nat) : List Byte → List Host.Cell
  | [] => m
  | v :: vs => Memory.writeAll (Memory.write m x v) (x + 1) vs

/-- MemRead (R51): the byte at index i of the selected block's source. -/
def memRead (s : State) (i : Nat) : Option Byte := Memory.read s.mem (s.port.srcBase + i)

/-- A read is done (R53). -/
def noteRead (s : State) (i : Nat) (b : Byte) : State :=
  s.withPort { s.port with accesses := s.port.accesses ++ [.read i b] }

/-- MemWrite (R52): byte b goes to position p of the selected block's sink, which accepts every byte (R54). -/
def memWrite (s : State) (p : Nat) (b : Byte) : State :=
  (s.withMem (Memory.write s.mem (s.port.sinkBase + p) b)).withPort
    { s.port with accesses := s.port.accesses ++ [.write p b] }

/-! ## The byte ranges a running operation holds (R165, R166, R167) -/

/-- An operation is an encode (R78: OP[0] = 0). -/
def isEncode (op : BitVec 2) : Bool := !op.getLsbD 0

/-- How many bytes the running encode writes in all: the K it has written and those still in REM (R101, R121). -/
def encodeTotal (op : BitVec 2) (rem : Bits128) (k : Nat) : Nat :=
  k + if op.getLsbD 1 then lengthS (sint rem) else lengthU (uint rem)

/-- The host addresses a running decode reads, `[OFFSET, SRC_LEN)` of its source, as a half-open range; empty for
a block that runs no decode (R165). -/
def sourceRange (u : Agent) : Nat × Nat :=
  match u.1.state, u.1.op, u.1.offset, u.1.srcLen with
  | .busy, some op, some o, some l => if isEncode op then (0, 0) else (u.2.srcBase + o, u.2.srcBase + l)
  | _, _, _, _ => (0, 0)

/-- The host addresses of the sink positions of a running encode; empty for a block that runs none (R166). -/
def sinkRange (u : Agent) : Nat × Nat :=
  match u.1.state, u.1.op, u.1.rem, u.1.k with
  | .busy, some op, some rem, some k =>
    if isEncode op then (u.2.sinkBase, u.2.sinkBase + encodeTotal op rem k) else (0, 0)
  | _, _, _, _ => (0, 0)

/-- An address lies in a half-open range. -/
def inRange (r : Nat × Nat) (a : Nat) : Bool := decide (r.1 ≤ a ∧ a < r.2)

/-- Two half-open ranges share an address. -/
def overlaps (r q : Nat × Nat) : Bool := decide (max r.1 q.1 < min r.2 q.2)

/-- R167: one block's sink overlaps the other's source range. -/
def raceBetween (u v : Agent) : Bool :=
  overlaps (sinkRange u) (sourceRange v) || overlaps (sourceRange u) (sinkRange v)

/-- R167: two encodes share sink positions. -/
def sharedSink (u v : Agent) : Bool := overlaps (sinkRange u) (sinkRange v)

/-- R167 at the moment an agent becomes BUSY beside the others: the fault it is, if any. -/
def aliasFault (u : Agent) (others : List Agent) : Option Fault :=
  if others.any (raceBetween u) then some .sourceRace
  else if others.any (sharedSink u) then some .sinkShared
  else none

/-! ## START, finishOK, raise, reset -/

/-- The registers START leaves (R34). -/
def Block.started (op : BitVec 2) (vin : Bits128) (offset srcLen : Nat) : Block :=
  { op := some op, offset := some offset, srcLen := some srcLen, vout := none, count := none
    state := .busy, err := errOk, rem := some vin, acc := some 0, k := some 0 }

/-- A port whose operation has just started. -/
def Port.started (p : Port) : Port := { p with raced := [], accesses := [] }

/-- START (R34), with HOST_BUSY (R163) and the aliasing faults (R167). It reads no source byte and writes no sink
byte. -/
def start (op : BitVec 2) (vin : Bits128) (offset srcLen : Nat) (s : State) : Result :=
  match s.blk.state with
  | .busy => .fault .hostBusy
  | .idle =>
    match aliasFault (Block.started op vin offset srcLen, s.port.started) s.others with
    | some f => .fault f
    | none => .next ((s.withBlk (Block.started op vin offset srcLen)).withPort s.port.started)

/-- The sink positions other agents wrote during the encode get their undetermined bytes (R166). -/
def drawRaced : List Nat → State → State
  | [], s => s
  | a :: as, s => drawRaced as ((s.withMem (Memory.write s.mem a (Config.freeByte s.draws))).withDraws (s.draws + 1))

/-- Settle the raced sink positions of the selected block's operation (R166). -/
def settleRaced (s : State) : State :=
  (drawRaced s.port.raced s).withPort { s.port with raced := [] }

/-- The registers finishOK leaves (R38). -/
def Block.finished (b : Block) (count : Nat) (value : Option Bits128) : Block :=
  { b with
    count := some count
    vout := value.or b.vout
    err := errOk
    state := .idle
    rem := none, acc := none, k := none }

/-- finishOK(count [, value]) (R38). -/
def finishOK (count : Nat) (value : Option Bits128) (s : State) : State :=
  (settleRaced s).withBlk (s.blk.finished count value)

/-- The registers `raise` leaves (R143); VOUT and COUNT keep no value. -/
def Block.raised (b : Block) (code : BitVec 2) : Block :=
  { b with err := code, state := .idle, rem := none, acc := none, k := none }

/-- `raise E` (R143): the one way an operation ends in error. There is no handler and no return from it (R146). -/
def raiseError (code : BitVec 2) (s : State) : State := s.withBlk (s.blk.raised code)

/-- Reset of the selected block (R160). Bytes it has handed to the sink stay; the ones raced are undetermined. -/
def resetBlock (s : State) : State := (settleRaced s).withBlk Block.reset

/-! ## One step of an operation -/

/-- One encoder step (R100, R120): write the low group with its continuation flag, shift, and finish when no more
follows. -/
def encoderStep (shift : Bits128 → Bits128) (more : Payload → Bits128 → Bool) (s : State) : Result :=
  match s.blk.rem, s.blk.k with
  | some rem, some k =>
    let p := lowGroup rem
    let r := shift rem
    let c := more p r
    let s₁ := memWrite s k (wireByte c p)
    let s₂ := s₁.withBlk { s₁.blk with rem := some r, k := some (k + 1) }
    .next (if c then s₂ else finishOK (k + 1) none s₂)
  | _, _ => .refused .registerWithoutValue

/-- One decoder step (R103, R123), its tests in the order of R145: end of the source, overflow, continuation. -/
def decoderStep (overflow : Payload → Nat → Bits128 → Bool) (complete : Bits128 → Payload → Nat → Bits128)
    (s : State) : Result :=
  match s.blk.offset, s.blk.srcLen, s.blk.acc, s.blk.k with
  | some offset, some srcLen, some acc, some k =>
    let i := sourceIndex offset k
    if srcLen ≤ i then .next (raiseError errTruncated s)
    else
      match memRead s i with
      | none => .fault .byteAbsent
      | some b =>
        let s₁ := noteRead s i b
        let p := payload b
        if overflow p k acc then .next (raiseError errOverflow s₁)
        else
          let acc₁ := accumulate acc p k
          if continues b then .next (s₁.withBlk { s₁.blk with acc := some acc₁, k := some (k + 1) })
          else
            let acc₂ := complete acc₁ p (k + 1)
            .next (finishOK (k + 1) (some acc₂) (s₁.withBlk { s₁.blk with acc := some acc₂, k := some (k + 1) }))
  | _, _, _, _ => .refused .registerWithoutValue

/-- Repeat a step until STATE = IDLE, at most `n` times (R39). -/
def runToIdle (f : State → Result) : Nat → State → Result
  | 0, s => .next s
  | n + 1, s => andThen (f s) fun t =>
      match t.blk.state with
      | .idle => .next t
      | .busy => runToIdle f n t

/-- START with operands the host can express (R6, R34, R81). -/
def issue (op : BitVec 2) (vin : Bits128) (offset srcLen : Nat) (s : State) : Result :=
  if offset < 2 ^ s.usizeBits ∧ srcLen < 2 ^ s.usizeBits then start op vin offset srcLen s
  else .refused .operandTooWide

end Sys2Proof.Machine
end

