-- ==== Sys2Proof/Machine/Signed.lean ====
section
/-! DEFINITION. Machine/Signed.lean: ENCS and DECS (41_signed.md). -/

namespace Sys2Proof.Machine

/-- step_ENCS (R120). -/
def stepEncs (s : State) : Result := encoderStep shiftSigned moreSigned s

/-- step_DECS (R123). -/
def stepDecs (s : State) : Result := decoderStep overflowS completeSign s

/-- ENCS: START with `OP = 0b10` and its steps, at most 19 (R39, R120, R122). -/
def execEncs (vin : Bits128) (offset srcLen : Nat) (s : State) : Result :=
  andThen (issue 0b10#2 vin offset srcLen s) (runToIdle stepEncs 19)

/-- DECS: START with `OP = 0b11` and its steps, at most one per source byte and one more (R37, R39, R123). -/
def execDecs (vin : Bits128) (offset srcLen : Nat) (s : State) : Result :=
  andThen (issue 0b11#2 vin offset srcLen s) (runToIdle stepDecs (srcLen - offset + 1))

end Sys2Proof.Machine
end

