-- ==== Sys2Proof/Machine/Unsigned.lean ====
section
/-! DEFINITION. Machine/Unsigned.lean: ENCU and DECU (40_unsigned.md). -/

namespace Sys2Proof.Machine

/-- step_ENCU (R100). -/
def stepEncu (s : State) : Result := encoderStep shiftUnsigned moreUnsigned s

/-- step_DECU (R103). -/
def stepDecu (s : State) : Result := decoderStep overflowU completeNothing s

/-- ENCU: START with `OP = 0b00` and its steps, at most 19 (R39, R100, R102). -/
def execEncu (vin : Bits128) (offset srcLen : Nat) (s : State) : Result :=
  andThen (issue 0b00#2 vin offset srcLen s) (runToIdle stepEncu 19)

/-- DECU: START with `OP = 0b01` and its steps, at most one per source byte and one more (R37, R39, R103). -/
def execDecu (vin : Bits128) (offset srcLen : Nat) (s : State) : Result :=
  andThen (issue 0b01#2 vin offset srcLen s) (runToIdle stepDecu (srcLen - offset + 1))

end Sys2Proof.Machine
end

