-- ==== Sys2Proof/Machine/Dispatch.lean ====
section
/-! DEFINITION. Machine/Dispatch.lean: the meaning of each command, in the transaction view of R39. -/

namespace Sys2Proof.Machine

def exec (i : Instr) (s : State) : Host.Outcome State Fault Refusal :=
  match i with
  | .encu vin offset srcLen => Sys2Proof.Machine.execEncu vin offset srcLen s
  | .decu vin offset srcLen => Sys2Proof.Machine.execDecu vin offset srcLen s
  | .encs vin offset srcLen => Sys2Proof.Machine.execEncs vin offset srcLen s
  | .decs vin offset srcLen => Sys2Proof.Machine.execDecs vin offset srcLen s

end Sys2Proof.Machine
end

