-- ==== Sys2Proof/Machine/HostActions.lean ====
section
/-! DEFINITION. Machine/HostActions.lean: the step of the running operation (R35), the host's actions (R33), its
accesses to its own memory (R165, R166) and its statements (R81). -/

namespace Sys2Proof.Machine

/-- STEP (R35): the step of the operation OP selects. -/
def stepOperation (s : State) : Result :=
  match s.blk.op with
  | none => .refused .registerWithoutValue
  | some op =>
    match op.getLsbD 1, op.getLsbD 0 with
    | false, false => stepEncu s
    | false, true => stepDecu s
    | true, false => stepEncs s
    | true, true => stepDecs s

/-- The block's turn: a STEP while BUSY (R37: it never waits); an IDLE block does nothing (log entry 21). -/
def blockTurn (s : State) : Result :=
  match s.blk.state with
  | .idle => .next s
  | .busy => stepOperation s

/-- Read STATE (R27, R33): always. -/
def readState (s : State) : Result := .next (s.withReading (.state s.blk.state.bit))

/-- Read ERR (R28, R33): only while IDLE. -/
def readErr (s : State) : Result :=
  match s.blk.state with
  | .idle => .next (s.withReading (.err s.blk.err))
  | .busy => .fault .resultUnavailable

/-- Read VOUT (R24, R33): only while IDLE and only a value. -/
def readVout (s : State) : Result :=
  match s.blk.state, s.blk.vout with
  | .idle, some v => .next (s.withReading (.vout v))
  | _, _ => .fault .resultUnavailable

/-- Read COUNT (R25, R33): only while IDLE and only a value. -/
def readCount (s : State) : Result :=
  match s.blk.state, s.blk.count with
  | .idle, some n => .next (s.withReading (.count n))
  | _, _ => .fault .resultUnavailable

/-- The host's decision to start a command without waiting for it (R34). -/
def startInstr (i : Instr) (s : State) : Result := issue i.op i.vin i.offset i.srcLen s

/-- A write lands at this sink position of a running encode, whose content is then undetermined (R166). -/
def noteRaced (addr : Nat) (u : Agent) : Port :=
  if inRange (sinkRange u) addr && !u.2.raced.contains addr then { u.2 with raced := addr :: u.2.raced } else u.2

/-- The host or another agent writes a byte of host memory: SOURCE_RACE inside a running decode's range (R165), a
race at a sink position of a running encode (R166). -/
def hostWrite (addr : Nat) (b : Byte) (s : State) : Result :=
  if ((s.blk, s.port) :: s.others).any (fun u => inRange (sourceRange u) addr) then .fault .sourceRace
  else
    .next (((s.withMem (Memory.write s.mem addr b)).withPort (noteRaced addr (s.blk, s.port))).withOthers
      (s.others.map fun u => (u.1, noteRaced addr u)))

/-- The host reads a byte of host memory; at a sink position of a running encode it gets a free value (R166). -/
def hostRead (addr : Nat) (s : State) : Result :=
  if ((s.blk, s.port) :: s.others).any (fun u => inRange (sinkRange u) addr) then
    .next ((s.withReading (.byte (Config.freeByte s.draws))).withDraws (s.draws + 1))
  else
    match Memory.read s.mem addr with
    | none => .fault .byteAbsent
    | some b => .next (s.withReading (.byte b))

/-- The host says where the selected block's byte spaces lie, between operations (log entry 4). -/
def place (srcBase sinkBase : Nat) (s : State) : Result :=
  match s.blk.state with
  | .busy => .refused .placeWhileBusy
  | .idle => .next (s.withPort { s.port with srcBase := srcBase, sinkBase := sinkBase })

/-- The host turns to another block: the two change places (R149: a block carries no identifier). -/
def select (n : Nat) (s : State) : Result :=
  match s.others[n]? with
  | none => .refused .noSuchBlock
  | some u => .next (((s.withBlk u.1).withPort u.2).withOthers (s.others.set n (s.blk, s.port)))

/-- What moves when the host has nothing left to do (R37: a step is taken eventually while BUSY): the selected block
while it is BUSY, then another block that is BUSY. With no block BUSY nothing moves (log entry 6). -/
def fairTurn (s : State) : Result :=
  match s.blk.state with
  | .busy => stepOperation s
  | .idle =>
    match s.others.findIdx? (fun u => u.1.state == .busy) with
    | none => .next s
    | some n => select n s

/-! ## Host statements (R81) -/

/-- The range a statement's value must lie in, and the command it is: `bv(v)` and zero operands for an encode,
`0, o, LEN` for a decode (R81, R82). -/
def assemble (s : State) : Statement → Option Instr
  | .encu v => if 0 ≤ v ∧ v ≤ 2 ^ 128 - 1 then some (.encu (bv v) 0 0) else none
  | .encs v => if -2 ^ 127 ≤ v ∧ v ≤ 2 ^ 127 - 1 then some (.encs (bv v) 0 0) else none
  | .decu o => if 0 ≤ o ∧ o ≤ 2 ^ s.usizeBits - 1 then some (.decu 0 o.toNat s.bufLen) else none
  | .decs o => if 0 ≤ o ∧ o ≤ 2 ^ s.usizeBits - 1 then some (.decs 0 o.toNat s.bufLen) else none
  | .decuCursor =>
    if 0 ≤ s.cursor ∧ s.cursor ≤ 2 ^ s.usizeBits - 1 then some (.decu 0 s.cursor.toNat s.bufLen) else none
  | .decsCursor =>
    if 0 ≤ s.cursor ∧ s.cursor ≤ 2 ^ s.usizeBits - 1 then some (.decs 0 s.cursor.toNat s.bufLen) else none
  | .setc _ => none

/-- R82: the binary form of a statement is its START tuple, with the unused operands zero. -/
def binaryForm (s : State) (st : Statement) : Option (List Byte) := (assemble s st).map (encode s.usizeBits)

/-- The bytes an encode writes; none for a decode (R75, R76). -/
def encodedLength : Instr → Nat
  | .encu v _ _ => lengthU (uint v)
  | .decu _ _ _ => 0
  | .encs v _ _ => lengthS (sint v)
  | .decs _ _ _ => 0

/-- R81: every encode satisfies `c + n ≤ LEN`, so that the sink never writes outside BUF. -/
def fitsBuffer (s : State) (i : Instr) : Bool :=
  encodedLength i == 0 || decide (0 ≤ s.cursor ∧ s.cursor + encodedLength i ≤ s.bufLen)

/-- R81: `c <- c + COUNT` after an encode, and after a cursor decode that ended OK. -/
def advanceCursor (st : Statement) (s : State) : State :=
  match st, s.blk.err == errOk, s.blk.count with
  | .encu _, true, some n => s.withCursor (s.cursor + n)
  | .encs _, true, some n => s.withCursor (s.cursor + n)
  | .decuCursor, true, some n => s.withCursor (s.cursor + n)
  | .decsCursor, true, some n => s.withCursor (s.cursor + n)
  | _, _, _ => s

/-- One line of a host program (R81): the source is BUF, the sink puts position p at BUF[c + p], and the command runs
to STATE = IDLE. DESIGN CHOICE: BUF[0] lies at host address 0, so every command statement sets the selected block's
bases to 0 and c (log entry 28); a line that the assembler refuses is refused at its own step, after the lines before it
have run (log entry 29). -/
def execStatement (st : Statement) (s : State) : Result :=
  match st with
  | .setc n => .next (s.withCursor n)
  | st =>
    match assemble s st with
    | none => .refused .statementOutOfRange
    | some i =>
      match s.blk.state, fitsBuffer s i with
      | .busy, _ => .fault .hostBusy
      | .idle, false => .refused .sinkOutsideBuffer
      | .idle, true =>
        andThen (exec i (s.withPort { s.port with srcBase := 0, sinkBase := s.cursor.toNat })) fun t =>
          .next (advanceCursor st t)

/-- Carry out an action. -/
def perform (a : Action) (s : State) : Result :=
  match a with
  | .command bytes =>
    match decode s.usizeBits bytes with
    | .ok i => exec i s
    | .error e => .refused (.notATuple e)
  | .statement st => execStatement st s
  | .start bytes =>
    match decode s.usizeBits bytes with
    | .ok i => startInstr i s
    | .error e => .refused (.notATuple e)
  | .blockTurn => blockTurn s
  | .readState => readState s
  | .readErr => readErr s
  | .readVout => readVout s
  | .readCount => readCount s
  | .reset => .next (resetBlock s)
  | .hostWrite addr b => hostWrite addr b s
  | .hostRead addr => hostRead addr s
  | .place src sink => place src sink s
  | .select n => select n s

/-- A host program and its buffer, loaded from outside the machine (R81: the cursor is 0 at first). BUF lies from host
address 0 on (log entry 28). -/
def State.withProgram (s : State) (buf : List Byte) (lines : List Statement) : State :=
  { s with
    mem := Memory.writeAll [] 0 buf
    bufLen := buf.length
    cursor := 0
    actions := lines.map .statement }

end Sys2Proof.Machine
end

