-- ==== Sys2Proof/Machine/Step.lean ====
section
/-! DEFINITION. Machine/Step.lean: one step of the machine. -/

namespace Sys2Proof.Machine

/-- The next action of the schedule is carried out; when none is left the running operations move on (R37). -/
def step (s : State) : Host.Outcome State Fault Refusal :=
  match s.actions with
  | [] => fairTurn s
  | a :: rest => perform a (s.withActions rest)

/-- The host issues the command of an opcode-table word next (log entries 6, 9). -/
def State.withFetchWord (s : State) (nbits w : Nat) : State :=
  s.withActions (.command (tableBytes s.usizeBits nbits w) :: s.actions)

end Sys2Proof.Machine
end

