-- ==== Sys2Proof/Machine/Assembler.lean ====
section
/-! DEFINITION. Machine/Assembler.lean: the text of a host program (30_encoding.md R81): lines, labels, comments,
statements and numbers. What R81 leaves open of the spelling is log entry 27. -/

namespace Sys2Proof.Machine

/-- White space within a line. -/
def isBlank (c : Char) : Bool := c == ' ' || c == '\t' || c == '\r'

/-- The value of a digit of this base, if it is one. -/
def digitValue (base : Nat) (c : Char) : Option Nat :=
  let n := c.toNat
  let v := if 48 ≤ n ∧ n ≤ 57 then n - 48
    else if 65 ≤ n ∧ n ≤ 70 then n - 55
    else if 97 ≤ n ∧ n ≤ 102 then n - 87
    else base
  if v < base then some v else none

/-- A number from its digits, most significant first, after the digits already read. -/
def digitsFrom (base : Nat) : Nat → List Char → Option Nat
  | acc, [] => some acc
  | acc, c :: cs => (digitValue base c).bind fun v => digitsFrom base (acc * base + v) cs

/-- At least one digit. -/
def natural (base : Nat) : List Char → Option Nat
  | [] => none
  | c :: cs => digitsFrom base 0 (c :: cs)

/-- One term: `0x` and hexadecimal digits, `2^k`, or decimal digits. -/
def term : List Char → Option Nat
  | '0' :: 'x' :: cs => natural 16 cs
  | '2' :: '^' :: cs => (natural 10 cs).map (2 ^ ·)
  | cs => natural 10 cs

/-- Sums and differences of terms, left to right: `total` so far, the sign and the characters (last one first) of
the term being read. -/
def sumFrom (total : Int) (negative : Bool) (read : List Char) : List Char → Option Int
  | [] => (term read.reverse).map fun n => if negative then total - n else total + n
  | c :: cs =>
    if c == '+' || c == '-' then
      (term read.reverse).bind fun n => sumFrom (if negative then total - n else total + n) (c == '-') [] cs
    else sumFrom total negative (c :: read) cs

/-- A value: a term or a sum, possibly with a minus sign before it. -/
def value : List Char → Option Int
  | '-' :: cs => sumFrom 0 true [] cs
  | cs => sumFrom 0 false [] cs

/-- A statement from its mnemonic and its operand without blanks. -/
def statementOf (mnemonic operand : List Char) : Option Statement :=
  match mnemonic, operand with
  | ['D', 'E', 'C', 'U'], ['c'] => some .decuCursor
  | ['D', 'E', 'C', 'S'], ['c'] => some .decsCursor
  | ['E', 'N', 'C', 'U'], v => (value v).map .encu
  | ['E', 'N', 'C', 'S'], v => (value v).map .encs
  | ['D', 'E', 'C', 'U'], o => (value o).map .decu
  | ['D', 'E', 'C', 'S'], o => (value o).map .decs
  | ['S', 'E', 'T', 'C'], n => (value n).map .setc
  | _, _ => none

/-- The statement of a line without label and comment. -/
def statementText (cs : List Char) : Option Statement :=
  let body := cs.dropWhile isBlank
  let mnemonic := body.takeWhile fun c => !isBlank c
  statementOf mnemonic ((body.drop mnemonic.length).filter fun c => !isBlank c)

/-- A label is one word. -/
def isLabel (cs : List Char) : Bool :=
  let body := cs.dropWhile isBlank
  let name := body.takeWhile fun c => !isBlank c
  !name.isEmpty && (body.drop name.length).all isBlank

/-- A line of a program: its comment is cut off at the first `;`, its label at the first `:`. -/
def lineText (cs : List Char) : Option Statement :=
  let code := cs.takeWhile (· != ';')
  let label := code.takeWhile (· != ':')
  match code.drop label.length with
  | [] => statementText code
  | _ :: rest => if isLabel label then statementText rest else none

/-- The lines of a text, cut at line feeds; `read` holds the characters of the present line, last one first. -/
def linesFrom (read : List Char) : List Char → List (List Char)
  | [] => [read.reverse]
  | c :: cs => if c == '\n' then read.reverse :: linesFrom [] cs else linesFrom (c :: read) cs

/-- A line that holds nothing, or a comment alone. -/
def isEmptyLine (cs : List Char) : Bool := (cs.takeWhile (· != ';')).all isBlank

/-- A program: the statements of its lines, in order; none when a line is no statement. -/
def programText (text : List Char) : Option (List Statement) :=
  ((linesFrom [] text).filter fun l => !isEmptyLine l).mapM lineText

/-- A host program loaded from its text, with its buffer. A statement out of range is loaded and refused at its own step
(log entry 29). -/
def State.withProgramText (s : State) (buf : List Byte) (text : List Char) : Option State :=
  (programText text).map (s.withProgram buf)

end Sys2Proof.Machine
end

