-- ==== Sys2Proof/Safety.lean ====
section
/-! DEFINITION. Safety.lean: what holds of every state a run meets, and the words the statements use for the results
the spec gives: the byte source of a decode, the states at the end of an operation, runs of block turns. -/

namespace Sys2Proof.Machine

/-! ## Invariants -/

/-- What the registers of a block satisfy between two steps (10_state.md). -/
structure Block.WellFormed (w : Nat) (b : Block) : Prop where
  /-- R34: while BUSY the operands and the working registers hold values. -/
  busy_holds : b.state = .busy → b.op.isSome ∧ b.offset.isSome ∧ b.srcLen.isSome ∧ b.rem.isSome ∧ b.acc.isSome ∧ b.k.isSome
  /-- R24, R25, R34: while BUSY there is no result and no error. -/
  busy_no_result : b.state = .busy → b.vout = none ∧ b.count = none ∧ b.err = errOk
  /-- R32: while IDLE the working registers hold no value. -/
  idle_no_working : b.state = .idle → b.rem = none ∧ b.acc = none ∧ b.k = none
  /-- R28: ERR is never 3. -/
  err_legal : b.err ≠ 3
  /-- R140, R143: an error leaves no result. -/
  error_no_result : b.err ≠ errOk → b.vout = none ∧ b.count = none
  /-- R24, R38: VOUT holds a value only after a successful decode, beside COUNT. -/
  vout_of_decode : b.vout.isSome → b.count.isSome ∧ ∃ op ∈ b.op, isEncode op = false
  /-- R6, R22: OFFSET has W bits. -/
  offset_fits : ∀ n ∈ b.offset, n < 2 ^ w
  /-- R6, R23: SRC_LEN has W bits. -/
  srcLen_fits : ∀ n ∈ b.srcLen, n < 2 ^ w
  /-- R6, R25: COUNT has W bits. -/
  count_fits : ∀ n ∈ b.count, n < 2 ^ w
  /-- R31: K has W bits. -/
  k_fits : ∀ n ∈ b.k, n < 2 ^ w
  /-- R31, R102, R122: an encode writes at most 19 bytes in all. -/
  encode_bounded : b.state = .busy → ∀ op ∈ b.op, isEncode op = true → ∀ r ∈ b.rem, ∀ k ∈ b.k, encodeTotal op r k ≤ 19
  /-- R31: a decode's K never exceeds SRC_LEN − OFFSET. -/
  decode_bounded : b.state = .busy → ∀ op ∈ b.op, isEncode op = false → ∀ o ∈ b.offset, ∀ l ∈ b.srcLen, ∀ k ∈ b.k,
    k = 0 ∨ o + k ≤ l

/-- Every block of the platform with its port, the selected one first. -/
def State.agents (s : State) : List Agent := (s.blk, s.port) :: s.others

/-- What every state satisfies between two steps. -/
structure State.Inv (s : State) : Prop where
  /-- R6: W ≥ 5. -/
  width : Config.minUsizeBits ≤ s.usizeBits
  /-- Every block's registers are well formed. -/
  blocks : ∀ u ∈ s.agents, u.1.WellFormed s.usizeBits
  /-- Host memory keeps its one form. -/
  memory : Memory.wf s.mem
  /-- R166: only sink positions of a running encode are raced. -/
  raced : ∀ u ∈ s.agents, ∀ a ∈ u.2.raced, inRange (sinkRange u) a = true
  /-- R167: no running sink overlaps another block's running source or sink. -/
  disjoint : s.agents.Pairwise fun u v => raceBetween u v = false ∧ sharedSink u v = false

/-- R170: a run of a host program has ended: nothing is left to do and the block is IDLE. A fault is an outcome of
its own, after which there is no state, so no fault is recorded here (R142; log entry 15). -/
def State.runEnded (s : State) : Prop := s.actions = [] ∧ s.blk.state = .idle

/-! ## The byte source of a decode -/

/-- R162: the source bytes the decode may read are present. -/
def State.sourcePresent (s : State) (offset srcLen : Nat) : Prop :=
  ∀ i, offset ≤ i → i < srcLen → (memRead s i).isSome

/-- The source holds these bytes from index `offset` on. -/
def State.sourceHolds (s : State) (offset : Nat) (bs : List Byte) : Prop :=
  ∀ k (h : k < bs.length), memRead s (offset + k) = some bs[k]

/-- The `x_k` of R105 and R126: the source byte at index OFFSET + k (any byte where none is present). -/
def State.sourceByte (s : State) (offset k : Nat) : Byte := (memRead s (offset + k)).getD 0

/-- `x_0 .. x_{n−1}`. -/
def State.sourceBytes (s : State) (offset n : Nat) : List Byte := (List.range n).map (s.sourceByte offset)

/-- The `A_k` of R126: the OR of the payloads of `x_0 .. x_{k−1}` at positions 7j, truncated to 128 bits. -/
def State.accumulated (s : State) (offset k : Nat) : Bits128 :=
  (List.range k).foldl (fun acc j => accumulate acc (payload (s.sourceByte offset j)) j) 0

/-- R105: what ends DECU at step k. -/
def State.decuStops (s : State) (offset srcLen k : Nat) : Prop :=
  srcLen ≤ offset + k ∨ overflowU (payload (s.sourceByte offset k)) k 0 = true ∨
    continues (s.sourceByte offset k) = false

/-- R126: what ends DECS at step k. -/
def State.decsStops (s : State) (offset srcLen k : Nat) : Prop :=
  srcLen ≤ offset + k ∨ overflowS (payload (s.sourceByte offset k)) k (s.accumulated offset k) = true ∨
    continues (s.sourceByte offset k) = false

/-! ## The end of an operation -/

/-- The reads of `x_0 .. x_{n−1}` in order (R53). -/
def State.reads (s : State) (offset n : Nat) : List Access :=
  (List.range n).map fun k => .read (offset + k) (s.sourceByte offset k)

/-- The writes of these bytes at positions 0, 1, ... in order (R53). -/
def writesOf (bs : List Byte) : List Access := bs.zipIdx.map fun (b, k) => .write k b

/-- The registers at the end of an operation: START's operands stay, the working registers are gone (R34, R38, R143). -/
def Block.ended (op : BitVec 2) (offset srcLen : Nat) (err : BitVec 2) (vout : Option Bits128) (count : Option Nat) :
    Block :=
  { op := some op, offset := some offset, srcLen := some srcLen, vout := vout, count := count
    state := .idle, err := err, rem := none, acc := none, k := none }

/-- The end of an encode that wrote these bytes (R38, R101, R121). -/
def State.afterEncode (s : State) (op : BitVec 2) (offset srcLen : Nat) (bs : List Byte) : State :=
  { s with
    blk := Block.ended op offset srcLen errOk none (some bs.length)
    port := { s.port with raced := [], accesses := writesOf bs }
    mem := Memory.writeAll s.mem s.port.sinkBase bs }

/-- The end of a decode that returned this value after reading n bytes (R38, R105, R126). -/
def State.afterDecode (s : State) (op : BitVec 2) (offset srcLen : Nat) (value : Bits128) (n : Nat) : State :=
  { s with
    blk := Block.ended op offset srcLen errOk (some value) (some n)
    port := { s.port with raced := [], accesses := s.reads offset n } }

/-- The end of a decode that raised this error after reading n bytes (R105, R126, R143). -/
def State.afterError (s : State) (op : BitVec 2) (offset srcLen : Nat) (code : BitVec 2) (n : Nat) : State :=
  { s with
    blk := Block.ended op offset srcLen code none none
    port := { s.port with raced := [], accesses := s.reads offset n } }

/-- START would meet no aliasing fault (R167): the new operation's ranges overlap no running one's. -/
def State.unaliased (s : State) (i : Instr) : Prop :=
  aliasFault (Block.started i.op i.vin i.offset i.srcLen, s.port.started) s.others = none

/-- When the host may issue a command: STATE = IDLE (R163), W-bit operands (R34), no aliasing (R167). -/
structure State.mayIssue (s : State) (i : Instr) : Prop where
  idle : s.blk.state = .idle
  operands : i.wellFormed s.usizeBits
  unaliased : s.unaliased i

/-- R167 for a decode: no running encode of another block writes the source indices from `o` to `l` − 1. -/
def State.sourceUnshared (s : State) (o l : Nat) : Prop :=
  ∀ u ∈ s.others, ∀ x, s.port.srcBase + o ≤ x → x < s.port.srcBase + l → inRange (sinkRange u) x = false

/-- R167 for an encode to the `n` host addresses from `base` on: no other block's running operation reads or writes
there. -/
def State.sinkUnshared (s : State) (base n : Nat) : Prop :=
  ∀ u ∈ s.others, ∀ x, base ≤ x → x < base + n → inRange (sourceRange u) x = false ∧ inRange (sinkRange u) x = false

/-! ## Runs of block turns -/

/-- n turns of the selected block, one after another. -/
def blockTurns : Nat → State → Result
  | 0, s => .next s
  | n + 1, s => andThen (blockTurn s) (blockTurns n)

/-- How many turns certainly end a command (R37). -/
def turnBound (i : Instr) : Nat :=
  match i with
  | .encu _ _ _ => 19
  | .decu _ offset srcLen => srcLen - offset + 1
  | .encs _ _ _ => 19
  | .decs _ offset srcLen => srcLen - offset + 1

/-! ## Sequential packing (R106, R127) -/

/-- A value with the codec it is packed with: `true` for the signed one. -/
abbrev Packed := Bool × Bits128

/-- The encoding of a packed value. -/
def packedBytes (v : Packed) : List Byte := if v.1 then encodingS v.2 else encodingU v.2

/-- The decode command of a codec. -/
def decodeOf (signed : Bool) (offset srcLen : Nat) : Instr :=
  if signed then .decs 0 offset srcLen else .decu 0 offset srcLen

/-- Decode one value after another, each from the previous offset plus the previous COUNT; the values read, and
nothing if a decode did not end OK. -/
def decodeInOrder (srcLen : Nat) : List Bool → Nat → State → Option (List Bits128)
  | [], _, _ => some []
  | c :: cs, offset, s =>
    match exec (decodeOf c offset srcLen) s with
    | .next t =>
      match t.blk.vout, t.blk.count with
      | some v, some n => (decodeInOrder srcLen cs (offset + n) t).map (v :: ·)
      | _, _ => none
    | _ => none

end Sys2Proof.Machine
end

