-- ==== Sys2Proof/Certificates/Slice0/Obligations.lean ====
section
/-! DEFINITION. Certificates/Slice0/Obligations.lean: what the rules of spec/ say this machine does. Each docstring names
the rule it formalises. `State.mayIssue` (Safety.lean) says when a command may be issued; the end states `afterEncode`,
`afterDecode` and `afterError` (Safety.lean) are written out field by field, so an equality with one of them also says
that nothing else changed. -/

open Sys2Proof Sys2Proof.Machine

/-! ## Reset and the invariant -/

/-- R41: every register after reset. -/
def Obligations.ResetRegistersHoldNoResult : Prop :=
  State.reset.blk =
    { op := none, offset := none, srcLen := none, vout := none, count := none, state := .idle, err := 0
      rem := none, acc := none, k := none }

/-- The state after reset satisfies the invariant (Safety.lean). -/
def Obligations.ResetSatisfiesTheInvariant : Prop := State.reset.Inv

/-- Every step, whatever the host and the other agents do, keeps the invariant: registers hold values exactly when
R32 to R34 say so, ERR is never 3 (R28), an error leaves no result (R143), K, COUNT, OFFSET and SRC_LEN keep their
bounds (R6, R31), host memory keeps its one form, and no running sink overlaps another running range (R167). -/
def Obligations.EveryStepKeepsTheInvariant : Prop := ∀ s t : State, s.Inv → step s = .next t → t.Inv

/-- R160: reset abandons any operation and sets the registers of R41; bytes already handed to the sink stay, but for
the positions that were raced (R166; log entry 14), and nothing else changes. -/
def Obligations.ResetAbandonsTheOperation : Prop :=
  ∀ (s : State) (rest : List Action), s.actions = .reset :: rest →
    ∃ t, step s = .next t ∧
      t.blk =
        { op := none, offset := none, srcLen := none, vout := none, count := none, state := .idle, err := 0
          rem := none, acc := none, k := none } ∧
      (∀ a, a ∉ s.port.raced → Memory.read t.mem a = Memory.read s.mem a) ∧
      t.port.raced = [] ∧ t.port.srcBase = s.port.srcBase ∧ t.port.sinkBase = s.port.sinkBase ∧
      t.port.accesses = s.port.accesses ∧ t.others = s.others ∧ t.usizeBits = s.usizeBits ∧ t.bufLen = s.bufLen ∧
      t.cursor = s.cursor ∧ t.actions = rest ∧ t.lastRead = s.lastRead

/-! ## Commands and their encoding -/

/-- R78: the code of each operation, and the operation of each code. -/
def Obligations.CommandWordNamesItsOperation : Prop :=
  ∀ (v : Bits128) (o l : Nat),
    (commandOf 0b00#2 v o l = .encu v o l ∧ (Instr.encu v o l).op = 0b00#2) ∧
    (commandOf 0b01#2 v o l = .decu v o l ∧ (Instr.decu v o l).op = 0b01#2) ∧
    (commandOf 0b10#2 v o l = .encs v o l ∧ (Instr.encs v o l).op = 0b10#2) ∧
    (commandOf 0b11#2 v o l = .decs v o l ∧ (Instr.decs v o l).op = 0b11#2)

/-- The decoder reads the four command words of the opcode table (bits 1:0 of a word whose other bits are 0), for any
number of bits that holds them. The place of OP in the byte is the model's choice (log entries 8, 9). -/
def Obligations.TableWordsDecode : Prop :=
  ∀ nbits, 2 ≤ nbits →
    decodeTableWord nbits 0b00 = some (.encu 0 0 0) ∧ decodeTableWord nbits 0b01 = some (.decu 0 0 0) ∧
    decodeTableWord nbits 0b10 = some (.encs 0 0 0) ∧ decodeTableWord nbits 0b11 = some (.decs 0 0 0)

/-- Decoding the tuple of a command gives the command back, for every operand value the host can express
(R78, R80, R82). -/
def Obligations.DecodeOfEncodeIsTheCommand : Prop :=
  ∀ (w : Nat) (i : Instr), i.wellFormed w → decode w (encode w i) = .ok i

/-- What decodes is a command the host can express, and the bytes are its tuple: no two byte strings decode to one
command (R79, R82; the packing is log entry 8). -/
def Obligations.EncodeOfDecodeIsTheTuple : Prop :=
  ∀ (w : Nat) (bs : List Byte) (i : Instr), decode w bs = .ok i → i.wellFormed w ∧ encode w i = bs

/-- A `command` action whose bytes decode to a command runs exactly that command, with the action used up; so does a
table word placed by `withFetchWord`. A `start` action does START alone. -/
def Obligations.StepRunsTheDecodedCommand : Prop :=
  (∀ (s : State) (bs : List Byte) (rest : List Action) (i : Instr), s.actions = .command bs :: rest →
    decode s.usizeBits bs = .ok i → step s = exec i (s.withActions rest)) ∧
  (∀ (s : State) (bs : List Byte) (rest : List Action) (i : Instr), s.actions = .start bs :: rest →
    decode s.usizeBits bs = .ok i → step s = startInstr i (s.withActions rest)) ∧
  ∀ (s : State) (nbits w : Nat) (i : Instr), decode s.usizeBits (tableBytes s.usizeBits nbits w) = .ok i →
    step (s.withFetchWord nbits w) = exec i s

/-- R34: START of any operation latches the operands and clears the results, reading no source byte and writing no
sink byte; while BUSY it is the fault HOST_BUSY. -/
def Obligations.StartLatchesTheOperands : Prop :=
  (∀ (s : State) (i : Instr), s.mayIssue i →
    startInstr i s = .next
      { s with
        blk :=
          { op := some i.op, offset := some i.offset, srcLen := some i.srcLen, vout := none, count := none
            state := .busy, err := 0, rem := some i.vin, acc := some 0, k := some 0 }
        port := { s.port with raced := [], accesses := [] } }) ∧
  ∀ (s : State) (i : Instr), i.wellFormed s.usizeBits → s.blk.state = .busy → startInstr i s = .fault .hostBusy

/-- R142, R163: a command issued while BUSY is the fault HOST_BUSY, whatever the command. -/
def Obligations.CommandWhileBusyFaults : Prop :=
  ∀ (s : State) (i : Instr), i.wellFormed s.usizeBits → s.blk.state = .busy → exec i s = .fault .hostBusy

/-- R6, R81: an offset or a source length of more than W bits is no operand of any command. -/
def Obligations.WideOperandIsRefused : Prop :=
  ∀ (s : State) (i : Instr), ¬ i.wellFormed s.usizeBits → exec i s = .refused .operandTooWide

/-! ## The wire format -/

/-- R70: `{c, p}` has continuation flag c and payload p, and every byte is made of its two parts. -/
def Obligations.WireByteHoldsFlagAndPayload : Prop :=
  (∀ (c : Bool) (p : Payload), (wireByte c p).getLsbD 7 = c ∧ (wireByte c p).setWidth 7 = p) ∧
  ∀ b : Byte, wireByte (b.getLsbD 7) (b.setWidth 7) = b

/-- R55: byte k of an encoded sequence carries the value's bits 7k to 7k + 6 in payload bits 0 to 6 (above bit 127 an
unsigned value has zeros and a signed value copies of bit 127), and a decoder puts payload bit j of byte k at value
bit 7k + j. -/
def Obligations.PayloadBitsAreValueBits : Prop :=
  (∀ (v : Bits128) (n k j : Nat), j < 7 → (payload (wireU v n k)).getLsbD j = v.getLsbD (7 * k + j)) ∧
  (∀ (v : Bits128) (n k j : Nat), j < 7 →
    (payload (wireS v n k)).getLsbD j = if 7 * k + j < 128 then v.getLsbD (7 * k + j) else v.getLsbD 127) ∧
  ∀ (acc : Bits128) (p : Payload) (k i : Nat), i < 128 →
    (accumulate acc p k).getLsbD i = (acc.getLsbD i || (decide (7 * k ≤ i) && p.getLsbD (i - 7 * k)))

/-- R75: `n_u(v)` is the length whose range holds v, at most 19 for a 128-bit value, and the number of bytes ENCU
emits. -/
def Obligations.UnsignedLengthIsMinimal : Prop :=
  (∀ v : Nat, lengthU v = 1 ↔ v < 128) ∧
  (∀ v k : Nat, 2 ≤ k → (lengthU v = k ↔ 2 ^ (7 * (k - 1)) ≤ v ∧ v < 2 ^ (7 * k))) ∧
  (∀ v : Nat, v < 2 ^ 128 → lengthU v ≤ 19) ∧
  ∀ (s t : State) (v : Bits128) (o l : Nat), exec (.encu v o l) s = .next t →
    t.blk.count = some (lengthU (uint v)) ∧ t.port.accesses.length = lengthU (uint v)

/-- R76: `n_s(v)` is the least n ≥ 1 whose range holds v, at most 19 for a 128-bit value, and the number of bytes ENCS
emits. -/
def Obligations.SignedLengthIsMinimal : Prop :=
  (∀ v : Int, 1 ≤ lengthS v ∧ -2 ^ (7 * lengthS v - 1) ≤ v ∧ v < 2 ^ (7 * lengthS v - 1)) ∧
  (∀ (v : Int) (n : Nat), 1 ≤ n → -2 ^ (7 * n - 1) ≤ v → v < 2 ^ (7 * n - 1) → lengthS v ≤ n) ∧
  (∀ v : Int, -2 ^ 127 ≤ v → v < 2 ^ 127 → lengthS v ≤ 19) ∧
  ∀ (s t : State) (v : Bits128) (o l : Nat), exec (.encs v o l) s = .next t →
    t.blk.count = some (lengthS (sint v)) ∧ t.port.accesses.length = lengthS (sint v)

/-- R71, R72, R75: what ENCU writes is an encoded sequence that denotes the value, and it is the only one of its
length or shorter. -/
def Obligations.UnsignedEncodingIsTheOnlyMinimalOne : Prop :=
  ∀ v : Bits128, isSequence (encodingU v) = true ∧ denoteU (encodingU v) = uint v ∧
    ∀ bs : List Byte, isSequence bs = true → denoteU bs = uint v →
      lengthU (uint v) ≤ bs.length ∧ (bs.length = lengthU (uint v) → bs = encodingU v)

/-- R71, R73, R76: the same of ENCS. -/
def Obligations.SignedEncodingIsTheOnlyMinimalOne : Prop :=
  ∀ v : Bits128, isSequence (encodingS v) = true ∧ denoteS (encodingS v) = sint v ∧
    ∀ bs : List Byte, isSequence bs = true → denoteS bs = sint v →
      lengthS (sint v) ≤ bs.length ∧ (bs.length = lengthS (sint v) → bs = encodingS v)

/-! ## The encoders -/

/-- R100: one step of a running ENCU. -/
def Obligations.EncuStepWritesOneGroup : Prop :=
  ∀ (s : State) (rem : Bits128) (k : Nat), s.blk.state = .busy → s.blk.op = some 0b00#2 → s.blk.rem = some rem →
    s.blk.k = some k →
    let b := wireByte (decide (rem >>> 7 ≠ 0)) (rem.setWidth 7)
    ∃ t, blockTurn s = .next t ∧ t.port.accesses = s.port.accesses ++ [.write k b] ∧
      (s.port.sinkBase + k ∉ s.port.raced → Memory.read t.mem (s.port.sinkBase + k) = some b) ∧
      (rem >>> 7 ≠ 0 → t.blk = { s.blk with rem := some (rem >>> 7), k := some (k + 1) }) ∧
      (rem >>> 7 = 0 →
        t.blk = { s.blk with count := some (k + 1), err := 0, state := .idle, rem := none, acc := none, k := none })

/-- R120: one step of a running ENCS. -/
def Obligations.EncsStepWritesOneGroup : Prop :=
  ∀ (s : State) (rem : Bits128) (k : Nat), s.blk.state = .busy → s.blk.op = some 0b10#2 → s.blk.rem = some rem →
    s.blk.k = some k →
    let p : Payload := rem.setWidth 7
    let r := rem.sshiftRight 7
    let last := (r = 0 ∧ p.getLsbD 6 = false) ∨ (r = ones128 ∧ p.getLsbD 6 = true)
    ∃ t b, blockTurn s = .next t ∧ t.port.accesses = s.port.accesses ++ [.write k b] ∧ payload b = p ∧
      (continues b = false ↔ last) ∧
      (s.port.sinkBase + k ∉ s.port.raced → Memory.read t.mem (s.port.sinkBase + k) = some b) ∧
      (¬ last → t.blk = { s.blk with rem := some r, k := some (k + 1) }) ∧
      (last →
        t.blk = { s.blk with count := some (k + 1), err := 0, state := .idle, rem := none, acc := none, k := none })

/-- R101: ENCU writes exactly the bytes b_0 .. b_{n−1} at positions 0 to n − 1, in order, and ends with COUNT = n and
ERR = 0, for every operand (the ignored ones too). -/
def Obligations.EncuWritesTheUnsignedEncoding : Prop :=
  ∀ (s : State) (v : Bits128) (o l : Nat), s.mayIssue (.encu v o l) →
    exec (.encu v o l) s = .next (s.afterEncode 0b00#2 o l
      ((List.range (lengthU (uint v))).map fun k =>
        wireByte (decide (k < lengthU (uint v) - 1)) ((v >>> (7 * k)).setWidth 7)))

/-- R121: the termination test at step k, in terms of the value shifted and of the value itself, and what ENCS
writes. -/
def Obligations.EncsWritesTheSignedEncoding : Prop :=
  (∀ (v : Bits128) (k : Nat),
    (moreSigned ((v.sshiftRight (7 * k)).setWidth 7) (v.sshiftRight (7 * (k + 1))) = false ↔
      v.sshiftRight (7 * (k + 1) - 1) = 0 ∨ v.sshiftRight (7 * (k + 1) - 1) = ones128) ∧
    (moreSigned ((v.sshiftRight (7 * k)).setWidth 7) (v.sshiftRight (7 * (k + 1))) = false ↔
      -2 ^ (7 * (k + 1) - 1) ≤ sint v ∧ sint v < 2 ^ (7 * (k + 1) - 1))) ∧
  ∀ (s : State) (v : Bits128) (o l : Nat), s.mayIssue (.encs v o l) →
    exec (.encs v o l) s = .next (s.afterEncode 0b10#2 o l
      ((List.range (lengthS (sint v))).map fun k =>
        wireByte (decide (k < lengthS (sint v) - 1)) ((v.sshiftRight (7 * k)).setWidth 7)))

/-- R102: ENCU ends after exactly n_u steps, at most 19. -/
def Obligations.EncuTakesItsLengthInSteps : Prop :=
  ∀ (s t : State) (v : Bits128) (o l : Nat), startInstr (.encu v o l) s = .next t →
    lengthU (uint v) ≤ 19 ∧ v >>> 133 = 0 ∧
      (∀ j < lengthU (uint v), ∃ u, blockTurns j t = .next u ∧ u.blk.state = .busy) ∧
      ∃ u, blockTurns (lengthU (uint v)) t = .next u ∧ u.blk.state = .idle

/-- R122: ENCS ends after exactly n_s steps, at most 19, since every value lies in [−2^132, 2^132). -/
def Obligations.EncsTakesItsLengthInSteps : Prop :=
  ∀ (s t : State) (v : Bits128) (o l : Nat), startInstr (.encs v o l) s = .next t →
    lengthS (sint v) ≤ 19 ∧ -2 ^ 132 ≤ sint v ∧ sint v < 2 ^ 132 ∧
      (∀ j < lengthS (sint v), ∃ u, blockTurns j t = .next u ∧ u.blk.state = .busy) ∧
      ∃ u, blockTurns (lengthS (sint v)) t = .next u ∧ u.blk.state = .idle

/-- Frame of ENCU and ENCS: OP, OFFSET and SRC_LEN hold START's operands (R34), VOUT no value (R24), COUNT, STATE and
ERR the result (R38), the working registers no value (R32); the bytes stored are those of the sink positions 0 to
n − 1, which lie from `sinkBase` on, and every other byte is unchanged, like every other field but the port's two
records (which positions are raced, which accesses were done). -/
def Obligations.EncodersFrame : Prop :=
  ∀ (s t : State) (i : Instr), isEncode i.op = true → exec i s = .next t →
    t.blk.op = some i.op ∧ t.blk.offset = some i.offset ∧ t.blk.srcLen = some i.srcLen ∧ t.blk.vout = none ∧
    t.blk.count = some (encodedLength i) ∧ t.blk.state = .idle ∧ t.blk.err = 0 ∧ t.blk.rem = none ∧
    t.blk.acc = none ∧ t.blk.k = none ∧
    (∀ a, (a < s.port.sinkBase ∨ s.port.sinkBase + encodedLength i ≤ a) →
      Memory.read t.mem a = Memory.read s.mem a) ∧
    t.port.srcBase = s.port.srcBase ∧ t.port.sinkBase = s.port.sinkBase ∧ t.others = s.others ∧
    t.usizeBits = s.usizeBits ∧ t.bufLen = s.bufLen ∧ t.cursor = s.cursor ∧ t.actions = s.actions ∧
    t.lastRead = s.lastRead ∧ t.draws = s.draws

/-! ## The decoders -/

/-- R103, R145: one step of a running DECU, its tests in order. -/
def Obligations.DecuStepReadsOneByte : Prop :=
  ∀ (s : State) (o l k : Nat) (acc : Bits128), s.Inv → s.blk.state = .busy → s.blk.op = some 0b01#2 →
    s.blk.offset = some o → s.blk.srcLen = some l → s.blk.acc = some acc → s.blk.k = some k →
    (l ≤ o + k → blockTurn s = .next
      { s with blk := { s.blk with err := 1, state := .idle, rem := none, acc := none, k := none } }) ∧
    ∀ b, o + k < l → memRead s (o + k) = some b →
      let p : Payload := b.setWidth 7
      let port := { s.port with accesses := s.port.accesses ++ [.read (o + k) b] }
      let acc' := if 7 * k < 128 then acc ||| (p.setWidth 128 <<< (7 * k)) else acc
      (overflowU p k acc = true → blockTurn s = .next
        { s with port := port, blk := { s.blk with err := 2, state := .idle, rem := none, acc := none, k := none } }) ∧
      (overflowU p k acc = false → b.getLsbD 7 = true → blockTurn s = .next
        { s with port := port, blk := { s.blk with acc := some acc', k := some (k + 1) } }) ∧
      (overflowU p k acc = false → b.getLsbD 7 = false → blockTurn s = .next
        { s with
          port := port
          blk := { s.blk with
            vout := some acc', count := some (k + 1), err := 0, state := .idle, rem := none, acc := none, k := none } })

/-- R123, R125, R145: one step of a running DECS, its tests in order. -/
def Obligations.DecsStepReadsOneByte : Prop :=
  ∀ (s : State) (o l k : Nat) (acc : Bits128), s.Inv → s.blk.state = .busy → s.blk.op = some 0b11#2 →
    s.blk.offset = some o → s.blk.srcLen = some l → s.blk.acc = some acc → s.blk.k = some k →
    (l ≤ o + k → blockTurn s = .next
      { s with blk := { s.blk with err := 1, state := .idle, rem := none, acc := none, k := none } }) ∧
    ∀ b, o + k < l → memRead s (o + k) = some b →
      let p : Payload := b.setWidth 7
      let port := { s.port with accesses := s.port.accesses ++ [.read (o + k) b] }
      let acc' := if 7 * k < 128 then acc ||| (p.setWidth 128 <<< (7 * k)) else acc
      let acc'' := if 7 * (k + 1) < 128 ∧ p.getLsbD 6 = true then acc' ||| (ones128 <<< (7 * (k + 1))) else acc'
      (overflowS p k acc = true → blockTurn s = .next
        { s with port := port, blk := { s.blk with err := 2, state := .idle, rem := none, acc := none, k := none } }) ∧
      (overflowS p k acc = false → b.getLsbD 7 = true → blockTurn s = .next
        { s with port := port, blk := { s.blk with acc := some acc', k := some (k + 1) } }) ∧
      (overflowS p k acc = false → b.getLsbD 7 = false → blockTurn s = .next
        { s with
          port := port
          blk := { s.blk with
            vout := some acc'', count := some (k + 1), err := 0, state := .idle, rem := none, acc := none, k := none } })

/-- R104: the overflow test of one payload, and that DECU raises Overflow exactly when the value the sequence denotes
exceeds 2^128 − 1. -/
def Obligations.DecuOverflowsExactlyBeyond128Bits : Prop :=
  (∀ (p : Payload) (k : Nat) (acc : Bits128),
    (overflowU p k acc = true ↔ ∃ j < 7, p.getLsbD j = true ∧ 128 ≤ 7 * k + j) ∧
    (k ≤ 17 → overflowU p k acc = false) ∧ (k = 18 → (overflowU p k acc = true ↔ p.extractLsb 6 2 ≠ 0)) ∧
    (19 ≤ k → (overflowU p k acc = true ↔ p ≠ 0))) ∧
  ∀ (s : State) (v : Bits128) (o l : Nat) (bs : List Byte), s.mayIssue (.decu v o l) → isSequence bs = true →
    s.sourceHolds o bs → o + bs.length ≤ l →
    ∃ t, exec (.decu v o l) s = .next t ∧ (t.blk.err = errOverflow ↔ 2 ^ 128 - 1 < denoteU bs)

/-- R124: the overflow test of one payload, and that DECS raises Overflow exactly when the value the sequence denotes
lies outside [−2^127, 2^127 − 1]. -/
def Obligations.DecsOverflowsExactlyBeyond128Bits : Prop :=
  (∀ (p : Payload) (k : Nat) (acc : Bits128), overflowS p k acc = true ↔
    (k = 18 ∧ p.extractLsb 6 1 ≠ 0 ∧ p.extractLsb 6 1 ≠ 0b111111#6) ∨
    (19 ≤ k ∧ ∃ j < 7, p.getLsbD j ≠ acc.getLsbD 127)) ∧
  (∀ (s : State) (o k : Nat), 19 ≤ k →
    (s.accumulated o k).getLsbD 127 = (payload (s.sourceByte o 18)).getLsbD 1) ∧
  ∀ (s : State) (v : Bits128) (o l : Nat) (bs : List Byte), s.mayIssue (.decs v o l) → isSequence bs = true →
    s.sourceHolds o bs → o + bs.length ≤ l →
    ∃ t, exec (.decs v o l) s = .next t ∧
      (t.blk.err = errOverflow ↔ ¬(-2 ^ 127 ≤ denoteS bs ∧ denoteS bs ≤ 2 ^ 127 - 1))

/-- R72, R77, R103: DECU returns the value a sequence denotes and its full length, whether or not it is minimal and
whatever bytes follow. -/
def Obligations.DecuReturnsTheDenotedValue : Prop :=
  ∀ (s : State) (v : Bits128) (o l : Nat) (bs : List Byte), s.mayIssue (.decu v o l) → isSequence bs = true →
    s.sourceHolds o bs → o + bs.length ≤ l → denoteU bs ≤ 2 ^ 128 - 1 →
    exec (.decu v o l) s = .next (s.afterDecode 0b01#2 o l (bv (denoteU bs)) bs.length)

/-- R73, R77, R123: DECS returns the value a sequence denotes and its full length, whether or not it is minimal and
whatever bytes follow. -/
def Obligations.DecsReturnsTheDenotedValue : Prop :=
  ∀ (s : State) (v : Bits128) (o l : Nat) (bs : List Byte), s.mayIssue (.decs v o l) → isSequence bs = true →
    s.sourceHolds o bs → o + bs.length ≤ l → -2 ^ 127 ≤ denoteS bs → denoteS bs ≤ 2 ^ 127 - 1 →
    exec (.decs v o l) s = .next (s.afterDecode 0b11#2 o l (bv (denoteS bs)) bs.length)

/-- R105: DECU ends at its first stop m: Truncated after reading m bytes, Overflow after reading m + 1, or the value
of x_0 .. x_m with COUNT = m + 1. -/
def Obligations.DecuEndsAtItsFirstStop : Prop :=
  ∀ (s : State) (v : Bits128) (o l : Nat), s.mayIssue (.decu v o l) → s.sourcePresent o l →
    ∃ m, s.decuStops o l m ∧ (∀ k < m, ¬ s.decuStops o l k) ∧
      exec (.decu v o l) s = .next
        (if l ≤ o + m then s.afterError 0b01#2 o l 1 m
         else if overflowU (payload (s.sourceByte o m)) m 0 then s.afterError 0b01#2 o l 2 (m + 1)
         else s.afterDecode 0b01#2 o l (bv (denoteU (s.sourceBytes o (m + 1)))) (m + 1))

/-- R126: DECS ends at its first stop m, in the same three ways. -/
def Obligations.DecsEndsAtItsFirstStop : Prop :=
  ∀ (s : State) (v : Bits128) (o l : Nat), s.mayIssue (.decs v o l) → s.sourcePresent o l →
    ∃ m, s.decsStops o l m ∧ (∀ k < m, ¬ s.decsStops o l k) ∧
      exec (.decs v o l) s = .next
        (if l ≤ o + m then s.afterError 0b11#2 o l 1 m
         else if overflowS (payload (s.sourceByte o m)) m (s.accumulated o m) then s.afterError 0b11#2 o l 2 (m + 1)
         else s.afterDecode 0b11#2 o l (bv (denoteS (s.sourceBytes o (m + 1)))) (m + 1))

/-- R125: the sign extension sets bits 7n to 127 exactly when 7n < 128 and the payload's bit 6 is 1. -/
def Obligations.SignCompletionSetsTheHighBits : Prop :=
  ∀ (acc : Bits128) (p : Payload) (n i : Nat), i < 128 →
    (completeSign acc p n).getLsbD i = (acc.getLsbD i || (decide (7 * n ≤ i) && p.getLsbD 6))

/-- Frame of DECU and DECS, whether they end OK or in error: OP, OFFSET and SRC_LEN hold START's operands (R34), the
working registers no value (R32), VOUT and COUNT a value exactly when ERR is OK (R140, R143); no byte of host memory
changes (R53: a decoder never writes), nor any other field but the port's two records. -/
def Obligations.DecodersFrame : Prop :=
  ∀ (s t : State) (i : Instr), isEncode i.op = false → exec i s = .next t →
    t.blk.op = some i.op ∧ t.blk.offset = some i.offset ∧ t.blk.srcLen = some i.srcLen ∧
    t.blk.state = .idle ∧ t.blk.rem = none ∧ t.blk.acc = none ∧ t.blk.k = none ∧
    (t.blk.err = 0 ∨ t.blk.err = 1 ∨ t.blk.err = 2) ∧
    (t.blk.err = 0 ↔ t.blk.vout.isSome = true) ∧ (t.blk.err = 0 ↔ t.blk.count.isSome = true) ∧
    t.mem = s.mem ∧ t.port.srcBase = s.port.srcBase ∧ t.port.sinkBase = s.port.sinkBase ∧ t.others = s.others ∧
    t.usizeBits = s.usizeBits ∧ t.bufLen = s.bufLen ∧ t.cursor = s.cursor ∧ t.actions = s.actions ∧
    t.lastRead = s.lastRead ∧ t.draws = s.draws

/-- R162, log entry 5 (the model's choice): a decode that reaches a source byte the host has not put there, no earlier
byte having ended it (R105, R126), stops with `byteAbsent`. -/
def Obligations.AbsentSourceByteStopsTheDecode : Prop :=
  (∀ (s : State) (v : Bits128) (o l m : Nat), s.mayIssue (.decu v o l) → o + m < l → memRead s (o + m) = none →
    (∀ k < m, ¬ s.decuStops o l k) → exec (.decu v o l) s = .fault .byteAbsent) ∧
  ∀ (s : State) (v : Bits128) (o l m : Nat), s.mayIssue (.decs v o l) → o + m < l → memRead s (o + m) = none →
    (∀ k < m, ¬ s.decsStops o l k) → exec (.decs v o l) s = .fault .byteAbsent

/-! ## Round trips -/

/-- R106: DECU of what ENCU writes gives the value and the length, whatever bytes follow; values encoded back to back
and decoded in order, each from the previous offset plus the previous COUNT, come back in order. Other blocks may run,
but none encodes into the source (R167). -/
def Obligations.UnsignedRoundTrip : Prop :=
  (∀ (s : State) (v w : Bits128) (o l : Nat), s.mayIssue (.decu w o l) → s.sourceHolds o (encodingU v) →
    o + lengthU (uint v) ≤ l →
    exec (.decu w o l) s = .next (s.afterDecode 0b01#2 o l v (lengthU (uint v)))) ∧
  ∀ (s : State) (vs : List Bits128) (o l : Nat), s.blk.state = .idle → s.sourceUnshared o l →
    l < 2 ^ s.usizeBits → s.sourceHolds o (vs.map encodingU).flatten → o + (vs.map encodingU).flatten.length ≤ l →
    decodeInOrder l (vs.map fun _ => false) o s = some vs

/-- R127: the same of DECS and ENCS. -/
def Obligations.SignedRoundTrip : Prop :=
  (∀ (s : State) (v w : Bits128) (o l : Nat), s.mayIssue (.decs w o l) → s.sourceHolds o (encodingS v) →
    o + lengthS (sint v) ≤ l →
    exec (.decs w o l) s = .next (s.afterDecode 0b11#2 o l v (lengthS (sint v)))) ∧
  ∀ (s : State) (vs : List Bits128) (o l : Nat), s.blk.state = .idle → s.sourceUnshared o l →
    l < 2 ^ s.usizeBits → s.sourceHolds o (vs.map encodingS).flatten → o + (vs.map encodingS).flatten.length ≤ l →
    decodeInOrder l (vs.map fun _ => true) o s = some vs

/-- An encode followed by the decode of the same signedness, the source lying where the sink lay, gives the value and
the length back (R106, R127). -/
def Obligations.EncodeThenDecodeReturnsTheValue : Prop :=
  ∀ (s : State) (signed : Bool) (v : Bits128) (o l o' l' : Nat),
    let enc : Instr := if signed then .encs v o' l' else .encu v o' l'
    s.mayIssue enc → s.sourceUnshared o l → s.port.sinkBase = s.port.srcBase + o →
    o + encodedLength enc ≤ l → l < 2 ^ s.usizeBits →
    ∃ t u, exec enc s = .next t ∧ exec (decodeOf signed o l) t = .next u ∧
      u.blk.err = 0 ∧ u.blk.vout = some v ∧ u.blk.count = some (encodedLength enc)

/-- Values of both codecs packed back to back come back in order, whatever the other blocks run that does not write into
the source (R106, R127, R167, P1). -/
def Obligations.MixedPackingIsReadBackInOrder : Prop :=
  ∀ (s : State) (vs : List Packed) (o l : Nat), s.blk.state = .idle → s.sourceUnshared o l →
    l < 2 ^ s.usizeBits → s.sourceHolds o (vs.map packedBytes).flatten →
    o + (vs.map packedBytes).flatten.length ≤ l →
    decodeInOrder l (vs.map Prod.fst) o s = some (vs.map Prod.snd)

/-! ## The two views, progress -/

/-- R39: running a command as one transition is START followed by the block's turns, for every number of turns from
the bound on; a stop is the same stop. -/
def Obligations.TransactionIsTheStepView : Prop :=
  ∀ (i : Instr) (s : State) (n : Nat), turnBound i ≤ n → exec i s = andThen (startInstr i s) (blockTurns n)

/-- R37: no step waits (a decode's source bytes being present, R162), and an operation ends after at most 19 steps for the encoders, at most SRC_LEN − OFFSET + 1 for
the decoders when OFFSET ≤ SRC_LEN, and 1 step when OFFSET > SRC_LEN. -/
def Obligations.OperationsEndWithinTheirBound : Prop :=
  (∀ s : State, s.Inv → s.blk.state = .busy →
    (∀ op ∈ s.blk.op, isEncode op = false → ∀ o ∈ s.blk.offset, ∀ l ∈ s.blk.srcLen, s.sourcePresent o l) →
    ∃ t, blockTurn s = .next t) ∧
  ∀ (s : State) (i : Instr), s.mayIssue i → (isEncode i.op = false → s.sourcePresent i.offset i.srcLen) →
    ∃ n u, n ≤ (if isEncode i.op then 19 else if i.offset ≤ i.srcLen then i.srcLen - i.offset + 1 else 1) ∧
      andThen (startInstr i s) (blockTurns n) = .next u ∧ u.blk.state = .idle

/-- R35: while BUSY the one enabled step is that of OP; an encoder step writes exactly one byte, a decoder step reads
exactly one byte or, the next index being outside the source, raises Truncated without reading; the step ends the
operation or leaves STATE = BUSY. -/
def Obligations.BusyBlockTakesOneStep : Prop :=
  ∀ (s : State) (op : BitVec 2) (o l k : Nat), s.Inv → s.blk.state = .busy → s.blk.op = some op →
    s.blk.offset = some o → s.blk.srcLen = some l → s.blk.k = some k →
    ((op = 0b00#2 → blockTurn s = stepEncu s) ∧ (op = 0b01#2 → blockTurn s = stepDecu s) ∧
      (op = 0b10#2 → blockTurn s = stepEncs s) ∧ (op = 0b11#2 → blockTurn s = stepDecs s)) ∧
    (isEncode op = true → ∃ t b, blockTurn s = .next t ∧ t.port.accesses = s.port.accesses ++ [.write k b] ∧
      (t.blk.state = .idle ∨ t.blk.state = .busy ∧ t.blk.k = some (k + 1))) ∧
    (isEncode op = false → l ≤ o + k → ∃ t, blockTurn s = .next t ∧ t.port.accesses = s.port.accesses ∧
      t.blk.err = errTruncated ∧ t.blk.state = .idle) ∧
    (isEncode op = false → ∀ b, o + k < l → memRead s (o + k) = some b →
      ∃ t, blockTurn s = .next t ∧ t.port.accesses = s.port.accesses ++ [.read (o + k) b] ∧
        (t.blk.state = .idle ∨ t.blk.state = .busy ∧ t.blk.k = some (k + 1)))

/-- R37, D21, log entry 6: when the host has nothing left to do, every running operation comes to its end, the source
bytes being present. -/
def Obligations.EveryRunningOperationEnds : Prop :=
  ∀ s : State, s.Inv → s.actions = [] →
    (∀ u ∈ s.agents, ∀ a, inRange (sourceRange u) a = true → (Memory.read s.mem a).isSome = true) →
    ∃ n t, Sys2Proof.core.run n s = .next t ∧ ∀ u ∈ t.agents, u.1.state = .idle

/-! ## Errors and host actions -/

/-- R143: a step that raises an error writes its code and STATE = IDLE, discards the working registers, leaves VOUT and
COUNT with no value and host memory as it was; it reads no byte for Truncated and the one that shows the error for
Overflow, and no turn of the block reads another. -/
def Obligations.RaiseEndsTheOperation : Prop :=
  ∀ s t : State, s.Inv → s.blk.state = .busy → blockTurn s = .next t → t.blk.err ≠ 0 →
    t.blk = { s.blk with err := t.blk.err, state := .idle, rem := none, acc := none, k := none } ∧
    t.blk.vout = none ∧ t.blk.count = none ∧ t.mem = s.mem ∧
    ((t.blk.err = 1 ∧ t.port.accesses = s.port.accesses) ∨
      (t.blk.err = 2 ∧ ∃ i b, memRead s i = some b ∧ t.port.accesses = s.port.accesses ++ [.read i b])) ∧
    blockTurn t = .next t

/-- R164: ERR, VOUT and COUNT are read only while IDLE, VOUT and COUNT only while they hold a value; any other read is
RESULT_UNAVAILABLE. STATE is read always (R27). Nothing but the host's reading changes. -/
def Obligations.ResultsAreReadOnlyWhenIdle : Prop :=
  ∀ (s : State) (rest : List Action),
    (s.actions = .readState :: rest → step s = .next
      { s with
        actions := rest
        lastRead := some (.state (match s.blk.state with | .idle => 0 | .busy => 1)) }) ∧
    (s.actions = .readErr :: rest →
      (s.blk.state = .idle → step s = .next { s with actions := rest, lastRead := some (.err s.blk.err) }) ∧
      (s.blk.state = .busy → step s = .fault .resultUnavailable)) ∧
    (s.actions = .readVout :: rest →
      (∀ v, s.blk.state = .idle → s.blk.vout = some v →
        step s = .next { s with actions := rest, lastRead := some (.vout v) }) ∧
      (s.blk.state = .busy ∨ s.blk.vout = none → step s = .fault .resultUnavailable)) ∧
    (s.actions = .readCount :: rest →
      (∀ n, s.blk.state = .idle → s.blk.count = some n →
        step s = .next { s with actions := rest, lastRead := some (.count n) }) ∧
      (s.blk.state = .busy ∨ s.blk.count = none → step s = .fault .resultUnavailable))

/-- R170: the results are fixed until the next START or reset: no other action changes a register of an IDLE block.
Turning to another block, by an action or when no action is left (log entries 3, 6), keeps the block with its port
among the blocks; with no action left and every block IDLE, a step changes nothing. -/
def Obligations.ResultsStayUntilTheNextStart : Prop :=
  (∀ (s t : State) (a : Action) (rest : List Action), s.blk.state = .idle → s.actions = a :: rest →
    (∀ bs, a ≠ .command bs) → (∀ bs, a ≠ .start bs) → (∀ st, a = .statement st → ∃ n, st = .setc n) → a ≠ .reset →
    (∀ n, a ≠ .select n) → step s = .next t → t.blk = s.blk) ∧
  (∀ s t : State, s.blk.state = .idle → (s.actions = [] ∨ ∃ n rest, s.actions = .select n :: rest) →
    step s = .next t → (s.blk, s.port) ∈ t.agents) ∧
  ∀ s : State, s.actions = [] → (∀ u ∈ s.agents, u.1.state = .idle) → step s = .next s

/-- R21, R22, R23: OP, OFFSET and SRC_LEN are written only by START, so they are constant while BUSY, whatever is done
short of a reset or of turning to another block; they also outlive the operation's end. -/
def Obligations.OperandsAreConstantWhileBusy : Prop :=
  ∀ s t : State, s.blk.state = .busy → (∀ rest, s.actions ≠ .reset :: rest) →
    (∀ n rest, s.actions ≠ .select n :: rest) → step s = .next t →
    t.blk.op = s.blk.op ∧ t.blk.offset = s.blk.offset ∧ t.blk.srcLen = s.blk.srcLen

/-- R165: while any block runs a decode, a write by another agent at an index from OFFSET to SRC_LEN − 1 of its source is
SOURCE_RACE. -/
def Obligations.WriteIntoARunningSourceFaults : Prop :=
  ∀ (s : State) (rest : List Action) (u : Agent) (op : BitVec 2) (o l i : Nat) (b : Byte), u ∈ s.agents →
    u.1.state = .busy → u.1.op = some op → isEncode op = false → u.1.offset = some o → u.1.srcLen = some l →
    o ≤ i → i < l → s.actions = .hostWrite (u.2.srcBase + i) b :: rest → step s = .fault .sourceRace

/-- A write outside every running decode's range stores the byte and no other, and changes no register (R165: below
OFFSET and from SRC_LEN on there is no SOURCE_RACE). At a sink position of a running encode R166 makes the write a race:
that the byte stands there until the encode's end draws another is the model's choice (log entry 13). -/
def Obligations.OtherHostWritesStoreTheByte : Prop :=
  ∀ (s : State) (rest : List Action) (a : Nat) (b : Byte), s.actions = .hostWrite a b :: rest →
    (∀ u ∈ s.agents, ∀ op ∈ u.1.op, ∀ o ∈ u.1.offset, ∀ l ∈ u.1.srcLen, u.1.state = .busy → isEncode op = false →
      a < u.2.srcBase + o ∨ u.2.srcBase + l ≤ a) →
    ∃ t, step s = .next t ∧ Memory.read t.mem a = some b ∧
      (∀ a', a' ≠ a → Memory.read t.mem a' = Memory.read s.mem a') ∧ t.blk = s.blk ∧
      t.others.map Prod.fst = s.others.map Prod.fst ∧ t.cursor = s.cursor ∧ t.lastRead = s.lastRead ∧
      t.draws = s.draws ∧ t.actions = rest

/-- R166: a host read of a sink position of a running encode returns a free byte, whatever is in memory; everything but
the reading and the draw counter is unchanged. The form of the draw is the model's choice (log entry 13). Every other
host read returns the byte that is stored, drawing nothing, and stops where none is stored, which is the model's choice
(log entry 5). -/
def Obligations.ReadOfARunningSinkIsFree : Prop :=
  (∀ (s : State) (rest : List Action) (u : Agent) (op : BitVec 2) (rem : Bits128) (k p : Nat), u ∈ s.agents →
    u.1.state = .busy → u.1.op = some op → isEncode op = true → u.1.rem = some rem → u.1.k = some k →
    p < k + (if op.getLsbD 1 then lengthS (sint rem) else lengthU (uint rem)) →
    s.actions = .hostRead (u.2.sinkBase + p) :: rest →
    step s = .next
      { s with actions := rest, lastRead := some (.byte (Config.freeByte s.draws)), draws := s.draws + 1 }) ∧
  ∀ (s : State) (rest : List Action) (a : Nat), s.actions = .hostRead a :: rest →
    (∀ u ∈ s.agents, inRange (sinkRange u) a = false) →
    (∀ b, Memory.read s.mem a = some b → step s = .next { s with actions := rest, lastRead := some (.byte b) }) ∧
    (Memory.read s.mem a = none → step s = .fault .byteAbsent)

/-- R166: a host write to a sink position of any block's running encode leaves that position undetermined after
completion: the write changes no register and makes the position raced; a raced position of a running encode stays
raced, whatever step comes, until a step leaves a byte there that is drawn in that step; the step that completes the
encode does so. The form of the draw is the model's choice, and that a reset draws too (log entries 13, 14). -/
def Obligations.WriteIntoARunningSinkIsFree : Prop :=
  (∀ (s : State) (rest : List Action) (n : Nat) (u : Agent) (op : BitVec 2) (rem : Bits128) (k p : Nat) (b : Byte), s.Inv →
    s.agents[n]? = some u → u.1.state = .busy → u.1.op = some op → isEncode op = true → u.1.rem = some rem →
    u.1.k = some k → p < k + (if op.getLsbD 1 then lengthS (sint rem) else lengthU (uint rem)) →
    s.actions = .hostWrite (u.2.sinkBase + p) b :: rest →
    ∃ t v, step s = .next t ∧ t.agents.map Prod.fst = s.agents.map Prod.fst ∧ t.agents[n]? = some v ∧
      v.2.sinkBase = u.2.sinkBase ∧ u.2.sinkBase + p ∈ v.2.raced) ∧
  (∀ (s t : State) (u : Agent) (a : Nat), s.Inv → u ∈ s.agents → u.1.state = .busy → a ∈ u.2.raced → step s = .next t →
    (∃ v ∈ t.agents, v.1.state = .busy ∧ v.1.op = u.1.op ∧ v.2.sinkBase = u.2.sinkBase ∧ a ∈ v.2.raced) ∨
      ∃ n, s.draws ≤ n ∧ n < t.draws ∧ Memory.read t.mem a = some (Config.freeByte n)) ∧
  ∀ (s t : State) (op : BitVec 2) (a : Nat), s.blk.state = .busy → s.blk.op = some op → isEncode op = true →
    a ∈ s.port.raced → blockTurn s = .next t →
    (t.blk.state = .busy → a ∈ t.port.raced) ∧
    (t.blk.state = .idle → ∃ n, s.draws ≤ n ∧ n < t.draws ∧ Memory.read t.mem a = some (Config.freeByte n))

/-! ## More than one block -/

/-- R149: a step done at one block changes no register of another, whether an action is left or not. The two actions by
which the host addresses blocks are the model's choice: `select` makes two blocks change places with their ports, with
noSuchBlock beyond the list (log entry 3), and so does the turn that comes when no action is left and the selected block
is IDLE (log entry 6); `place` moves the two bases of the selected block while IDLE and nothing else, and is refused
while BUSY (log entry 4). -/
def Obligations.BlocksShareNoState : Prop :=
  (∀ (s t : State) (a : Action) (rest : List Action), s.actions = a :: rest → (∀ n, a ≠ .select n) →
    step s = .next t → t.others.map Prod.fst = s.others.map Prod.fst) ∧
  (∀ s t : State, s.actions = [] → step s = .next t →
    (s.blk.state = .busy → t.others = s.others) ∧
    (s.blk.state = .idle → t.agents.Perm s.agents ∧ t.mem = s.mem ∧ t.draws = s.draws)) ∧
  (∀ (s : State) (n : Nat) (rest : List Action), s.actions = .select n :: rest →
    (∀ u, s.others[n]? = some u → step s = .next
      { s with actions := rest, blk := u.1, port := u.2, others := s.others.set n (s.blk, s.port) }) ∧
    (s.others.length ≤ n → step s = .refused .noSuchBlock)) ∧
  ∀ (s : State) (src sink : Nat) (rest : List Action), s.actions = .place src sink :: rest →
    (s.blk.state = .idle → step s = .next
      { s with actions := rest, port := { s.port with srcBase := src, sinkBase := sink } }) ∧
    (s.blk.state = .busy → step s = .refused .placeWhileBusy)

/-- R167: a command whose sink would overlap the source range of another block's running decode, or whose source range
would overlap the sink of another block's running encode, is SOURCE_RACE. -/
def Obligations.OverlappingByteSpacesFault : Prop :=
  ∀ (s : State) (i : Instr) (u : Agent) (a : Nat), s.blk.state = .idle → i.wellFormed s.usizeBits → u ∈ s.others →
    (isEncode i.op = true → s.port.sinkBase ≤ a ∧ a < s.port.sinkBase + encodedLength i ∧
      inRange (sourceRange u) a = true) →
    (isEncode i.op = false → s.port.srcBase + i.offset ≤ a ∧ a < s.port.srcBase + i.srcLen ∧
      inRange (sinkRange u) a = true) →
    exec i s = .fault .sourceRace

/-- R167: two concurrent encodes must not share sink positions (an overlap with a running source, which is SOURCE_RACE,
comes first); which fault this is, is the model's choice (log entry 12). -/
def Obligations.SharedSinkPositionsFault : Prop :=
  ∀ (s : State) (i : Instr) (u : Agent) (a : Nat), s.blk.state = .idle → i.wellFormed s.usizeBits → u ∈ s.others →
    isEncode i.op = true → s.port.sinkBase ≤ a → a < s.port.sinkBase + encodedLength i →
    inRange (sinkRange u) a = true →
    (∀ v ∈ s.others, ∀ x, s.port.sinkBase ≤ x → x < s.port.sinkBase + encodedLength i →
      inRange (sourceRange v) x = false) →
    exec i s = .fault .sinkShared

/-! ## Host statements -/

/-- R81: `ENCU v` and `ENCS v` put the encoding of v at BUF[c ..] and advance c by its length; every other byte is
unchanged. That BUF[0] is host address 0 is the model's choice (log entry 28). -/
def Obligations.EncodeStatementsPackAtTheCursor : Prop :=
  ∀ (s : State) (rest : List Action) (signed : Bool) (v : Int),
    let bs := if signed then encodingS (bv v) else encodingU (bv v)
    s.actions = .statement (if signed then .encs v else .encu v) :: rest →
    (if signed then -2 ^ 127 ≤ v ∧ v ≤ 2 ^ 127 - 1 else 0 ≤ v ∧ v ≤ 2 ^ 128 - 1) → s.blk.state = .idle →
    s.sinkUnshared s.cursor.toNat bs.length → 0 ≤ s.cursor → s.cursor + bs.length ≤ s.bufLen →
    ∃ t, step s = .next t ∧ t.cursor = s.cursor + bs.length ∧ t.blk.count = some bs.length ∧ t.blk.err = 0 ∧
      t.blk.state = .idle ∧ (∀ (k : Nat) (b : Byte), bs[k]? = some b → Memory.read t.mem (s.cursor.toNat + k) = some b) ∧
      (∀ a, (a < s.cursor.toNat ∨ s.cursor.toNat + bs.length ≤ a) → Memory.read t.mem a = Memory.read s.mem a) ∧
      t.actions = rest ∧ t.others = s.others ∧ t.bufLen = s.bufLen

/-- R81: `DECU c` and `DECS c` decode BUF from the cursor and, if ERR = 0, advance it by COUNT; `DECU o` and `DECS o`
leave it. That BUF[0] is host address 0 is the model's choice (log entry 28). -/
def Obligations.DecodeStatementsReadTheBuffer : Prop :=
  ∀ (s t : State) (rest : List Action) (signed : Bool) (o : Nat),
    exec (decodeOf signed o s.bufLen)
      { s with actions := rest, port := { s.port with srcBase := 0, sinkBase := s.cursor.toNat } } = .next t →
    (s.actions = .statement (if signed then .decs o else .decu o) :: rest → step s = .next t) ∧
    (s.actions = .statement (if signed then .decsCursor else .decuCursor) :: rest → s.cursor = o →
      (∀ n, t.blk.err = 0 → t.blk.count = some n → step s = .next { t with cursor := o + n }) ∧
      (t.blk.err ≠ 0 → step s = .next t))

/-- R81: the assembler refuses a value or an offset out of range, and an encode that would write outside BUF. That the
cursor of `DECU c` and `DECS c` meets the offset's range, and that a refusal comes when its line's turn comes, are the
model's choice (log entries 10, 29). -/
def Obligations.AssemblerRefusesBadStatements : Prop :=
  ∀ (s : State) (rest : List Action) (x : Int),
    (s.actions = .statement (.encu x) :: rest → ¬(0 ≤ x ∧ x ≤ 2 ^ 128 - 1) → step s = .refused .statementOutOfRange) ∧
    (s.actions = .statement (.encs x) :: rest → ¬(-2 ^ 127 ≤ x ∧ x ≤ 2 ^ 127 - 1) →
      step s = .refused .statementOutOfRange) ∧
    (s.actions = .statement (.decu x) :: rest → ¬(0 ≤ x ∧ x ≤ 2 ^ s.usizeBits - 1) →
      step s = .refused .statementOutOfRange) ∧
    (s.actions = .statement (.decs x) :: rest → ¬(0 ≤ x ∧ x ≤ 2 ^ s.usizeBits - 1) →
      step s = .refused .statementOutOfRange) ∧
    (s.actions = .statement .decuCursor :: rest → ¬(0 ≤ s.cursor ∧ s.cursor ≤ 2 ^ s.usizeBits - 1) →
      step s = .refused .statementOutOfRange) ∧
    (s.actions = .statement .decsCursor :: rest → ¬(0 ≤ s.cursor ∧ s.cursor ≤ 2 ^ s.usizeBits - 1) →
      step s = .refused .statementOutOfRange) ∧
    (s.actions = .statement (.encu x) :: rest → s.blk.state = .idle → 0 ≤ x → x ≤ 2 ^ 128 - 1 →
      (s.bufLen < s.cursor + lengthU x.toNat ∨ s.cursor < 0) → step s = .refused .sinkOutsideBuffer) ∧
    (s.actions = .statement (.encs x) :: rest → s.blk.state = .idle → -2 ^ 127 ≤ x → x ≤ 2 ^ 127 - 1 →
      (s.bufLen < s.cursor + lengthS x ∨ s.cursor < 0) → step s = .refused .sinkOutsideBuffer) ∧
    (s.actions = .statement (.setc x) :: rest → step s = .next { s with actions := rest, cursor := x })

/-- R82: the binary form of a statement is the START tuple of its command with the unused operands zero, and it
decodes to that command; the cursor forms take the cursor as the offset, and SETC, which is no block action, has none
(R81). -/
def Obligations.BinaryFormIsTheStartTuple : Prop :=
  ∀ (s : State) (v : Int) (o : Nat), o < 2 ^ s.usizeBits → s.bufLen < 2 ^ s.usizeBits →
    (0 ≤ v → v ≤ 2 ^ 128 - 1 →
      (binaryForm s (.encu v)).map (decode s.usizeBits) = some (.ok (.encu (bv v) 0 0))) ∧
    (-2 ^ 127 ≤ v → v ≤ 2 ^ 127 - 1 →
      (binaryForm s (.encs v)).map (decode s.usizeBits) = some (.ok (.encs (bv v) 0 0))) ∧
    (binaryForm s (.decu o)).map (decode s.usizeBits) = some (.ok (.decu 0 o s.bufLen)) ∧
    (binaryForm s (.decs o)).map (decode s.usizeBits) = some (.ok (.decs 0 o s.bufLen)) ∧
    (s.cursor = o →
      (binaryForm s .decuCursor).map (decode s.usizeBits) = some (.ok (.decu 0 o s.bufLen)) ∧
      (binaryForm s .decsCursor).map (decode s.usizeBits) = some (.ok (.decs 0 o s.bufLen))) ∧
    ∀ n, binaryForm s (.setc n) = none

/-- R81: an optional label before a statement and an optional comment after it change nothing. What a label is, is the
model's choice (log entry 27). -/
def Obligations.LabelsAndCommentsChangeNothing : Prop :=
  ∀ label body comment : List Char, isLabel label = true → (∀ c ∈ label, c ≠ ':' ∧ c ≠ ';') →
    (∀ c ∈ body, c ≠ ':' ∧ c ≠ ';') →
    lineText body = statementText body ∧ lineText (label ++ ':' :: body) = statementText body ∧
    lineText (body ++ ';' :: comment) = statementText body ∧
    lineText (label ++ ':' :: (body ++ ';' :: comment)) = statementText body
end

