-- ==== Sys2Proof/Laws/State.lean ====
section
/-! SUPPORT. Laws/State.lean: every field after every update of one field, and the registers after the shared
register operations. -/

namespace Sys2Proof.Machine

variable (s : State)

/-! ### withBlk -/

@[simp] theorem State.withBlk_usizeBits (b : Block) : (s.withBlk b).usizeBits = s.usizeBits := rfl
@[simp] theorem State.withBlk_blk (b : Block) : (s.withBlk b).blk = b := rfl
@[simp] theorem State.withBlk_port (b : Block) : (s.withBlk b).port = s.port := rfl
@[simp] theorem State.withBlk_others (b : Block) : (s.withBlk b).others = s.others := rfl
@[simp] theorem State.withBlk_mem (b : Block) : (s.withBlk b).mem = s.mem := rfl
@[simp] theorem State.withBlk_bufLen (b : Block) : (s.withBlk b).bufLen = s.bufLen := rfl
@[simp] theorem State.withBlk_cursor (b : Block) : (s.withBlk b).cursor = s.cursor := rfl
@[simp] theorem State.withBlk_actions (b : Block) : (s.withBlk b).actions = s.actions := rfl
@[simp] theorem State.withBlk_lastRead (b : Block) : (s.withBlk b).lastRead = s.lastRead := rfl
@[simp] theorem State.withBlk_draws (b : Block) : (s.withBlk b).draws = s.draws := rfl

/-! ### withPort -/

@[simp] theorem State.withPort_usizeBits (p : Port) : (s.withPort p).usizeBits = s.usizeBits := rfl
@[simp] theorem State.withPort_blk (p : Port) : (s.withPort p).blk = s.blk := rfl
@[simp] theorem State.withPort_port (p : Port) : (s.withPort p).port = p := rfl
@[simp] theorem State.withPort_others (p : Port) : (s.withPort p).others = s.others := rfl
@[simp] theorem State.withPort_mem (p : Port) : (s.withPort p).mem = s.mem := rfl
@[simp] theorem State.withPort_bufLen (p : Port) : (s.withPort p).bufLen = s.bufLen := rfl
@[simp] theorem State.withPort_cursor (p : Port) : (s.withPort p).cursor = s.cursor := rfl
@[simp] theorem State.withPort_actions (p : Port) : (s.withPort p).actions = s.actions := rfl
@[simp] theorem State.withPort_lastRead (p : Port) : (s.withPort p).lastRead = s.lastRead := rfl
@[simp] theorem State.withPort_draws (p : Port) : (s.withPort p).draws = s.draws := rfl

/-! ### withOthers -/

@[simp] theorem State.withOthers_usizeBits (o : List Agent) : (s.withOthers o).usizeBits = s.usizeBits := rfl
@[simp] theorem State.withOthers_blk (o : List Agent) : (s.withOthers o).blk = s.blk := rfl
@[simp] theorem State.withOthers_port (o : List Agent) : (s.withOthers o).port = s.port := rfl
@[simp] theorem State.withOthers_others (o : List Agent) : (s.withOthers o).others = o := rfl
@[simp] theorem State.withOthers_mem (o : List Agent) : (s.withOthers o).mem = s.mem := rfl
@[simp] theorem State.withOthers_bufLen (o : List Agent) : (s.withOthers o).bufLen = s.bufLen := rfl
@[simp] theorem State.withOthers_cursor (o : List Agent) : (s.withOthers o).cursor = s.cursor := rfl
@[simp] theorem State.withOthers_actions (o : List Agent) : (s.withOthers o).actions = s.actions := rfl
@[simp] theorem State.withOthers_lastRead (o : List Agent) : (s.withOthers o).lastRead = s.lastRead := rfl
@[simp] theorem State.withOthers_draws (o : List Agent) : (s.withOthers o).draws = s.draws := rfl

/-! ### withMem -/

@[simp] theorem State.withMem_usizeBits (m : List Host.Cell) : (s.withMem m).usizeBits = s.usizeBits := rfl
@[simp] theorem State.withMem_blk (m : List Host.Cell) : (s.withMem m).blk = s.blk := rfl
@[simp] theorem State.withMem_port (m : List Host.Cell) : (s.withMem m).port = s.port := rfl
@[simp] theorem State.withMem_others (m : List Host.Cell) : (s.withMem m).others = s.others := rfl
@[simp] theorem State.withMem_mem (m : List Host.Cell) : (s.withMem m).mem = m := rfl
@[simp] theorem State.withMem_bufLen (m : List Host.Cell) : (s.withMem m).bufLen = s.bufLen := rfl
@[simp] theorem State.withMem_cursor (m : List Host.Cell) : (s.withMem m).cursor = s.cursor := rfl
@[simp] theorem State.withMem_actions (m : List Host.Cell) : (s.withMem m).actions = s.actions := rfl
@[simp] theorem State.withMem_lastRead (m : List Host.Cell) : (s.withMem m).lastRead = s.lastRead := rfl
@[simp] theorem State.withMem_draws (m : List Host.Cell) : (s.withMem m).draws = s.draws := rfl

/-! ### withCursor -/

@[simp] theorem State.withCursor_usizeBits (c : Int) : (s.withCursor c).usizeBits = s.usizeBits := rfl
@[simp] theorem State.withCursor_blk (c : Int) : (s.withCursor c).blk = s.blk := rfl
@[simp] theorem State.withCursor_port (c : Int) : (s.withCursor c).port = s.port := rfl
@[simp] theorem State.withCursor_others (c : Int) : (s.withCursor c).others = s.others := rfl
@[simp] theorem State.withCursor_mem (c : Int) : (s.withCursor c).mem = s.mem := rfl
@[simp] theorem State.withCursor_bufLen (c : Int) : (s.withCursor c).bufLen = s.bufLen := rfl
@[simp] theorem State.withCursor_cursor (c : Int) : (s.withCursor c).cursor = c := rfl
@[simp] theorem State.withCursor_actions (c : Int) : (s.withCursor c).actions = s.actions := rfl
@[simp] theorem State.withCursor_lastRead (c : Int) : (s.withCursor c).lastRead = s.lastRead := rfl
@[simp] theorem State.withCursor_draws (c : Int) : (s.withCursor c).draws = s.draws := rfl

/-! ### withActions -/

@[simp] theorem State.withActions_usizeBits (a : List Action) : (s.withActions a).usizeBits = s.usizeBits := rfl
@[simp] theorem State.withActions_blk (a : List Action) : (s.withActions a).blk = s.blk := rfl
@[simp] theorem State.withActions_port (a : List Action) : (s.withActions a).port = s.port := rfl
@[simp] theorem State.withActions_others (a : List Action) : (s.withActions a).others = s.others := rfl
@[simp] theorem State.withActions_mem (a : List Action) : (s.withActions a).mem = s.mem := rfl
@[simp] theorem State.withActions_bufLen (a : List Action) : (s.withActions a).bufLen = s.bufLen := rfl
@[simp] theorem State.withActions_cursor (a : List Action) : (s.withActions a).cursor = s.cursor := rfl
@[simp] theorem State.withActions_actions (a : List Action) : (s.withActions a).actions = a := rfl
@[simp] theorem State.withActions_lastRead (a : List Action) : (s.withActions a).lastRead = s.lastRead := rfl
@[simp] theorem State.withActions_draws (a : List Action) : (s.withActions a).draws = s.draws := rfl

/-! ### withReading -/

@[simp] theorem State.withReading_usizeBits (r : Reading) : (s.withReading r).usizeBits = s.usizeBits := rfl
@[simp] theorem State.withReading_blk (r : Reading) : (s.withReading r).blk = s.blk := rfl
@[simp] theorem State.withReading_port (r : Reading) : (s.withReading r).port = s.port := rfl
@[simp] theorem State.withReading_others (r : Reading) : (s.withReading r).others = s.others := rfl
@[simp] theorem State.withReading_mem (r : Reading) : (s.withReading r).mem = s.mem := rfl
@[simp] theorem State.withReading_bufLen (r : Reading) : (s.withReading r).bufLen = s.bufLen := rfl
@[simp] theorem State.withReading_cursor (r : Reading) : (s.withReading r).cursor = s.cursor := rfl
@[simp] theorem State.withReading_actions (r : Reading) : (s.withReading r).actions = s.actions := rfl
@[simp] theorem State.withReading_lastRead (r : Reading) : (s.withReading r).lastRead = some r := rfl
@[simp] theorem State.withReading_draws (r : Reading) : (s.withReading r).draws = s.draws := rfl

/-! ### withDraws -/

@[simp] theorem State.withDraws_usizeBits (n : Nat) : (s.withDraws n).usizeBits = s.usizeBits := rfl
@[simp] theorem State.withDraws_blk (n : Nat) : (s.withDraws n).blk = s.blk := rfl
@[simp] theorem State.withDraws_port (n : Nat) : (s.withDraws n).port = s.port := rfl
@[simp] theorem State.withDraws_others (n : Nat) : (s.withDraws n).others = s.others := rfl
@[simp] theorem State.withDraws_mem (n : Nat) : (s.withDraws n).mem = s.mem := rfl
@[simp] theorem State.withDraws_bufLen (n : Nat) : (s.withDraws n).bufLen = s.bufLen := rfl
@[simp] theorem State.withDraws_cursor (n : Nat) : (s.withDraws n).cursor = s.cursor := rfl
@[simp] theorem State.withDraws_actions (n : Nat) : (s.withDraws n).actions = s.actions := rfl
@[simp] theorem State.withDraws_lastRead (n : Nat) : (s.withDraws n).lastRead = s.lastRead := rfl
@[simp] theorem State.withDraws_draws (n : Nat) : (s.withDraws n).draws = n := rfl

/-! ### Registers after START, finishOK, raise -/

@[simp] theorem Block.started_op (op : BitVec 2) (v : Bits128) (o l : Nat) : (Block.started op v o l).op = some op := rfl
@[simp] theorem Block.started_offset (op : BitVec 2) (v : Bits128) (o l : Nat) : (Block.started op v o l).offset = some o := rfl
@[simp] theorem Block.started_srcLen (op : BitVec 2) (v : Bits128) (o l : Nat) : (Block.started op v o l).srcLen = some l := rfl
@[simp] theorem Block.started_vout (op : BitVec 2) (v : Bits128) (o l : Nat) : (Block.started op v o l).vout = none := rfl
@[simp] theorem Block.started_count (op : BitVec 2) (v : Bits128) (o l : Nat) : (Block.started op v o l).count = none := rfl
@[simp] theorem Block.started_state (op : BitVec 2) (v : Bits128) (o l : Nat) : (Block.started op v o l).state = .busy := rfl
@[simp] theorem Block.started_err (op : BitVec 2) (v : Bits128) (o l : Nat) : (Block.started op v o l).err = errOk := rfl
@[simp] theorem Block.started_rem (op : BitVec 2) (v : Bits128) (o l : Nat) : (Block.started op v o l).rem = some v := rfl
@[simp] theorem Block.started_acc (op : BitVec 2) (v : Bits128) (o l : Nat) : (Block.started op v o l).acc = some 0 := rfl
@[simp] theorem Block.started_k (op : BitVec 2) (v : Bits128) (o l : Nat) : (Block.started op v o l).k = some 0 := rfl
@[simp] theorem Block.finished_op (b : Block) (n : Nat) (r : Option Bits128) : (b.finished n r).op = b.op := rfl
@[simp] theorem Block.finished_offset (b : Block) (n : Nat) (r : Option Bits128) : (b.finished n r).offset = b.offset := rfl
@[simp] theorem Block.finished_srcLen (b : Block) (n : Nat) (r : Option Bits128) : (b.finished n r).srcLen = b.srcLen := rfl
@[simp] theorem Block.finished_vout (b : Block) (n : Nat) (r : Option Bits128) : (b.finished n r).vout = r.or b.vout := rfl
@[simp] theorem Block.finished_count (b : Block) (n : Nat) (r : Option Bits128) : (b.finished n r).count = some n := rfl
@[simp] theorem Block.finished_state (b : Block) (n : Nat) (r : Option Bits128) : (b.finished n r).state = .idle := rfl
@[simp] theorem Block.finished_err (b : Block) (n : Nat) (r : Option Bits128) : (b.finished n r).err = errOk := rfl
@[simp] theorem Block.finished_rem (b : Block) (n : Nat) (r : Option Bits128) : (b.finished n r).rem = none := rfl
@[simp] theorem Block.finished_acc (b : Block) (n : Nat) (r : Option Bits128) : (b.finished n r).acc = none := rfl
@[simp] theorem Block.finished_k (b : Block) (n : Nat) (r : Option Bits128) : (b.finished n r).k = none := rfl
@[simp] theorem Block.raised_op (b : Block) (e : BitVec 2) : (b.raised e).op = b.op := rfl
@[simp] theorem Block.raised_offset (b : Block) (e : BitVec 2) : (b.raised e).offset = b.offset := rfl
@[simp] theorem Block.raised_srcLen (b : Block) (e : BitVec 2) : (b.raised e).srcLen = b.srcLen := rfl
@[simp] theorem Block.raised_vout (b : Block) (e : BitVec 2) : (b.raised e).vout = b.vout := rfl
@[simp] theorem Block.raised_count (b : Block) (e : BitVec 2) : (b.raised e).count = b.count := rfl
@[simp] theorem Block.raised_state (b : Block) (e : BitVec 2) : (b.raised e).state = .idle := rfl
@[simp] theorem Block.raised_err (b : Block) (e : BitVec 2) : (b.raised e).err = e := rfl
@[simp] theorem Block.raised_rem (b : Block) (e : BitVec 2) : (b.raised e).rem = none := rfl
@[simp] theorem Block.raised_acc (b : Block) (e : BitVec 2) : (b.raised e).acc = none := rfl
@[simp] theorem Block.raised_k (b : Block) (e : BitVec 2) : (b.raised e).k = none := rfl
@[simp] theorem Port.started_srcBase (p : Port) : p.started.srcBase = p.srcBase := rfl
@[simp] theorem Port.started_sinkBase (p : Port) : p.started.sinkBase = p.sinkBase := rfl
@[simp] theorem Port.started_raced (p : Port) : p.started.raced = [] := rfl
@[simp] theorem Port.started_accesses (p : Port) : p.started.accesses = [] := rfl

end Sys2Proof.Machine
end

