-- ==== Sys2Proof/Laws/Decode.lean ====
section
/-! SUPPORT. Laws/Decode.lean: bytes of numbers and back, and the fields of a command. -/

namespace Sys2Proof

@[simp] theorem length_bytesOfNat (n x : Nat) : (bytesOfNat n x).length = n := by
  induction n generalizing x with
  | zero => rfl
  | succ n ih => simp [bytesOfNat, ih]

theorem natOfBytes_bytesOfNat (n x : Nat) : natOfBytes (bytesOfNat n x) = x % 256 ^ n := by
  induction n generalizing x with
  | zero => simp [bytesOfNat, natOfBytes, Nat.mod_one]
  | succ n ih =>
    rw [bytesOfNat, natOfBytes, ih, pow_succ, mul_comm (256 ^ n) 256, Nat.mod_mul]
    simp

theorem bytesOfNat_natOfBytes (bs : List Byte) : bytesOfNat bs.length (natOfBytes bs) = bs := by
  induction bs with
  | nil => rfl
  | cons b bs ih =>
    have hb := b.isLt
    rw [List.length_cons, bytesOfNat, natOfBytes, show (b.toNat + 256 * natOfBytes bs) / 256 = natOfBytes bs by omega, ih]
    congr 1
    apply BitVec.eq_of_toNat_eq
    simp [Nat.mod_eq_of_lt hb]

@[simp] theorem commandOf_op (op : BitVec 2) (v : Bits128) (o l : Nat) : (commandOf op v o l).op = op := by
  have : op = 0 ∨ op = 1 ∨ op = 2 ∨ op = 3 := by revert op; decide
  obtain rfl | rfl | rfl | rfl := this <;> rfl

@[simp] theorem commandOf_vin (op : BitVec 2) (v : Bits128) (o l : Nat) : (commandOf op v o l).vin = v := by
  unfold commandOf; split <;> rfl

@[simp] theorem commandOf_offset (op : BitVec 2) (v : Bits128) (o l : Nat) : (commandOf op v o l).offset = o := by
  unfold commandOf; split <;> rfl

@[simp] theorem commandOf_srcLen (op : BitVec 2) (v : Bits128) (o l : Nat) : (commandOf op v o l).srcLen = l := by
  unfold commandOf; split <;> rfl

/-- A command is what its fields say. -/
@[simp] theorem commandOf_eta (i : Instr) : commandOf i.op i.vin i.offset i.srcLen = i := by
  cases i <;> simp [commandOf, Instr.op, Instr.vin, Instr.offset, Instr.srcLen]

end Sys2Proof
end

