-- ==== Sys2Proof/Laws/Memory.lean ====
section
/-! SUPPORT. Laws/Memory.lean: reading after writing, and that a write keeps host memory's one form. -/

namespace Sys2Proof.Machine

@[simp] theorem Memory.read_write_same (m : List Host.Cell) (x : Nat) (v : Byte) :
    Memory.read (Memory.write m x v) x = some v := by
  induction m with
  | nil => simp [Memory.write, Memory.read]
  | cons c m ih =>
    obtain ⟨a, b⟩ := c
    by_cases h₁ : x < a
    · simp [Memory.write, Memory.read, h₁]
    · by_cases h₂ : x = a <;> simp [Memory.write, Memory.read, h₁, h₂, ih]

theorem Memory.read_write_other (m : List Host.Cell) {x y : Nat} (v : Byte) (h : y ≠ x) :
    Memory.read (Memory.write m x v) y = Memory.read m y := by
  induction m with
  | nil => simp [Memory.write, Memory.read, h]
  | cons c m ih =>
    obtain ⟨a, b⟩ := c
    by_cases h₁ : x < a
    · simp [Memory.write, Memory.read, h₁, h]
    · by_cases h₂ : x = a
      · subst h₂; simp [Memory.write, Memory.read, h]
      · simp [Memory.write, Memory.read, h₁, h₂, ih]

theorem Memory.read_write (m : List Host.Cell) (x y : Nat) (v : Byte) :
    Memory.read (Memory.write m x v) y = if y = x then some v else Memory.read m y := by
  by_cases h : y = x
  · simp [h]
  · simp [h, Memory.read_write_other]

theorem Memory.write_above (m : List Host.Cell) {x l : Nat} (v : Byte) (hx : l < x)
    (h : ∀ c ∈ m, l < c.1) : ∀ c ∈ Memory.write m x v, l < c.1 := by
  induction m with
  | nil => simpa [Memory.write] using hx
  | cons d m ih =>
    obtain ⟨a, b⟩ := d
    have ha : l < a := h (a, b) (by simp)
    have hm : ∀ c ∈ m, l < c.1 := fun c hc => h c (by simp [hc])
    intro c hc
    by_cases h₁ : x < a
    · simp only [Memory.write, h₁, if_true, List.mem_cons] at hc
      obtain rfl | rfl | hc := hc
      exacts [hx, ha, hm c hc]
    · by_cases h₂ : x = a
      · simp only [Memory.write, h₂, if_true, if_false, lt_irrefl, List.mem_cons] at hc
        obtain rfl | hc := hc
        exacts [ha, hm c hc]
      · simp only [Memory.write, h₁, h₂, if_false, List.mem_cons] at hc
        obtain rfl | hc := hc
        exacts [ha, ih hm c hc]

theorem Memory.write_wf (m : List Host.Cell) (x : Nat) (v : Byte) (h : Memory.wf m) :
    Memory.wf (Memory.write m x v) := by
  induction m with
  | nil => simp [Memory.write]
  | cons c m ih =>
    obtain ⟨a, b⟩ := c
    obtain ⟨ha, hm⟩ := List.pairwise_cons.1 h
    by_cases h₁ : x < a
    · simp only [Memory.write, h₁, if_true]
      refine List.pairwise_cons.2 ⟨fun c hc => ?_, h⟩
      obtain rfl | hc := List.mem_cons.1 hc
      · exact h₁
      · exact lt_trans h₁ (ha c hc)
    · by_cases h₂ : x = a
      · simp only [Memory.write, h₂, lt_irrefl, if_true, if_false]
        exact List.pairwise_cons.2 ⟨ha, hm⟩
      · simp only [Memory.write, h₁, h₂, if_false]
        exact List.pairwise_cons.2 ⟨Memory.write_above m v (by simp; omega) ha, ih hm⟩

theorem Memory.writeAll_wf (bs : List Byte) : ∀ (m : List Host.Cell) (x : Nat), Memory.wf m →
    Memory.wf (Memory.writeAll m x bs) := by
  induction bs with
  | nil => exact fun m x h => h
  | cons b bs ih => exact fun m x h => ih _ _ (Memory.write_wf m x b h)

/-- A byte outside the stored bytes reads as before. -/
theorem Memory.read_writeAll_outside (bs : List Byte) : ∀ (m : List Host.Cell) (x y : Nat),
    (y < x ∨ x + bs.length ≤ y) → Memory.read (Memory.writeAll m x bs) y = Memory.read m y := by
  induction bs with
  | nil => exact fun m x y h => rfl
  | cons b bs ih =>
    intro m x y h
    simp only [List.length_cons] at h
    rw [Memory.writeAll, ih _ _ _ (by omega), Memory.read_write_other _ _ (by omega)]

/-- Each stored byte is read back. -/
theorem Memory.read_writeAll_inside (bs : List Byte) : ∀ (m : List Host.Cell) (x k : Nat) (h : k < bs.length),
    Memory.read (Memory.writeAll m x bs) (x + k) = some bs[k] := by
  induction bs with
  | nil => intro m x k h; simp at h
  | cons b bs ih =>
    intro m x k h
    cases k with
    | zero =>
      rw [Memory.writeAll, Memory.read_writeAll_outside _ _ _ _ (by omega)]; simp
    | succ k =>
      rw [Memory.writeAll, show x + (k + 1) = x + 1 + k by omega, ih _ _ _ (by simpa using h)]; simp

end Sys2Proof.Machine
end

