-- ==== Sys2Proof/Laws/Wire.lean ====
section
/-! SUPPORT. Laws/Wire.lean: bytes, lengths and denoted values of the wire format. -/

namespace Sys2Proof.Machine

/-! ## Bytes -/

@[simp] theorem continues_wireByte (c : Bool) (p : Payload) : continues (wireByte c p) = c := by
  revert c p; decide +kernel

@[simp] theorem payload_wireByte (c : Bool) (p : Payload) : payload (wireByte c p) = p := by
  revert c p; decide +kernel

theorem wireByte_eta (b : Byte) : wireByte (continues b) (payload b) = b := by
  revert b; decide +kernel

/-! ## Lengths -/

theorem bitlen_le_iff (v n : Nat) : bitlen v ≤ n ↔ v < 2 ^ n := by
  unfold bitlen
  by_cases h : v = 0
  · simp [h]
  · rw [if_neg h, Nat.succ_le_iff, Nat.log2_lt h]

theorem lengthU_pos (v : Nat) : 1 ≤ lengthU v := by unfold lengthU; omega

/-- `n_u(v)` is the least length whose groups hold `v` (R75). -/
theorem lengthU_le_iff (v : Nat) {n : Nat} (hn : 1 ≤ n) : lengthU v ≤ n ↔ v < 2 ^ (7 * n) := by
  rw [← bitlen_le_iff]; unfold lengthU; omega

theorem lengthU_bits (v : Bits128) : lengthU (uint v) ≤ 19 :=
  (lengthU_le_iff _ (by omega)).2 (lt_of_lt_of_le v.isLt (Nat.pow_le_pow_right (by omega) (by omega)))

theorem lengthU_last {v : Nat} (h : v / 128 = 0) : lengthU v = 1 :=
  le_antisymm ((lengthU_le_iff v le_rfl).2 (by omega)) (lengthU_pos v)

theorem lengthU_more {v : Nat} (h : v / 128 ≠ 0) : lengthU v = lengthU (v / 128) + 1 := by
  have key (n : Nat) (hn : 1 ≤ n) : lengthU v ≤ n + 1 ↔ lengthU (v / 128) ≤ n := by
    rw [lengthU_le_iff v (by omega), lengthU_le_iff _ hn, Nat.div_lt_iff_lt_mul (by omega),
      show 7 * (n + 1) = 7 * n + 7 by ring, pow_add]
    norm_num
  have h1 := (key _ (lengthU_pos (v / 128))).2 le_rfl
  have h2 : ¬ lengthU v ≤ 1 := by rw [lengthU_le_iff v le_rfl]; omega
  have h3 := (key (lengthU v - 1) (by omega)).1 (by omega)
  omega

theorem lengthS_pos (v : Int) : 1 ≤ lengthS v := by unfold lengthS; omega

/-- `n_s(v)` is the least length whose range holds `v` (R76). -/
theorem lengthS_le_iff (v : Int) {n : Nat} (hn : 1 ≤ n) :
    lengthS v ≤ n ↔ -2 ^ (7 * n - 1) ≤ v ∧ v < 2 ^ (7 * n - 1) := by
  have h1 : lengthS v ≤ n ↔ bitlen (if v < 0 then (-v - 1).toNat else v.toNat) ≤ 7 * n - 1 := by
    unfold lengthS; omega
  rw [h1, bitlen_le_iff]
  have h2 : ((2 ^ (7 * n - 1) : Nat) : Int) = 2 ^ (7 * n - 1) := by push_cast; rfl
  rw [← h2]
  generalize 2 ^ (7 * n - 1) = q
  split <;> omega

theorem lengthS_bits (v : Bits128) : lengthS (sint v) ≤ 19 := by
  rw [lengthS_le_iff _ (by omega)]
  have h1 := BitVec.le_toInt v
  have h2 := BitVec.toInt_lt (x := v)
  simp only [sint]
  norm_num at h1 h2 ⊢
  omega

theorem lengthS_last {v : Int} (h : -64 ≤ v ∧ v < 64) : lengthS v = 1 :=
  le_antisymm ((lengthS_le_iff v le_rfl).2 (by norm_num; exact h)) (lengthS_pos v)

theorem lengthS_more {v : Int} (h : ¬(-64 ≤ v ∧ v < 64)) : lengthS v = lengthS (v / 128) + 1 := by
  have key (n : Nat) (hn : 1 ≤ n) : lengthS v ≤ n + 1 ↔ lengthS (v / 128) ≤ n := by
    rw [lengthS_le_iff v (by omega), lengthS_le_iff _ hn,
      show 7 * (n + 1) - 1 = (7 * n - 1) + 7 by omega, pow_add]
    generalize (2 : Int) ^ (7 * n - 1) = q
    norm_num
    omega
  have h1 := (key _ (lengthS_pos (v / 128))).2 le_rfl
  have h2 : ¬ lengthS v ≤ 1 := by
    rw [lengthS_le_iff v le_rfl]; norm_num; omega
  have h3 := (key (lengthS v - 1) (by omega)).1 (by omega)
  omega

/-! ## What the encoders' tests mean -/

theorem uint_shiftUnsigned (v : Bits128) : uint (shiftUnsigned v) = uint v / 128 := by
  simp [shiftUnsigned, uint, Nat.shiftRight_eq_div_pow]

theorem sint_shiftSigned (v : Bits128) : sint (shiftSigned v) = sint v / 128 := by
  simp [shiftSigned, sint, BitVec.toInt_sshiftRight, Int.shiftRight_eq_div_pow]

theorem moreUnsigned_iff (p : Payload) (v : Bits128) : moreUnsigned p (shiftUnsigned v) = true ↔ uint v / 128 ≠ 0 := by
  rw [← uint_shiftUnsigned]
  simp [moreUnsigned, uint, BitVec.toNat_eq]

/-- Bit 6 of the low group, as a remainder. -/
theorem lowGroup_sign (v : Bits128) : (lowGroup v).getLsbD 6 = true ↔ 64 ≤ sint v % 128 := by
  have h : (lowGroup v).getLsbD 6 = decide (v.toNat / 2 ^ 6 % 2 = 1) := by
    simp only [lowGroup, BitVec.getLsbD, BitVec.toNat_setWidth, Nat.testBit_eq_decide_div_mod_eq, decide_eq_decide]
    omega
  rw [h, decide_eq_true_eq, sint, BitVec.toInt_eq_toNat_cond]
  have := v.isLt
  split <;> omega

theorem shiftSigned_eq_zero (v : Bits128) : shiftSigned v = 0 ↔ 0 ≤ sint v ∧ sint v < 128 := by
  rw [← BitVec.toInt_inj, show (shiftSigned v).toInt = sint v / 128 from sint_shiftSigned v]
  simp only [BitVec.ofNat_eq_ofNat, BitVec.toInt_zero]
  omega

theorem shiftSigned_eq_ones (v : Bits128) : shiftSigned v = ones128 ↔ -128 ≤ sint v ∧ sint v < 0 := by
  rw [← BitVec.toInt_inj, show (shiftSigned v).toInt = sint v / 128 from sint_shiftSigned v,
    show ones128.toInt = -1 by decide]
  omega

/-- R121: the termination test holds exactly when the payload's seven bits hold the remaining value. -/
theorem moreSigned_iff (v : Bits128) :
    moreSigned (lowGroup v) (shiftSigned v) = true ↔ ¬(-64 ≤ sint v ∧ sint v < 64) := by
  have h0 := shiftSigned_eq_zero v
  have h1 := shiftSigned_eq_ones v
  have h2 := lowGroup_sign v
  cases hb : (lowGroup v).getLsbD 6 <;> rw [hb] at h2 <;>
    simp only [moreSigned, hb, Bool.not_false, Bool.not_true, Bool.and_true, Bool.and_false, Bool.or_false,
      Bool.false_or, Bool.not_eq_true', beq_eq_false_iff_ne, ne_eq, h0, h1] <;>
    simp at h2 <;> omega

/-! ## The encodings, one byte at a time -/

theorem encodingU_last {v : Bits128} (h : moreUnsigned (lowGroup v) (shiftUnsigned v) = false) :
    encodingU v = [wireByte false (lowGroup v)] := by
  have h' : uint v / 128 = 0 := by
    by_contra hc; rw [(moreUnsigned_iff _ v).2 hc] at h; simp at h
  simp [encodingU, lengthU_last h', wireU, lowGroup]

theorem encodingU_more {v : Bits128} (h : moreUnsigned (lowGroup v) (shiftUnsigned v) = true) :
    encodingU v = wireByte true (lowGroup v) :: encodingU (shiftUnsigned v) := by
  have h' := (moreUnsigned_iff _ v).1 h
  have hp := lengthU_pos (uint (shiftUnsigned v))
  rw [encodingU, lengthU_more h', ← uint_shiftUnsigned, encodingU, List.range_succ_eq_map, List.map_cons, List.map_map]
  congr 1
  · simp only [wireU, lowGroup]
    congr 1
    simp; omega
  · refine List.map_congr_left fun k hk => ?_
    simp only [Function.comp, wireU, Nat.succ_eq_add_one]
    rw [shiftUnsigned, ← BitVec.shiftRight_add, show 7 * (k + 1) = 7 + 7 * k by ring]
    congr 1
    simp; omega

theorem encodingS_last {v : Bits128} (h : moreSigned (lowGroup v) (shiftSigned v) = false) :
    encodingS v = [wireByte false (lowGroup v)] := by
  have h' : -64 ≤ sint v ∧ sint v < 64 := by
    by_contra hc; rw [(moreSigned_iff v).2 hc] at h; simp at h
  simp [encodingS, lengthS_last h', wireS, lowGroup]

theorem sshiftRight_add_seven (v : Bits128) (n : Nat) : (v.sshiftRight 7).sshiftRight n = v.sshiftRight (7 + n) := by
  apply BitVec.eq_of_toInt_eq
  simp [BitVec.toInt_sshiftRight, Int.shiftRight_add]

theorem encodingS_more {v : Bits128} (h : moreSigned (lowGroup v) (shiftSigned v) = true) :
    encodingS v = wireByte true (lowGroup v) :: encodingS (shiftSigned v) := by
  have h' := (moreSigned_iff v).1 h
  have hp := lengthS_pos (sint (shiftSigned v))
  rw [encodingS, lengthS_more h', ← sint_shiftSigned, encodingS, List.range_succ_eq_map, List.map_cons, List.map_map]
  congr 1
  · simp only [wireS, lowGroup]
    congr 1
    simp
  · refine List.map_congr_left fun k hk => ?_
    simp only [Function.comp, wireS, Nat.succ_eq_add_one]
    rw [shiftSigned, sshiftRight_add_seven, show 7 * (k + 1) = 7 + 7 * k by ring]
    congr 1
    simp; omega

@[simp] theorem encodingU_length (v : Bits128) : (encodingU v).length = lengthU (uint v) := by simp [encodingU]

@[simp] theorem encodingS_length (v : Bits128) : (encodingS v).length = lengthS (sint v) := by simp [encodingS]

end Sys2Proof.Machine
end

