-- ==== Sys2Proof/Laws/Ops.lean ====
section
/-! SUPPORT. Laws/Ops.lean: what each shared operation can do, said once: outcomes, START, one encoder step, one decoder
step, the settling of raced positions. -/

namespace Sys2Proof.Machine

/-! ## Outcomes -/

@[simp] theorem andThen_next (s : State) (f : State → Result) : andThen (.next s) f = f s := rfl
@[simp] theorem andThen_fault (e : Fault) (f : State → Result) : andThen (.fault e) f = .fault e := rfl
@[simp] theorem andThen_refused (e : Refusal) (f : State → Result) : andThen (.refused e) f = .refused e := rfl

theorem andThen_eq_next {r : Result} {f : State → Result} {t : State} :
    andThen r f = .next t ↔ ∃ s, r = .next s ∧ f s = .next t := by
  cases r <;> simp

theorem andThen_assoc (r : Result) (f g : State → Result) :
    andThen (andThen r f) g = andThen r fun s => andThen (f s) g := by
  cases r <;> rfl

/-! ## START -/

/-- START answers a next state exactly when the block is IDLE and nothing aliases; the state is this one (R34). -/
theorem start_eq_next {op : BitVec 2} {v : Bits128} {o l : Nat} {s t : State} :
    start op v o l s = .next t ↔ s.blk.state = .idle ∧
      aliasFault (Block.started op v o l, s.port.started) s.others = none ∧
      t = (s.withBlk (Block.started op v o l)).withPort s.port.started := by
  unfold start
  cases hs : s.blk.state
  · cases ha : aliasFault (Block.started op v o l, s.port.started) s.others <;> simp [eq_comm]
  · simp

theorem start_busy {op : BitVec 2} {v : Bits128} {o l : Nat} {s : State} (h : s.blk.state = .busy) :
    start op v o l s = .fault .hostBusy := by
  simp [start, h]

theorem issue_eq_next {op : BitVec 2} {v : Bits128} {o l : Nat} {s t : State} :
    issue op v o l s = .next t ↔ (o < 2 ^ s.usizeBits ∧ l < 2 ^ s.usizeBits) ∧ start op v o l s = .next t := by
  unfold issue
  split <;> simp_all

/-! ## Raced positions -/

/-- Settling touches memory and the draw counter only. -/
theorem drawRaced_eq (as : List Nat) (s : State) :
    drawRaced as s = (s.withMem (drawRaced as s).mem).withDraws (drawRaced as s).draws := by
  induction as generalizing s with
  | nil => rfl
  | cons a as ih => rw [drawRaced, ih]; rfl

theorem drawRaced_draws (as : List Nat) (s : State) : (drawRaced as s).draws = s.draws + as.length := by
  induction as generalizing s with
  | nil => rfl
  | cons a as ih => rw [drawRaced, ih]; simp; omega

theorem drawRaced_wf (as : List Nat) (s : State) (h : Memory.wf s.mem) : Memory.wf (drawRaced as s).mem := by
  induction as generalizing s with
  | nil => exact h
  | cons a as ih => exact ih _ (Memory.write_wf _ _ _ h)

/-- A position that is not raced keeps its byte. -/
theorem drawRaced_read_other (as : List Nat) (s : State) {x : Nat} (h : x ∉ as) :
    Memory.read (drawRaced as s).mem x = Memory.read s.mem x := by
  induction as generalizing s with
  | nil => rfl
  | cons a as ih =>
    rw [drawRaced, ih _ (fun hx => h (by simp [hx]))]
    exact Memory.read_write_other _ _ (fun hx => h (by simp [hx]))

/-- A raced position holds a byte drawn now (R166). -/
theorem drawRaced_read_raced (as : List Nat) (s : State) {x : Nat} (h : x ∈ as) :
    ∃ n, s.draws ≤ n ∧ n < (drawRaced as s).draws ∧
      Memory.read (drawRaced as s).mem x = some (Config.freeByte n) := by
  induction as generalizing s with
  | nil => simp at h
  | cons a as ih =>
    rw [drawRaced]
    by_cases hx : x ∈ as
    · obtain ⟨n, h₁, h₂, h₃⟩ := ih ((s.withMem (Memory.write s.mem a (Config.freeByte s.draws))).withDraws (s.draws + 1)) hx
      exact ⟨n, by simp at h₁; omega, h₂, h₃⟩
    · obtain rfl : x = a := by simpa [hx] using h
      refine ⟨s.draws, le_rfl, ?_, ?_⟩
      · rw [drawRaced_draws]; simp; omega
      · rw [drawRaced_read_other _ _ hx]; simp

theorem settleRaced_nil {s : State} (h : s.port.raced = []) : settleRaced s = s := by
  cases s with
  | mk w b p o m n c a r d =>
    cases p with
    | mk sb kb ra ac => simp only at h; subst h; rfl

/-! ## One encoder step -/

/-- An encoder step answers exactly this (R100, R120). -/
theorem encoderStep_eq {shift : Bits128 → Bits128} {more : Payload → Bits128 → Bool} {s : State} {rem : Bits128}
    {k : Nat} (hr : s.blk.rem = some rem) (hk : s.blk.k = some k) :
    encoderStep shift more s = .next
      (let t := (memWrite s k (wireByte (more (lowGroup rem) (shift rem)) (lowGroup rem))).withBlk
        { s.blk with rem := some (shift rem), k := some (k + 1) }
       if more (lowGroup rem) (shift rem) then t else finishOK (k + 1) none t) := by
  simp [encoderStep, hr, hk, memWrite]

/-! ## One decoder step -/

section Decoder

variable {overflow : Payload → Nat → Bits128 → Bool} {complete : Bits128 → Payload → Nat → Bits128} {s : State}
  {o l k : Nat} {acc : Bits128} {b : Byte}

/-- The source ends (R103, R145). -/
theorem decoderStep_truncated (ho : s.blk.offset = some o) (hl : s.blk.srcLen = some l) (ha : s.blk.acc = some acc)
    (hk : s.blk.k = some k) (h : l ≤ o + k) :
    decoderStep overflow complete s = .next (raiseError errTruncated s) := by
  simp [decoderStep, ho, hl, ha, hk, sourceIndex, h]

/-- A byte is read: it overflows, or it continues, or it ends the sequence (R103, R123, R145). -/
theorem decoderStep_read (ho : s.blk.offset = some o) (hl : s.blk.srcLen = some l) (ha : s.blk.acc = some acc)
    (hk : s.blk.k = some k) (h : o + k < l) (hb : memRead s (o + k) = some b) :
    decoderStep overflow complete s = .next
      (if overflow (payload b) k acc then raiseError errOverflow (noteRead s (o + k) b)
       else if continues b then (noteRead s (o + k) b).withBlk
         { s.blk with acc := some (accumulate acc (payload b) k), k := some (k + 1) }
       else finishOK (k + 1) (some (complete (accumulate acc (payload b) k) (payload b) (k + 1)))
         ((noteRead s (o + k) b).withBlk
           { s.blk with acc := some (complete (accumulate acc (payload b) k) (payload b) (k + 1)), k := some (k + 1) })) := by
  have h' : ¬ l ≤ o + k := by omega
  simp only [decoderStep, ho, hl, ha, hk, sourceIndex, h', hb, if_false]
  cases overflow (payload b) k acc <;> cases continues b <;> simp [noteRead, ho, hl]

/-- The host has not put the byte there (R162). -/
theorem decoderStep_absent (ho : s.blk.offset = some o) (hl : s.blk.srcLen = some l) (ha : s.blk.acc = some acc)
    (hk : s.blk.k = some k) (h : o + k < l) (hb : memRead s (o + k) = none) :
    decoderStep overflow complete s = .fault .byteAbsent := by
  have h' : ¬ l ≤ o + k := by omega
  simp [decoderStep, ho, hl, ha, hk, sourceIndex, h', hb]

end Decoder

/-! ## Block turns -/

@[simp] theorem blockTurns_zero (s : State) : blockTurns 0 s = .next s := rfl
theorem blockTurns_succ (n : Nat) (s : State) : blockTurns (n + 1) s = andThen (blockTurn s) (blockTurns n) := rfl

theorem blockTurns_add (m n : Nat) (s : State) :
    blockTurns (m + n) s = andThen (blockTurns m s) (blockTurns n) := by
  induction m generalizing s with
  | zero => simp
  | succ m ih =>
    rw [Nat.succ_add, blockTurns_succ, blockTurns_succ, andThen_assoc]
    congr 1
    exact funext ih

theorem blockTurn_idle {s : State} (h : s.blk.state = .idle) : blockTurn s = .next s := by simp [blockTurn, h]

theorem blockTurns_idle {s : State} (h : s.blk.state = .idle) (n : Nat) : blockTurns n s = .next s := by
  induction n with
  | zero => rfl
  | succ n ih => rw [blockTurns_succ, blockTurn_idle h, andThen_next, ih]

theorem blockTurn_busy {s : State} (h : s.blk.state = .busy) : blockTurn s = stepOperation s := by simp [blockTurn, h]

/-- An encoder step keeps OP. -/
theorem encoderStep_op {shift : Bits128 → Bits128} {more : Payload → Bits128 → Bool} {s t : State}
    (h : encoderStep shift more s = .next t) : t.blk.op = s.blk.op := by
  unfold encoderStep at h
  split at h
  · simp only [Host.Outcome.next.injEq] at h
    subst h
    split <;> simp [finishOK, memWrite]
  · simp at h

/-- A decoder step keeps OP. -/
theorem decoderStep_op {overflow : Payload → Nat → Bits128 → Bool} {complete : Bits128 → Payload → Nat → Bits128}
    {s t : State} (h : decoderStep overflow complete s = .next t) : t.blk.op = s.blk.op := by
  unfold decoderStep at h
  split at h
  · simp only at h
    split at h
    · simp only [Host.Outcome.next.injEq] at h; subst h; rfl
    · split at h
      · simp at h
      · split at h
        · simp only [Host.Outcome.next.injEq] at h; subst h; rfl
        · split at h <;> simp only [Host.Outcome.next.injEq] at h <;> subst h <;> rfl
  · simp at h

/-- R39: repeating an operation's step until IDLE is taking block turns. -/
theorem runToIdle_eq_blockTurns {f : State → Result} {op : BitVec 2}
    (hf : ∀ s, s.blk.state = .busy → s.blk.op = some op → blockTurn s = f s)
    (hop : ∀ s t, f s = .next t → t.blk.op = s.blk.op) (n : Nat) (s : State) (hs : s.blk.state = .busy)
    (ho : s.blk.op = some op) : runToIdle f n s = blockTurns n s := by
  induction n generalizing s with
  | zero => rfl
  | succ n ih =>
    rw [blockTurns_succ, hf s hs ho, runToIdle]
    cases hr : f s with
    | next t =>
      simp only [andThen_next]
      cases ht : t.blk.state with
      | idle => simp [blockTurns_idle ht]
      | busy => exact ih t ht ((hop s t hr).trans ho)
    | fault e => rfl
    | refused e => rfl

end Sys2Proof.Machine
end

