-- ==== Sys2Proof/Laws/Run.lean ====
section
/-! SUPPORT. Laws/Run.lean: the whole run of an operation, one induction for the two encoders and one for the two
decoders. -/

namespace Sys2Proof.Machine

/-! ## Encoders -/

/-- The end of an encode that still had to write these bytes from position k on. -/
def State.encodeEnd (s : State) (k : Nat) (bs : List Byte) : State :=
  { s with
    blk := { s.blk with count := some (k + bs.length), err := errOk, state := .idle, rem := none, acc := none, k := none }
    port := { s.port with raced := [], accesses := s.port.accesses ++ (bs.zipIdx k).map fun x => .write x.2 x.1 }
    mem := Memory.writeAll s.mem (s.port.sinkBase + k) bs }

/-- An encoder whose steps unfold `enc` byte by byte writes exactly `enc rem` (R101, R121). -/
theorem encoder_run {shift : Bits128 → Bits128} {more : Payload → Bits128 → Bool} {enc : Bits128 → List Byte}
    (hlast : ∀ v, more (lowGroup v) (shift v) = false → enc v = [wireByte false (lowGroup v)])
    (hmore : ∀ v, more (lowGroup v) (shift v) = true → enc v = wireByte true (lowGroup v) :: enc (shift v))
    (n : Nat) : ∀ (s : State) (rem : Bits128) (k : Nat), (enc rem).length ≤ n → s.blk.state = .busy →
      s.blk.rem = some rem → s.blk.k = some k → s.port.raced = [] →
      runToIdle (encoderStep shift more) n s = .next (s.encodeEnd k (enc rem)) := by
  induction n with
  | zero =>
    intro s rem k hn
    cases hc : more (lowGroup rem) (shift rem)
    · simp [hlast rem hc] at hn
    · simp [hmore rem hc] at hn
  | succ n ih =>
    intro s rem k hn hs hr hk hp
    rw [runToIdle, encoderStep_eq hr hk]
    cases hc : more (lowGroup rem) (shift rem)
    · simp only [andThen_next, hlast rem hc, Bool.false_eq_true, if_false, finishOK]
      rw [settleRaced_nil (by simp [memWrite, hp])]
      simp [State.encodeEnd, memWrite, State.withBlk, State.withPort, State.withMem, Block.finished,
        Memory.writeAll, hp]
    · simp only [andThen_next, if_true, State.withBlk_blk, hs]
      refine (ih _ (shift rem) (k + 1) ?_ ?_ ?_ ?_ ?_).trans ?_
      · simpa [hmore rem hc] using hn
      · rfl
      · rfl
      · rfl
      · exact hp
      simp only [hmore rem hc, State.encodeEnd, memWrite, State.withBlk, State.withPort, State.withMem,
        Memory.writeAll, List.zipIdx_cons, List.map_cons, List.length_cons, List.append_assoc, List.singleton_append]
      simp only [Nat.add_assoc, Nat.add_comm 1]

/-- A run from START writes the whole encoding (R38). -/
theorem encodeEnd_start (s : State) (op : BitVec 2) (v : Bits128) (o l : Nat) (bs : List Byte) :
    (((s.withBlk (Block.started op v o l)).withPort s.port.started).encodeEnd 0 bs) = s.afterEncode op o l bs := by
  simp [State.encodeEnd, State.afterEncode, State.withBlk, State.withPort, Port.started, Block.started, Block.ended,
    writesOf]

/-! ## Decoders -/

section Decoder

variable (overflow : Payload → Nat → Bits128 → Bool) (complete : Bits128 → Payload → Nat → Bits128) (s : State)
  (o l : Nat)

/-- What ends a decode at step k (R105, R126). -/
def State.stopsAt (k : Nat) : Prop :=
  l ≤ o + k ∨ overflow (payload (s.sourceByte o k)) k (s.accumulated o k) = true ∨
    continues (s.sourceByte o k) = false

/-- A decode that has read k bytes. -/
def State.decodeMid (k : Nat) : State :=
  (s.withBlk { s.blk with acc := some (s.accumulated o k), k := some k }).withPort
    { s.port with accesses := s.reads o k }

/-- A decode that stopped at step m (R105, R126). -/
def State.decodeEnd (m : Nat) : State :=
  if l ≤ o + m then raiseError errTruncated (s.decodeMid o m)
  else if overflow (payload (s.sourceByte o m)) m (s.accumulated o m) then
    raiseError errOverflow ((s.decodeMid o m).withPort { s.port with accesses := s.reads o (m + 1) })
  else ((s.decodeMid o m).withPort { s.port with accesses := s.reads o (m + 1) }).withBlk
    (s.blk.finished (m + 1) (some (complete (s.accumulated o (m + 1)) (payload (s.sourceByte o m)) (m + 1))))

theorem accumulated_succ (k : Nat) :
    s.accumulated o (k + 1) = accumulate (s.accumulated o k) (payload (s.sourceByte o k)) k := by
  simp [State.accumulated, List.range_succ]

theorem reads_succ (k : Nat) : s.reads o (k + 1) = s.reads o k ++ [.read (o + k) (s.sourceByte o k)] := by
  simp [State.reads, List.range_succ]

theorem sourceBytes_succ (k : Nat) : s.sourceBytes o (k + 1) = s.sourceBytes o k ++ [s.sourceByte o k] := by
  simp [State.sourceBytes, List.range_succ]

variable {s o l}

theorem memRead_present {k : Nat} (hp : (memRead s (o + k)).isSome) : memRead s (o + k) = some (s.sourceByte o k) := by
  obtain ⟨b, hb⟩ := Option.isSome_iff_exists.1 hp
  simp [State.sourceByte, hb]

/-- One step of a decode that has read k bytes and does not stop. -/
theorem decodeMid_step (ho : s.blk.offset = some o) (hl : s.blk.srcLen = some l) {k : Nat}
    (hp : (memRead s (o + k)).isSome) (h : ¬ s.stopsAt overflow o l k) :
    decoderStep overflow complete (s.decodeMid o k) = .next (s.decodeMid o (k + 1)) := by
  simp only [State.stopsAt, not_or, Bool.not_eq_true, Bool.not_eq_false, not_le] at h
  obtain ⟨h₁, h₂, h₃⟩ := h
  have hb : memRead (s.decodeMid o k) (o + k) = some (s.sourceByte o k) := memRead_present hp
  rw [decoderStep_read (s := s.decodeMid o k) (l := l) (acc := s.accumulated o k) ho hl rfl rfl h₁ hb]
  simp only [h₂, h₃, if_true, Bool.false_eq_true, if_false]
  simp only [State.decodeMid, noteRead, accumulated_succ, reads_succ, State.withBlk, State.withPort]

/-- The step of a decode at which it stops. -/
theorem decodeMid_last (ho : s.blk.offset = some o) (hl : s.blk.srcLen = some l)
    (hr : s.port.raced = []) {m : Nat} (hp : o + m < l → (memRead s (o + m)).isSome) (h : s.stopsAt overflow o l m) :
    decoderStep overflow complete (s.decodeMid o m) = .next (s.decodeEnd overflow complete o l m) := by
  unfold State.decodeEnd
  by_cases h₁ : l ≤ o + m
  · rw [decoderStep_truncated (s := s.decodeMid o m) (l := l) (acc := s.accumulated o m) ho hl rfl rfl h₁]; simp [h₁]
  · have hb : memRead (s.decodeMid o m) (o + m) = some (s.sourceByte o m) := memRead_present (hp (by omega))
    rw [decoderStep_read (s := s.decodeMid o m) (l := l) (acc := s.accumulated o m) ho hl rfl rfl (by omega) hb]
    have hn : noteRead (s.decodeMid o m) (o + m) (s.sourceByte o m) =
        (s.decodeMid o m).withPort { s.port with accesses := s.reads o (m + 1) } := by
      simp [noteRead, State.decodeMid, reads_succ]
    simp only [h₁, if_false, hn]
    cases hv : overflow (payload (s.sourceByte o m)) m (s.accumulated o m)
    · have hc : continues (s.sourceByte o m) = false := by simpa [State.stopsAt, h₁, hv] using h
      simp only [hc, Bool.false_eq_true, if_false]
      rw [finishOK, settleRaced_nil (by simp [hr])]
      simp [← accumulated_succ, State.decodeMid, Block.finished, State.withBlk, State.withPort]
    · simp

theorem decodeEnd_idle (m : Nat) : (s.decodeEnd overflow complete o l m).blk.state = .idle := by
  unfold State.decodeEnd; split
  · rfl
  · split <;> rfl

/-- A decode that first stops at step m ends as R105 and R126 say. -/
theorem decoder_run (ho : s.blk.offset = some o) (hl : s.blk.srcLen = some l) (hs : s.blk.state = .busy)
    (hr : s.port.raced = []) {m : Nat} (hp : ∀ k ≤ m, o + k < l → (memRead s (o + k)).isSome) (hm : s.stopsAt overflow o l m)
    (hlt : ∀ k < m, ¬ s.stopsAt overflow o l k) (d : Nat) : ∀ k n : Nat, k + d = m → d < n →
    runToIdle (decoderStep overflow complete) n (s.decodeMid o k) = .next (s.decodeEnd overflow complete o l m) := by
  induction d with
  | zero =>
    rintro k (_ | n) hk hn
    · omega
    · obtain rfl : k = m := by omega
      rw [runToIdle, decodeMid_last overflow complete ho hl hr (hp k le_rfl) hm, andThen_next]
      simp [decodeEnd_idle]
  | succ d ih =>
    rintro k (_ | n) hk hn
    · omega
    · have hk' : o + k < l := by
        by_contra hc
        exact hlt k (by omega) (Or.inl (by omega))
      rw [runToIdle, decodeMid_step overflow complete ho hl (hp k (by omega) hk') (hlt k (by omega)), andThen_next]
      have : (s.decodeMid o (k + 1)).blk.state = .busy := hs
      simp only [this]
      exact ih (k + 1) n (by omega) (by omega)

/-- A decode stops at a first step, at most SRC_LEN − OFFSET (R37). -/
theorem first_stop (s : State) (o l : Nat) :
    ∃ m ≤ l - o, s.stopsAt overflow o l m ∧ ∀ k < m, ¬ s.stopsAt overflow o l k := by
  classical
  have h : ∃ m, s.stopsAt overflow o l m := ⟨l - o, Or.inl (by omega)⟩
  refine ⟨Nat.find h, Nat.find_min' h (Or.inl (by omega)), Nat.find_spec h, fun k hk => Nat.find_min h hk⟩

end Decoder

end Sys2Proof.Machine
end

