-- ==== Sys2Proof/Laws/Exec.lean ====
section
/-! SUPPORT. Laws/Exec.lean: the four meanings in one form, and START of a command that may be issued. -/

namespace Sys2Proof.Machine

/-- The step of a command's operation. -/
def stepOf (i : Instr) : State → Result :=
  match i with
  | .encu _ _ _ => stepEncu
  | .decu _ _ _ => stepDecu
  | .encs _ _ _ => stepEncs
  | .decs _ _ _ => stepDecs

/-- A command is START and its steps (R39). -/
theorem exec_eq (i : Instr) (s : State) :
    exec i s = andThen (startInstr i s) (runToIdle (stepOf i) (turnBound i)) := by
  cases i <;> rfl

/-- The state START leaves (R34). -/
def State.started (s : State) (i : Instr) : State :=
  (s.withBlk (Block.started i.op i.vin i.offset i.srcLen)).withPort s.port.started

theorem startInstr_eq_next {i : Instr} {s t : State} : startInstr i s = .next t ↔ s.mayIssue i ∧ t = s.started i := by
  rw [startInstr, issue_eq_next, start_eq_next]
  exact ⟨fun ⟨a, b, c, d⟩ => ⟨⟨b, a, c⟩, d⟩, fun ⟨⟨b, a, c⟩, d⟩ => ⟨a, b, c, d⟩⟩

theorem startInstr_of_mayIssue {i : Instr} {s : State} (h : s.mayIssue i) : startInstr i s = .next (s.started i) :=
  startInstr_eq_next.2 ⟨h, rfl⟩

theorem startInstr_busy {i : Instr} {s : State} (h : i.wellFormed s.usizeBits) (hb : s.blk.state = .busy) :
    startInstr i s = .fault .hostBusy := by
  rw [startInstr, issue, if_pos h, start_busy hb]

theorem startInstr_wide {i : Instr} {s : State} (h : ¬ i.wellFormed s.usizeBits) :
    startInstr i s = .refused .operandTooWide := by
  rw [startInstr, issue, if_neg h]

/-- The step of a BUSY block is that of its OP (R35). -/
theorem blockTurn_of_op {i : Instr} {s : State} (hb : s.blk.state = .busy) (ho : s.blk.op = some i.op) :
    blockTurn s = stepOf i s := by
  rw [blockTurn_busy hb, stepOperation, ho]
  cases i <;> simp [Instr.op, stepOf]

theorem stepOf_op {i : Instr} {s t : State} (h : stepOf i s = .next t) : t.blk.op = s.blk.op := by
  cases i
  · exact encoderStep_op h
  · exact decoderStep_op h
  · exact encoderStep_op h
  · exact decoderStep_op h

/-- R39: the steps of a started command are block turns. -/
theorem run_eq_blockTurns (i : Instr) (n : Nat) {s : State} (hb : s.blk.state = .busy) (ho : s.blk.op = some i.op) :
    runToIdle (stepOf i) n s = blockTurns n s :=
  runToIdle_eq_blockTurns (fun _ h₁ h₂ => blockTurn_of_op h₁ h₂) (fun _ _ => stepOf_op) n s hb ho

theorem bit0_of_op (op : BitVec 2) : (op = 0 ∨ op = 2) ∨ (op = 1 ∨ op = 3) := by revert op; decide

end Sys2Proof.Machine
end

