-- ==== Sys2Proof/Laws/Denote.lean ====
section
/-! SUPPORT. Laws/Denote.lean: the value the bytes denote, the accumulator that holds it, and the end of a decode in
terms of both. -/

namespace Sys2Proof.Machine

/-! ## Denoted values -/

theorem denoteU_append (bs cs : List Byte) : denoteU (bs ++ cs) = denoteU bs + 2 ^ (7 * bs.length) * denoteU cs := by
  induction bs with
  | nil => simp [denoteU]
  | cons b bs ih =>
    rw [List.cons_append, denoteU, denoteU, ih, List.length_cons, show 7 * (bs.length + 1) = 7 * bs.length + 7 by ring,
      pow_add]
    ring

theorem denoteU_lt (bs : List Byte) : denoteU bs < 2 ^ (7 * bs.length) := by
  induction bs with
  | nil => simp [denoteU]
  | cons b bs ih =>
    have := (payload b).isLt
    rw [denoteU, List.length_cons, show 7 * (bs.length + 1) = 7 + 7 * bs.length by ring, pow_add]
    generalize 2 ^ (7 * bs.length) = q at *
    omega

/-- R72 as the sum over k of `uint(b_k[6:0]) * 2^(7k)`. -/
theorem denoteU_eq_sum (bs : List Byte) :
    denoteU bs = ∑ k ∈ Finset.range bs.length, ((bs.map payload).getD k 0).toNat * 2 ^ (7 * k) := by
  induction bs with
  | nil => simp [denoteU]
  | cons b bs ih =>
    rw [denoteU, ih, List.length_cons, Finset.sum_range_succ', Finset.mul_sum]
    simp only [List.map_cons, List.getD_cons_succ, List.getD_cons_zero, mul_zero, pow_zero, mul_one]
    rw [add_comm]
    congr 1
    refine Finset.sum_congr rfl fun k _ => ?_
    rw [show 7 * (k + 1) = 7 * k + 7 by ring, pow_add]
    ring

theorem lastSign_append (bs : List Byte) {cs : List Byte} (h : cs ≠ []) : lastSign (bs ++ cs) = lastSign cs := by
  simp [lastSign, List.getLast?_append, List.getLast?_eq_some_getLast h]

/-- R73 from low bytes and the signed value of the rest. -/
theorem denoteS_append (bs : List Byte) {cs : List Byte} (h : cs ≠ []) :
    denoteS (bs ++ cs) = denoteU bs + 2 ^ (7 * bs.length) * denoteS cs := by
  rw [denoteS, denoteS, lastSign_append bs h, denoteU_append, List.length_append, mul_add, pow_add]
  push_cast
  split <;> ring

theorem denoteS_range {bs : List Byte} (h : bs ≠ []) :
    -2 ^ (7 * bs.length - 1) ≤ denoteS bs ∧ denoteS bs < 2 ^ (7 * bs.length - 1) := by
  induction bs with
  | nil => simp at h
  | cons b bs ih =>
    have hp := (payload b).isLt
    cases bs with
    | nil =>
      have hb : (payload b).getLsbD 6 = decide (64 ≤ (payload b).toNat) := by
        rw [BitVec.getLsbD, Nat.testBit_eq_decide_div_mod_eq, decide_eq_decide]; omega
      simp only [denoteS, denoteU, lastSign, List.getLast?_singleton, hb, List.length_singleton]
      split <;> rename_i hs <;> simp at hs <;> norm_num <;> omega
    | cons c bs =>
      obtain ⟨h1, h2⟩ := ih (by simp)
      rw [show b :: c :: bs = [b] ++ (c :: bs) by rfl, denoteS_append [b] (by simp), List.length_append]
      have e : 7 * ([b].length + (c :: bs).length) - 1 = 7 + (7 * (c :: bs).length - 1) := by
        simp only [List.length_cons, List.length_nil]; omega
      rw [e, pow_add]
      generalize (2 : Int) ^ (7 * (c :: bs).length - 1) = q at *
      simp only [denoteU, List.length_singleton]
      push_cast
      constructor <;> omega

/-! ## Overflow of one payload -/

theorem overflowU_iff (p : Payload) (k : Nat) (acc : Bits128) :
    overflowU p k acc = true ↔ 2 ^ 128 ≤ p.toNat * 2 ^ (7 * k) := by
  have hp := p.isLt
  unfold overflowU
  split
  · have h1 : 2 ^ (7 * k) ≤ 2 ^ 119 := Nat.pow_le_pow_right (by omega) (by omega)
    have h2 : p.toNat * 2 ^ (7 * k) ≤ 127 * 2 ^ 119 := Nat.mul_le_mul (by omega) h1
    norm_num at h2 ⊢; omega
  · split
    · subst k
      have : (p.extractLsb 6 2 != 0) = decide (4 ≤ p.toNat) := by revert p; decide
      rw [this, decide_eq_true_eq]; norm_num; omega
    · have h1 : 2 ^ 133 ≤ 2 ^ (7 * k) := Nat.pow_le_pow_right (by omega) (by omega)
      have h0 : (p != 0) = decide (p.toNat ≠ 0) := by revert p; decide
      rw [h0, decide_eq_true_eq]
      constructor
      · intro h
        calc 2 ^ 128 ≤ 2 ^ (7 * k) := le_trans (by norm_num) h1
          _ ≤ p.toNat * 2 ^ (7 * k) := Nat.le_mul_of_pos_left _ (by omega)
      · intro h hz
        rw [hz] at h; norm_num at h

/-- A group that does not overflow keeps the value within 128 bits; one that does takes it out. -/
theorem overflowU_value {d : Nat} (p : Payload) (k : Nat) (acc : Bits128) (hd : d < 2 ^ (7 * k)) (hd' : d < 2 ^ 128) :
    overflowU p k acc = true ↔ 2 ^ 128 ≤ d + 2 ^ (7 * k) * p.toNat := by
  rw [overflowU_iff, mul_comm]
  refine ⟨fun h => by omega, fun h => ?_⟩
  by_contra hc
  by_cases hk : 7 * k ≤ 128
  · have e : 2 ^ 128 = 2 ^ (7 * k) * 2 ^ (128 - 7 * k) := by rw [← pow_add]; congr 1; omega
    rw [e] at h hc
    have h2 : p.toNat + 1 ≤ 2 ^ (128 - 7 * k) := by
      by_contra h3
      exact hc (Nat.mul_le_mul_left _ (by omega))
    have h3 := Nat.mul_le_mul_left (2 ^ (7 * k)) h2
    rw [mul_add, mul_one] at h3
    omega
  · have h1 : 2 ^ 128 ≤ 2 ^ (7 * k) := Nat.pow_le_pow_right (by omega) (by omega)
    rcases Nat.eq_zero_or_pos p.toNat with hz | hz
    · rw [hz] at h; omega
    · exact hc (le_trans h1 (Nat.le_mul_of_pos_right _ hz))

/-! ## The accumulator -/

theorem accumulate_toNat {acc : Bits128} (p : Payload) {k : Nat} (h : acc.toNat < 2 ^ (7 * k)) :
    (accumulate acc p k).toNat = (acc.toNat + 2 ^ (7 * k) * p.toNat) % 2 ^ 128 := by
  have ha := acc.isLt
  have hp := p.isLt
  unfold accumulate
  split
  · rename_i hk
    have e : 2 ^ 128 = 2 ^ (7 * k) * 2 ^ (128 - 7 * k) := by rw [← pow_add]; congr 1; omega
    have h1 : ((p.setWidth 128 : Bits128) <<< (7 * k)).toNat = 2 ^ (7 * k) * (p.toNat % 2 ^ (128 - 7 * k)) := by
      rw [BitVec.toNat_shiftLeft, Nat.shiftLeft_eq, BitVec.toNat_setWidth,
        Nat.mod_eq_of_lt (lt_of_lt_of_le hp (Nat.pow_le_pow_right (by omega) (by omega))), mul_comm, e, Nat.mul_mod_mul_left]
    rw [BitVec.toNat_or, h1, Nat.lor_comm, ← Nat.two_pow_add_eq_or_of_lt h, Nat.add_comm, e,
      Nat.mod_mul, Nat.add_mul_mod_self_left, Nat.mod_eq_of_lt h, Nat.add_mul_div_left _ _ (by positivity),
      Nat.div_eq_of_lt h, Nat.zero_add]
  · rename_i hk
    have e : 2 ^ (7 * k) = 2 ^ 128 * 2 ^ (7 * k - 128) := by rw [← pow_add, Nat.add_sub_cancel' (by omega)]
    rw [e, mul_assoc, Nat.add_mul_mod_self_left, Nat.mod_eq_of_lt ha]

@[simp] theorem sourceBytes_length (s : State) (o n : Nat) : (s.sourceBytes o n).length = n := by
  simp [State.sourceBytes]

theorem denoteU_sourceBytes_succ (s : State) (o k : Nat) :
    denoteU (s.sourceBytes o (k + 1)) = denoteU (s.sourceBytes o k) + 2 ^ (7 * k) * (payload (s.sourceByte o k)).toNat := by
  rw [sourceBytes_succ, denoteU_append]; simp [denoteU]

/-- The accumulator holds the denoted value, truncated to 128 bits (R72, R126). -/
theorem accumulated_toNat (s : State) (o k : Nat) :
    (s.accumulated o k).toNat = denoteU (s.sourceBytes o k) % 2 ^ 128 := by
  induction k with
  | zero => rfl
  | succ k ih =>
    have h := denoteU_lt (s.sourceBytes o k)
    rw [sourceBytes_length] at h
    rw [accumulated_succ, accumulate_toNat _ (by rw [ih]; exact lt_of_le_of_lt (Nat.mod_le _ _) h), ih,
      denoteU_sourceBytes_succ, Nat.mod_add_mod]

theorem bv_natCast (n : Nat) : (bv (n : Int)).toNat = n % 2 ^ 128 := by
  simp [bv]

/-- R105: the value DECU returns. -/
theorem accumulated_eq_bv (s : State) (o k : Nat) : s.accumulated o k = bv (denoteU (s.sourceBytes o k)) := by
  apply BitVec.eq_of_toNat_eq
  rw [accumulated_toNat, bv_natCast]

theorem lastSign_sourceBytes (s : State) (o m : Nat) :
    lastSign (s.sourceBytes o (m + 1)) = (payload (s.sourceByte o m)).getLsbD 6 := by
  simp [sourceBytes_succ, lastSign]

/-- R125, R126: the value DECS returns. -/
theorem completeSign_eq_bv (s : State) (o m : Nat) :
    completeSign (s.accumulated o (m + 1)) (payload (s.sourceByte o m)) (m + 1) =
      bv (denoteS (s.sourceBytes o (m + 1))) := by
  have hu := denoteU_lt (s.sourceBytes o (m + 1))
  rw [sourceBytes_length] at hu
  have ha := accumulated_toNat s o (m + 1)
  rw [completeSign, denoteS, lastSign_sourceBytes, sourceBytes_length]
  generalize s.accumulated o (m + 1) = acc at *
  generalize denoteU (s.sourceBytes o (m + 1)) = d at *
  cases hs : (payload (s.sourceByte o m)).getLsbD 6
  · simp only [Bool.false_eq_true, and_false, if_false, sub_zero]
    exact BitVec.eq_of_toNat_eq (by rw [ha, bv_natCast])
  · by_cases hk : 7 * (m + 1) < 128
    · have e : 2 ^ 128 = 2 ^ (7 * (m + 1)) * 2 ^ (128 - 7 * (m + 1)) := by rw [← pow_add]; congr 1; omega
      have hd : d < 2 ^ 128 := lt_of_lt_of_le hu (Nat.pow_le_pow_right (by omega) (by omega))
      have hones : ((ones128 : Bits128) <<< (7 * (m + 1))).toNat = 2 ^ (7 * (m + 1)) * (2 ^ (128 - 7 * (m + 1)) - 1) := by
        have h1 : (2 ^ 128 - 1) % 2 ^ (128 - 7 * (m + 1)) = 2 ^ (128 - 7 * (m + 1)) - 1 := by
          have hq : 0 < 2 ^ (128 - 7 * (m + 1)) := by positivity
          have hq' : 0 < 2 ^ (7 * (m + 1)) := by positivity
          have h2 : 2 ^ 128 - 1 = 2 ^ (128 - 7 * (m + 1)) - 1 + 2 ^ (128 - 7 * (m + 1)) * (2 ^ (7 * (m + 1)) - 1) := by
            rw [e, Nat.mul_sub, mul_one, mul_comm]
            have := Nat.le_mul_of_pos_right (2 ^ (128 - 7 * (m + 1))) hq'
            omega
          rw [h2, Nat.add_mul_mod_self_left, Nat.mod_eq_of_lt (by omega)]
        rw [BitVec.toNat_shiftLeft, Nat.shiftLeft_eq, BitVec.toNat_allOnes, mul_comm, e, Nat.mul_mod_mul_left, ← e, h1]
      rw [if_pos ⟨hk, rfl⟩]
      apply BitVec.eq_of_toNat_eq
      rw [BitVec.toNat_or, hones, ha, Nat.mod_eq_of_lt hd, Nat.lor_comm, ← Nat.two_pow_add_eq_or_of_lt hu, bv,
        BitVec.toNat_ofInt]
      have h3 : ((d : Int) - if True then 2 ^ (7 * (m + 1)) else 0) % (2 ^ 128 : Nat) =
          (2 ^ (7 * (m + 1)) * (2 ^ (128 - 7 * (m + 1)) - 1) + d : Nat) := by
        have hq : 0 < 2 ^ (128 - 7 * (m + 1)) := by positivity
        have hq' : 0 < 2 ^ (7 * (m + 1)) := by positivity
        have h4 : 2 ^ (7 * (m + 1)) * (2 ^ (128 - 7 * (m + 1)) - 1) + 2 ^ (7 * (m + 1)) = 2 ^ 128 := by
          rw [e, Nat.mul_sub, mul_one]
          have := Nat.le_mul_of_pos_right (2 ^ (7 * (m + 1))) hq
          omega
        have h5 : ((2 ^ (7 * (m + 1)) : Nat) : Int) = 2 ^ (7 * (m + 1)) := by push_cast; rfl
        rw [if_pos trivial, ← h5, ← Int.add_emod_right]
        rw [Int.emod_eq_of_lt] <;> omega
      simp only [if_true] at h3 ⊢
      rw [h3]
      rfl
    · have e : 2 ^ (7 * (m + 1)) = 2 ^ 128 * 2 ^ (7 * (m + 1) - 128) := by
        rw [← pow_add, Nat.add_sub_cancel' (by omega)]
      have e' : (2 : Int) ^ (7 * (m + 1)) = 2 ^ 128 * 2 ^ (7 * (m + 1) - 128) := by exact_mod_cast e
      rw [if_neg (by simp [hk])]
      apply BitVec.eq_of_toNat_eq
      rw [ha, ← bv_natCast, bv, bv, BitVec.toNat_ofInt, BitVec.toNat_ofInt, if_pos rfl, e']
      rw [show (2 : Int) ^ 128 = ((2 ^ 128 : Nat) : Int) from (Nat.cast_pow 2 128).symm, Int.sub_mul_emod_self_left]

/-! ## The end of a decode -/

section Decoder

variable {overflow : Payload → Nat → Bits128 → Bool} {complete : Bits128 → Payload → Nat → Bits128} {s : State} {i : Instr}

/-- A decode command ends at its first stop (R105, R126). -/
theorem exec_decode (hf : stepOf i = decoderStep overflow complete) (hb : turnBound i = i.srcLen - i.offset + 1)
    (hm : s.mayIssue i) {m : Nat}
    (hp : ∀ k ≤ m, i.offset + k < i.srcLen → (memRead s (i.offset + k)).isSome)
    (hstop : s.stopsAt overflow i.offset i.srcLen m) (hlt : ∀ k < m, ¬ s.stopsAt overflow i.offset i.srcLen k) :
    exec i s = .next ((s.started i).decodeEnd overflow complete i.offset i.srcLen m) := by
  have hle : m ≤ i.srcLen - i.offset := by
    by_contra hc
    exact hlt (i.srcLen - i.offset) (by omega) (Or.inl (by omega))
  rw [exec_eq, startInstr_of_mayIssue hm, andThen_next, hf, hb]
  exact decoder_run overflow complete (s := s.started i) (o := i.offset) (l := i.srcLen) rfl rfl rfl rfl hp hstop hlt m 0 _
    (by omega) (by omega)

/-- The end of a decode, field by field (R38, R143). -/
theorem decodeEnd_started (m : Nat) :
    (s.started i).decodeEnd overflow complete i.offset i.srcLen m =
      if i.srcLen ≤ i.offset + m then s.afterError i.op i.offset i.srcLen errTruncated m
      else if overflow (payload (s.sourceByte i.offset m)) m (s.accumulated i.offset m) then
        s.afterError i.op i.offset i.srcLen errOverflow (m + 1)
      else s.afterDecode i.op i.offset i.srcLen
        (complete (s.accumulated i.offset (m + 1)) (payload (s.sourceByte i.offset m)) (m + 1)) (m + 1) := by
  unfold State.decodeEnd
  split
  · rfl
  · change (if overflow (payload (s.sourceByte i.offset m)) m (s.accumulated i.offset m) = true then _ else _) = _
    split <;> rfl

end Decoder

end Sys2Proof.Machine
end

