-- ==== Sys2Proof/Laws/Ranges.lean ====
section
/-! SUPPORT. Laws/Ranges.lean: the byte ranges of an operation (R165 to R167), how a step keeps them, and the settling
of raced positions. -/

namespace Sys2Proof.Machine

@[simp] theorem inRange_empty (a : Nat) : inRange (0, 0) a = false := by simp [inRange]
@[simp] theorem overlaps_empty_left (q : Nat × Nat) : overlaps (0, 0) q = false := by simp [overlaps]
@[simp] theorem overlaps_empty_right (q : Nat × Nat) : overlaps q (0, 0) = false := by simp [overlaps]

theorem overlaps_comm (r q : Nat × Nat) : overlaps r q = overlaps q r := by
  simp only [overlaps, max_comm, min_comm]

/-- Two ranges share no address. -/
theorem overlaps_eq_false {r q : Nat × Nat} : overlaps r q = false ↔ ∀ x, inRange r x = true → inRange q x = false := by
  simp only [overlaps, inRange, decide_eq_false_iff_not, decide_eq_true_eq]
  exact ⟨fun h x h₁ h₂ => h (by omega), fun h h' => h (max r.1 q.1) (by omega) (by omega)⟩

theorem sinkRange_idle {u : Agent} (h : u.1.state = .idle) : sinkRange u = (0, 0) := by simp [sinkRange, h]
theorem sourceRange_idle {u : Agent} (h : u.1.state = .idle) : sourceRange u = (0, 0) := by simp [sourceRange, h]

theorem sinkRange_decode {u : Agent} {op : BitVec 2} (h : u.1.op = some op) (he : isEncode op = false) :
    sinkRange u = (0, 0) := by
  unfold sinkRange
  split
  · simp_all
  · rfl

theorem sinkRange_running {u : Agent} {op : BitVec 2} {rem : Bits128} {k : Nat} (hb : u.1.state = .busy)
    (hop : u.1.op = some op) (he : isEncode op = true) (hr : u.1.rem = some rem) (hk : u.1.k = some k) :
    sinkRange u = (u.2.sinkBase, u.2.sinkBase + encodeTotal op rem k) := by
  simp [sinkRange, hb, hop, hr, hk, he]

theorem sourceRange_running {u : Agent} {op : BitVec 2} {o l : Nat} (hb : u.1.state = .busy)
    (hop : u.1.op = some op) (he : isEncode op = false) (ho : u.1.offset = some o) (hl : u.1.srcLen = some l) :
    sourceRange u = (u.2.srcBase + o, u.2.srcBase + l) := by
  simp [sourceRange, hb, hop, ho, hl, he]

/-- No block beside is BUSY, so nothing aliases. -/
theorem aliasFault_idle (u : Agent) {others : List Agent} (h : ∀ v ∈ others, v.1.state = .idle) :
    aliasFault u others = none := by
  unfold aliasFault
  rw [if_neg, if_neg] <;> simp only [List.any_eq_true, not_exists, not_and] <;> intro v hv <;>
    simp [raceBetween, sharedSink, sinkRange_idle (h v hv), sourceRange_idle (h v hv)]

/-- A decode meets no aliasing fault where no other block's running sink lies in its source range (R167). -/
theorem aliasFault_decode {op : BitVec 2} {v : Bits128} {o l : Nat} {p : Port} {others : List Agent}
    (he : isEncode op = false)
    (h : ∀ u ∈ others, ∀ x, p.srcBase + o ≤ x → x < p.srcBase + l → inRange (sinkRange u) x = false) :
    aliasFault (Block.started op v o l, p.started) others = none := by
  have h₁ : sinkRange (Block.started op v o l, p.started) = (0, 0) := sinkRange_decode rfl he
  have h₂ : sourceRange (Block.started op v o l, p.started) = (p.srcBase + o, p.srcBase + l) :=
    sourceRange_running rfl rfl he rfl rfl
  unfold aliasFault
  rw [if_neg, if_neg] <;> simp only [List.any_eq_true, not_exists, not_and, Bool.not_eq_true] <;> intro u hu
  · simp [sharedSink, h₁]
  · simp only [raceBetween, h₁, h₂, overlaps_empty_left, Bool.false_or, overlaps_eq_false]
    intro x hx
    simp only [inRange, decide_eq_true_eq] at hx
    exact h u hu x hx.1 hx.2

/-- An encode meets no aliasing fault where no other block's running range lies among its sink positions (R167). -/
theorem aliasFault_encode {op : BitVec 2} {v : Bits128} {o l : Nat} {p : Port} {others : List Agent}
    (he : isEncode op = true)
    (h : ∀ u ∈ others, ∀ x, p.sinkBase ≤ x → x < p.sinkBase + encodeTotal op v 0 →
      inRange (sourceRange u) x = false ∧ inRange (sinkRange u) x = false) :
    aliasFault (Block.started op v o l, p.started) others = none := by
  have h₁ : sinkRange (Block.started op v o l, p.started) = (p.sinkBase, p.sinkBase + encodeTotal op v 0) :=
    sinkRange_running rfl rfl he rfl rfl
  have h₂ : sourceRange (Block.started op v o l, p.started) = (0, 0) := by simp [sourceRange, he]
  unfold aliasFault
  rw [if_neg, if_neg] <;> simp only [List.any_eq_true, not_exists, not_and, Bool.not_eq_true] <;> intro u hu
  · simp only [sharedSink, h₁, overlaps_eq_false]
    intro x hx
    simp only [inRange, decide_eq_true_eq] at hx
    exact (h u hu x hx.1 hx.2).2
  · simp only [raceBetween, h₁, h₂, overlaps_empty_left, Bool.or_false, overlaps_eq_false]
    intro x hx
    simp only [inRange, decide_eq_true_eq] at hx
    exact (h u hu x hx.1 hx.2).1

/-! ## Encodes -/

/-- The two encoders by their command words, shifts and flags. -/
def IsEncoder (op : BitVec 2) (shift : Bits128 → Bits128) (more : Payload → Bits128 → Bool) : Prop :=
  (op = 0 ∧ shift = shiftUnsigned ∧ more = moreUnsigned) ∨ (op = 2 ∧ shift = shiftSigned ∧ more = moreSigned)

/-- A running encode has a byte to write. -/
theorem encodeTotal_pos (op : BitVec 2) (rem : Bits128) (k : Nat) : k + 1 ≤ encodeTotal op rem k := by
  unfold encodeTotal
  split
  · have := lengthS_pos (sint rem); omega
  · have := lengthU_pos (uint rem); omega

/-- A step that goes on keeps the number of bytes written in all. -/
theorem encodeTotal_shift {op : BitVec 2} {shift : Bits128 → Bits128} {more : Payload → Bits128 → Bool}
    {rem : Bits128} {k : Nat} (h : IsEncoder op shift more) (hm : more (lowGroup rem) (shift rem) = true) :
    encodeTotal op (shift rem) (k + 1) = encodeTotal op rem k := by
  rcases h with ⟨rfl, rfl, rfl⟩ | ⟨rfl, rfl, rfl⟩
  · have h' := (moreUnsigned_iff _ rem).1 hm
    simp only [encodeTotal, lengthU_more h', ← uint_shiftUnsigned]
    simp; omega
  · have h' := (moreSigned_iff rem).1 hm
    simp only [encodeTotal, lengthS_more h', ← sint_shiftSigned]
    simp; omega

/-! ## Settling -/

section Settle

variable (s : State)

@[simp] theorem settleRaced_usizeBits : (settleRaced s).usizeBits = s.usizeBits := by
  unfold settleRaced; rw [drawRaced_eq]; rfl
@[simp] theorem settleRaced_blk : (settleRaced s).blk = s.blk := by unfold settleRaced; rw [drawRaced_eq]; rfl
@[simp] theorem settleRaced_port : (settleRaced s).port = { s.port with raced := [] } := rfl
@[simp] theorem settleRaced_others : (settleRaced s).others = s.others := by unfold settleRaced; rw [drawRaced_eq]; rfl
@[simp] theorem settleRaced_mem : (settleRaced s).mem = (drawRaced s.port.raced s).mem := rfl
@[simp] theorem settleRaced_bufLen : (settleRaced s).bufLen = s.bufLen := by unfold settleRaced; rw [drawRaced_eq]; rfl
@[simp] theorem settleRaced_cursor : (settleRaced s).cursor = s.cursor := by unfold settleRaced; rw [drawRaced_eq]; rfl
@[simp] theorem settleRaced_actions : (settleRaced s).actions = s.actions := by
  unfold settleRaced; rw [drawRaced_eq]; rfl
@[simp] theorem settleRaced_lastRead : (settleRaced s).lastRead = s.lastRead := by
  unfold settleRaced; rw [drawRaced_eq]; rfl

end Settle

/-! ## Other agents' writes -/

@[simp] theorem noteRaced_srcBase (a : Nat) (u : Agent) : (noteRaced a u).srcBase = u.2.srcBase := by
  unfold noteRaced; split <;> rfl
@[simp] theorem noteRaced_sinkBase (a : Nat) (u : Agent) : (noteRaced a u).sinkBase = u.2.sinkBase := by
  unfold noteRaced; split <;> rfl
@[simp] theorem sinkRange_noteRaced (a : Nat) (u : Agent) : sinkRange (u.1, noteRaced a u) = sinkRange u := by
  simp [sinkRange]
@[simp] theorem sourceRange_noteRaced (a : Nat) (u : Agent) : sourceRange (u.1, noteRaced a u) = sourceRange u := by
  simp [sourceRange]

/-- A write races only at sink positions of a running encode. -/
theorem mem_noteRaced {a x : Nat} {u : Agent} (h : x ∈ (noteRaced a u).raced) :
    x ∈ u.2.raced ∨ x = a ∧ inRange (sinkRange u) a = true := by
  unfold noteRaced at h
  split at h
  · rename_i hc
    rcases List.mem_cons.1 h with rfl | h
    · exact Or.inr ⟨rfl, (Bool.and_eq_true _ _ ▸ hc).1⟩
    · exact Or.inl h
  · exact Or.inl h

end Sys2Proof.Machine
end

