-- ==== Sys2Proof/Laws/Host.lean ====
section
/-! SUPPORT. Laws/Host.lean: what each action of the host can do, said once: when it answers a next state, and which.
A command is START and block turns. -/

namespace Sys2Proof.Machine

variable {s t : State}

theorem step_nil (h : s.actions = []) : step s = fairTurn s := by simp [step, h]
theorem step_cons {a : Action} {rest : List Action} (h : s.actions = a :: rest) :
    step s = perform a (s.withActions rest) := by simp [step, h]

/-! ## Reads -/

theorem readErr_eq_next : readErr s = .next t ↔ s.blk.state = .idle ∧ t = s.withReading (.err s.blk.err) := by
  unfold readErr
  cases s.blk.state <;> simp [eq_comm]

theorem readVout_eq_next :
    readVout s = .next t ↔ s.blk.state = .idle ∧ ∃ v, s.blk.vout = some v ∧ t = s.withReading (.vout v) := by
  unfold readVout
  cases s.blk.state <;> cases s.blk.vout <;> simp [eq_comm]

theorem readCount_eq_next :
    readCount s = .next t ↔ s.blk.state = .idle ∧ ∃ n, s.blk.count = some n ∧ t = s.withReading (.count n) := by
  unfold readCount
  cases s.blk.state <;> cases s.blk.count <;> simp [eq_comm]

/-! ## Host memory, places, blocks -/

theorem hostWrite_eq_next {a : Nat} {b : Byte} :
    hostWrite a b s = .next t ↔ (∀ u ∈ s.agents, inRange (sourceRange u) a = false) ∧
      t = ((s.withMem (Memory.write s.mem a b)).withPort (noteRaced a (s.blk, s.port))).withOthers
        (s.others.map fun u => (u.1, noteRaced a u)) := by
  unfold hostWrite
  change (if s.agents.any _ then _ else _) = _ ↔ _
  split
  · rename_i h
    simp only [List.any_eq_true] at h
    obtain ⟨u, hu, h⟩ := h
    simp only [reduceCtorEq, false_iff, not_and]
    intro h'
    rw [h' u hu] at h
    cases h
  · rename_i h
    simp only [List.any_eq_true, not_exists, not_and, Bool.not_eq_true] at h
    exact ⟨fun ht => ⟨h, (Host.Outcome.next.inj ht).symm⟩, fun ht => congrArg _ ht.2.symm⟩

theorem hostRead_next {a : Nat} (h : hostRead a s = .next t) :
    ∃ b n, t = (s.withReading (.byte b)).withDraws n ∧ s.draws ≤ n := by
  unfold hostRead at h
  split at h
  · cases h; exact ⟨_, _, rfl, by omega⟩
  · split at h
    · cases h
    · rename_i b _
      cases h; exact ⟨b, s.draws, rfl, le_rfl⟩

theorem place_eq_next {src sink : Nat} :
    place src sink s = .next t ↔ s.blk.state = .idle ∧
      t = s.withPort { s.port with srcBase := src, sinkBase := sink } := by
  unfold place
  cases s.blk.state <;> simp [eq_comm]

theorem select_eq_next {n : Nat} :
    select n s = .next t ↔ ∃ u, s.others[n]? = some u ∧
      t = ((s.withBlk u.1).withPort u.2).withOthers (s.others.set n (s.blk, s.port)) := by
  unfold select
  cases s.others[n]? <;> simp [eq_comm]

/-- Turning to another block puts the same blocks in another order. -/
theorem select_agents {n : Nat} (h : select n s = .next t) : t.agents.Perm s.agents := by
  obtain ⟨u, hu, rfl⟩ := select_eq_next.1 h
  obtain ⟨hn, hu⟩ := List.getElem?_eq_some_iff.1 hu
  have h₁ : (s.others.set n (s.blk, s.port)).Perm ((s.blk, s.port) :: s.others.eraseIdx n) :=
    List.set_perm_cons_eraseIdx hn _
  have h₂ : (u :: s.others.eraseIdx n).Perm s.others := hu ▸ List.getElem_cons_eraseIdx_perm hn
  exact (h₁.cons u).trans ((List.Perm.swap _ _ _).trans (h₂.cons _))

/-! ## Block turns and commands -/

/-- The turn of a BUSY decode is a decoder step. -/
theorem blockTurn_decode {op : BitVec 2} (hb : s.blk.state = .busy) (hop : s.blk.op = some op)
    (he : isEncode op = false) : ∃ overflow complete, blockTurn s = decoderStep overflow complete s := by
  rw [blockTurn_busy hb, stepOperation, hop]
  rcases bit0_of_op op with (rfl | rfl) | (rfl | rfl)
  · cases he
  · cases he
  · exact ⟨_, _, rfl⟩
  · exact ⟨_, _, rfl⟩

/-- The turn of a BUSY encode is an encoder step. -/
theorem blockTurn_encode {op : BitVec 2} (hb : s.blk.state = .busy) (hop : s.blk.op = some op)
    (he : isEncode op = true) :
    ∃ shift more, IsEncoder op shift more ∧ blockTurn s = encoderStep shift more s := by
  rw [blockTurn_busy hb, stepOperation, hop]
  rcases bit0_of_op op with (rfl | rfl) | (rfl | rfl)
  · exact ⟨_, _, Or.inl ⟨rfl, rfl, rfl⟩, rfl⟩
  · exact ⟨_, _, Or.inr ⟨rfl, rfl, rfl⟩, rfl⟩
  · cases he
  · cases he

/-- A command is START and as many block turns as its bound (R39). -/
theorem exec_turns (i : Instr) (s : State) : exec i s = andThen (startInstr i s) (blockTurns (turnBound i)) := by
  rw [exec_eq]
  cases h : startInstr i s with
  | next t =>
    have ht := (startInstr_eq_next.1 h).2
    simp only [andThen_next]
    exact run_eq_blockTurns i _ (by rw [ht]; rfl) (by rw [ht]; rfl)
  | fault e => rfl
  | refused e => rfl

/-- The bytes a command writes. -/
def bytesWritten : Instr → List Byte
  | .encu v _ _ => encodingU v
  | .decu _ _ _ => []
  | .encs v _ _ => encodingS v
  | .decs _ _ _ => []

/-- An encode that may be issued completes (R101, R121). -/
theorem exec_encode {i : Instr} (he : isEncode i.op = true) (hm : s.mayIssue i) :
    exec i s = .next (s.afterEncode i.op i.offset i.srcLen (bytesWritten i)) := by
  rw [exec_eq, startInstr_of_mayIssue hm, andThen_next]
  cases i with
  | encu v o l =>
    have h := encoder_run (fun _ => encodingU_last) (fun _ => encodingU_more) 19 (s.started (.encu v o l)) v 0
      (by rw [encodingU_length]; exact lengthU_bits _) rfl rfl rfl rfl
    exact h.trans (by rw [State.started, encodeEnd_start]; rfl)
  | encs v o l =>
    have h := encoder_run (fun _ => encodingS_last) (fun _ => encodingS_more) 19 (s.started (.encs v o l)) v 0
      (by rw [encodingS_length]; exact lengthS_bits _) rfl rfl rfl rfl
    exact h.trans (by rw [State.started, encodeEnd_start]; rfl)
  | decu v o l => simp [isEncode, Instr.op] at he
  | decs v o l => simp [isEncode, Instr.op] at he

/-- What every block step keeps: START's operands and the other blocks (R21, R22, R23, R149). -/
theorem stepOperation_keeps (h : stepOperation s = .next t) :
    t.blk.op = s.blk.op ∧ t.blk.offset = s.blk.offset ∧ t.blk.srcLen = s.blk.srcLen ∧ t.others = s.others := by
  have henc : ∀ {shift more}, encoderStep shift more s = .next t →
      t.blk.op = s.blk.op ∧ t.blk.offset = s.blk.offset ∧ t.blk.srcLen = s.blk.srcLen ∧ t.others = s.others := by
    intro shift more h
    unfold encoderStep at h
    split at h
    · simp only [Host.Outcome.next.injEq] at h
      subst h
      split <;> simp [finishOK, memWrite]
    · cases h
  have hdec : ∀ {overflow complete}, decoderStep overflow complete s = .next t →
      t.blk.op = s.blk.op ∧ t.blk.offset = s.blk.offset ∧ t.blk.srcLen = s.blk.srcLen ∧ t.others = s.others := by
    intro overflow complete h
    unfold decoderStep at h
    split at h
    · simp only at h
      split at h
      · cases h; exact ⟨rfl, rfl, rfl, rfl⟩
      · split at h
        · cases h
        · split at h
          · cases h; exact ⟨rfl, rfl, rfl, rfl⟩
          · split at h <;> simp only [Host.Outcome.next.injEq] at h <;> subst h <;> simp [finishOK, noteRead]
    · cases h
  unfold stepOperation at h
  split at h
  · cases h
  · split at h
    · exact henc h
    · exact hdec h
    · exact henc h
    · exact hdec h

/-- A command that answers a next state could be issued. -/
theorem mayIssue_of_exec {i : Instr} (h : exec i s = .next t) : s.mayIssue i := by
  rw [exec_turns, andThen_eq_next] at h
  obtain ⟨u, h, -⟩ := h
  exact (startInstr_eq_next.1 h).1

end Sys2Proof.Machine
end

