-- ==== Sys2Proof/Laws/Invariant.lean ====
section
/-! SUPPORT. Laws/Invariant.lean: what a block step leaves for the invariant (Safety.lean), said once. -/

namespace Sys2Proof.Machine

/-- What a step of the selected block answers, as far as the invariant sees it: well-formed registers, ordered memory,
raced positions inside the sink range, and ranges that stay or become empty. -/
structure BlockStep (s t : State) : Prop where
  w : t.usizeBits = s.usizeBits
  others : t.others = s.others
  blk : t.blk.WellFormed s.usizeBits
  mem : Memory.wf t.mem
  raced : ∀ a ∈ t.port.raced, inRange (sinkRange (t.blk, t.port)) a = true
  sink : sinkRange (t.blk, t.port) = sinkRange (s.blk, s.port) ∨ sinkRange (t.blk, t.port) = (0,0)
  src : sourceRange (t.blk, t.port) = sourceRange (s.blk, s.port) ∨ sourceRange (t.blk, t.port) = (0,0)

/-- The invariant after such a step. -/
theorem BlockStep.inv {s t : State} (g : BlockStep s t) (i : s.Inv) : t.Inv := by
  obtain ⟨hw, hb, hm, hr, hd⟩ := i
  simp only [State.agents] at hb hr hd
  rw [List.forall_mem_cons] at hb hr
  rw [List.pairwise_cons] at hd
  refine ⟨g.w ▸ hw, ?_, g.mem, ?_, ?_⟩
  · rw [State.agents, List.forall_mem_cons, g.others, g.w]; exact ⟨g.blk, hb.2⟩
  · rw [State.agents, List.forall_mem_cons, g.others]; exact ⟨g.raced, hr.2⟩
  · rw [State.agents, List.pairwise_cons, g.others]
    refine ⟨fun u hu => ?_, hd.2⟩
    have := hd.1 u hu
    simp only [raceBetween, sharedSink, Bool.or_eq_false_iff] at this ⊢
    rcases g.sink with h | h <;> rcases g.src with h' | h' <;> rw [h, h'] <;> simp [overlaps_empty_left, this]


/-- No position is raced beside an empty sink range. -/
theorem State.Inv.raced_nil {s : State} (i : s.Inv) (h : sinkRange (s.blk, s.port) = (0,0)) : s.port.raced = [] := by
  have := i.raced (s.blk, s.port) List.mem_cons_self
  rw [h] at this
  simp only [inRange_empty] at this
  exact List.eq_nil_iff_forall_not_mem.2 fun a ha => by simpa using this a ha


/-- finishOK (R38). -/
theorem finishOK_blockStep {s t : State} {n : Nat} {v : Option Bits128} (i : s.Inv) (hw : t.usizeBits = s.usizeBits)
   (ho : t.others = s.others) (hm : Memory.wf t.mem) (hb : t.blk.state = .busy)
   (hop : t.blk.op = s.blk.op) (hof : t.blk.offset = s.blk.offset) (hsl : t.blk.srcLen = s.blk.srcLen)
   (hv : t.blk.vout = none) (hn : n < 2 ^ s.usizeBits) (hvv : v.isSome → ∃ op ∈ s.blk.op, isEncode op = false) :
   BlockStep s (finishOK n v t) := by
  have hset : ∀ x : State, (settleRaced x).usizeBits = x.usizeBits ∧ (settleRaced x).others = x.others ∧ (settleRaced x).blk = x.blk ∧ (settleRaced x).port.raced = [] := by
    intro x; unfold settleRaced; rw [drawRaced_eq]; exact ⟨rfl, rfl, rfl, rfl⟩
  have hst : (finishOK n v t).blk.state = .idle := rfl
  have hi := (i.blocks _ List.mem_cons_self : s.blk.WellFormed s.usizeBits)
  refine ⟨by simp [finishOK, hset, hw], by simp [finishOK, hset, ho], ?_, ?_, ?_, Or.inr (sinkRange_idle hst), Or.inr (sourceRange_idle hst)⟩
  · constructor
    · simp [hst]
    · simp [hst]
    · intro _; exact ⟨rfl, rfl, rfl⟩
    · change errOk ≠ 3; decide
    · intro h; exact absurd rfl h
    · intro h
      refine ⟨rfl, ?_⟩
      change (v.or t.blk.vout).isSome = true at h
      rw [hv] at h
      change ∃ op ∈ t.blk.op, _
      rw [hop]; apply hvv; simpa using h
    · change ∀ n ∈ t.blk.offset, _; rw [hof]; exact hi.offset_fits
    · change ∀ n ∈ t.blk.srcLen, _; rw [hsl]; exact hi.srcLen_fits
    · intro m hm; change some n = some m at hm; cases hm; exact hn
    · intro m hm; change none = some m at hm; cases hm
    · simp [hst]
    · simp [hst]
  · change Memory.wf (settleRaced t).mem; rw [settleRaced_mem]; exact drawRaced_wf _ _ hm
  · intro a ha; simp [finishOK, hset] at ha


theorem lt_two_pow_of_le_nineteen {w n : Nat} (h : 5 ≤ w) (hn : n ≤ 19) : n < 2 ^ w :=
  lt_of_lt_of_le (show n < 2^5 by omega) (Nat.pow_le_pow_right (by omega) h)

/-- An encoder step (R100, R120). -/
theorem encoderStep_blockStep {s t : State} {op : BitVec 2} {shift : Bits128 → Bits128} {more : Payload → Bits128 → Bool} (i : s.Inv) (hb : s.blk.state = .busy) (hop : s.blk.op = some op)
   (h : IsEncoder op shift more)
   (ht : encoderStep shift more s = .next t) : BlockStep s t := by
  have hi := (i.blocks _ List.mem_cons_self : s.blk.WellFormed s.usizeBits)
  have hw : 5 ≤ s.usizeBits := i.width
  obtain ⟨-, -, -, hr, -, hk⟩ := hi.busy_holds hb
  obtain ⟨rem, hr⟩ := Option.isSome_iff_exists.1 hr
  obtain ⟨k, hk⟩ := Option.isSome_iff_exists.1 hk
  have he : isEncode op = true := by rcases h with ⟨rfl, -⟩ | ⟨rfl, -⟩ <;> rfl
  have hT := hi.encode_bounded hb op hop he rem hr k hk
  have hp := encodeTotal_pos op rem k
  rw [encoderStep_eq hr hk] at ht
  obtain ⟨hv, hc, herr⟩ := hi.busy_no_result hb
  cases hm : more (lowGroup rem) (shift rem)
  · simp only [hm, Bool.false_eq_true, if_false, Host.Outcome.next.injEq] at ht
    subst ht
    refine finishOK_blockStep i rfl rfl (Memory.write_wf _ _ _ i.memory) hb rfl rfl rfl hv (lt_two_pow_of_le_nineteen hw (by omega)) (by simp)
  · have hs := encodeTotal_shift (k := k) h hm
    simp only [hm, if_true, Host.Outcome.next.injEq] at ht
    subst ht
    have hp' := encodeTotal_pos op (shift rem) (k+1)
    have hsink : sinkRange (((memWrite s k (wireByte true (lowGroup rem))).withBlk { s.blk with rem := some (shift rem), k := some (k + 1) }).blk, ((memWrite s k (wireByte true (lowGroup rem))).withBlk { s.blk with rem := some (shift rem), k := some (k + 1) }).port) = sinkRange (s.blk, s.port) := by
      have hr' : s.blk.rem = some rem := hr
      have hk' : s.blk.k = some k := hk
      simp [sinkRange, memWrite, hb, hop, he, hr', hk', hs]
    refine ⟨rfl, rfl, ?_, Memory.write_wf _ _ _ i.memory, ?_, Or.inl hsink, Or.inl ?_⟩
    · constructor
      · intro _; have := hi.busy_holds hb; exact ⟨this.1, this.2.1, this.2.2.1, rfl, this.2.2.2.2.1, rfl⟩
      · intro _; exact hi.busy_no_result hb
      · intro h; change s.blk.state = .idle at h; rw [hb] at h; cases h
      · exact hi.err_legal
      · exact hi.error_no_result
      · exact hi.vout_of_decode
      · exact hi.offset_fits
      · exact hi.srcLen_fits
      · exact hi.count_fits
      · intro m hm; change some (k+1) = some m at hm; cases hm; exact lt_two_pow_of_le_nineteen hw (by omega)
      · intro _ op' hop' _ r hr' k' hk'
        change s.blk.op = some op' at hop'; rw [hop] at hop'; cases hop'
        change some (shift rem) = some r at hr'; cases hr'
        change some (k+1) = some k' at hk'; cases hk'
        omega
      · intro _ op' hop' he'
        change s.blk.op = some op' at hop'; rw [hop] at hop'; cases hop'
        rw [he] at he'; cases he'
    · intro a ha
      rw [hsink]; exact i.raced (s.blk, s.port) List.mem_cons_self a ha
    · rfl

/-- A decoder step (R103, R123). -/
theorem decoderStep_blockStep {s t : State} {op : BitVec 2} {overflow : Payload → Nat → Bits128 → Bool}
    {complete : Bits128 → Payload → Nat → Bits128} (i : s.Inv) (hb : s.blk.state = .busy) (hop : s.blk.op = some op)
   (he : isEncode op = false)
   (ht : decoderStep overflow complete s = .next t) : BlockStep s t := by
  have hi := (i.blocks _ List.mem_cons_self : s.blk.WellFormed s.usizeBits)
  obtain ⟨-, ho, hl, -, ha, hk⟩ := hi.busy_holds hb
  obtain ⟨o, ho⟩ := Option.isSome_iff_exists.1 ho
  obtain ⟨l, hl⟩ := Option.isSome_iff_exists.1 hl
  obtain ⟨acc, ha⟩ := Option.isSome_iff_exists.1 ha
  obtain ⟨k, hk⟩ := Option.isSome_iff_exists.1 hk
  obtain ⟨hv, hc, herr⟩ := hi.busy_no_result hb
  have hl' := hi.srcLen_fits l hl
  have hraced : s.port.raced = [] := State.Inv.raced_nil i (sinkRange_decode hop he)
  have raise : ∀ (x : State) (c : BitVec 2), c ≠ 3 → x.usizeBits = s.usizeBits → x.others = s.others → x.blk = s.blk → x.mem = s.mem → x.port.raced = [] → BlockStep s (raiseError c x) := by
    intro x c h3 h1 h2 hxb hxm hxr
    have hst : (raiseError c x).blk.state = .idle := rfl
    refine ⟨h1, h2, ?_, ?_, ?_, Or.inr (sinkRange_idle hst), Or.inr (sourceRange_idle hst)⟩
    · constructor
      · simp [hst]
      · simp [hst]
      · intro _; exact ⟨rfl, rfl, rfl⟩
      · exact h3
      · intro _; change x.blk.vout = none ∧ x.blk.count = none; rw [hxb]; exact ⟨hv, hc⟩
      · intro h; change x.blk.vout.isSome = true at h; rw [hxb, hv] at h; cases h
      · change ∀ n ∈ x.blk.offset, _; rw [hxb]; exact hi.offset_fits
      · change ∀ n ∈ x.blk.srcLen, _; rw [hxb]; exact hi.srcLen_fits
      · change ∀ n ∈ x.blk.count, _; rw [hxb]; exact hi.count_fits
      · intro m hm; change none = some m at hm; cases hm
      · simp [hst]
      · simp [hst]
    · change Memory.wf x.mem; rw [hxm]; exact i.memory
    · intro a hx; change a ∈ x.port.raced at hx; rw [hxr] at hx; cases hx
  by_cases h : l ≤ o + k
  · rw [decoderStep_truncated ho hl ha hk h] at ht
    cases ht
    exact raise s _ (by decide) rfl rfl rfl rfl hraced
  · cases hmr : memRead s (o + k) with
    | none => rw [decoderStep_absent ho hl ha hk (by omega) hmr] at ht; cases ht
    | some b =>
      rw [decoderStep_read ho hl ha hk (by omega) hmr] at ht
      simp only [Host.Outcome.next.injEq] at ht
      split at ht
      · subst ht; exact raise _ _ (by decide) rfl rfl rfl rfl hraced
      · split at ht
        · subst ht
          refine ⟨rfl, rfl, ?_, i.memory, ?_, Or.inr (sinkRange_decode hop he), Or.inl rfl⟩
          · constructor
            · intro _; have := hi.busy_holds hb; exact ⟨this.1, this.2.1, this.2.2.1, this.2.2.2.1, rfl, rfl⟩
            · intro _; exact hi.busy_no_result hb
            · intro h; change s.blk.state = .idle at h; rw [hb] at h; cases h
            · exact hi.err_legal
            · exact hi.error_no_result
            · exact hi.vout_of_decode
            · exact hi.offset_fits
            · exact hi.srcLen_fits
            · exact hi.count_fits
            · intro m hm; change some (k+1) = some m at hm; cases hm; omega
            · intro _ op' hop' he'
              change s.blk.op = some op' at hop'; rw [hop] at hop'; cases hop'
              rw [he] at he'; cases he'
            · intro _ _ _ _ o' ho' l'' hl'' k' hk'
              change s.blk.offset = some o' at ho'; rw [ho] at ho'; cases ho'
              change s.blk.srcLen = some l'' at hl''; rw [hl] at hl''; cases hl''
              change some (k+1) = some k' at hk'; cases hk'
              right; omega
          · intro a hx; change a ∈ s.port.raced at hx; rw [hraced] at hx; cases hx
        · subst ht
          exact finishOK_blockStep i rfl rfl i.memory hb rfl rfl rfl hv (by omega) (fun _ => ⟨op, hop, he⟩)


/-- A step of a BUSY block (R35). -/
theorem stepOperation_blockStep {s t : State} (i : s.Inv) (hb : s.blk.state = .busy) (ht : stepOperation s = .next t) : BlockStep s t := by
  have hi := (i.blocks _ List.mem_cons_self : s.blk.WellFormed s.usizeBits)
  obtain ⟨op, hop⟩ := Option.isSome_iff_exists.1 (hi.busy_holds hb).1
  rw [stepOperation, hop] at ht
  rcases bit0_of_op op with (rfl | rfl) | (rfl | rfl) <;> simp [stepEncu, stepDecu, stepEncs, stepDecs] at ht
  · exact encoderStep_blockStep i hb hop (Or.inl ⟨rfl, rfl, rfl⟩) ht
  · exact encoderStep_blockStep i hb hop (Or.inr ⟨rfl, rfl, rfl⟩) ht
  · exact decoderStep_blockStep i hb hop rfl ht
  · exact decoderStep_blockStep i hb hop rfl ht

end Sys2Proof.Machine
end

