-- ==== Sys2Proof/Laws/PerInstr.lean ====
section
/-! SUPPORT. Laws/PerInstr.lean: the family `CommandWord`, one lemma per command. -/

namespace Sys2Proof.Laws.CommandWord

/-- The two low bits of a command's START tuple are its command word, whatever the operands (R78, R82). -/
def Statement (i : Instr) : Prop := ∀ w : Nat, encodeTuple w i % 4 = i.op.toNat

theorem encu (v : Bits128) (o l : Nat) : Statement (.encu v o l) := fun w => by
  simp [encodeTuple, Instr.op]

theorem decu (v : Bits128) (o l : Nat) : Statement (.decu v o l) := fun w => by
  simp [encodeTuple, Instr.op]

theorem encs (v : Bits128) (o l : Nat) : Statement (.encs v o l) := fun w => by
  simp [encodeTuple, Instr.op]

theorem decs (v : Bits128) (o l : Nat) : Statement (.decs v o l) := fun w => by
  simp [encodeTuple, Instr.op]

end Sys2Proof.Laws.CommandWord
end

