-- ==== Sys2Proof/Laws/Sequence.lean ====
section
/-! SUPPORT. Laws/Sequence.lean: a decode whose source holds an encoded sequence: where it stops, and when a signed
value fits. -/

namespace Sys2Proof.Machine

theorem sourceByte_of_holds {s : State} {o : Nat} {bs : List Byte} (h : s.sourceHolds o bs) {n : Nat}
    (hn : n < bs.length) : s.sourceByte o n = bs[n] := by
  simp [State.sourceByte, h n hn]

theorem sourceBytes_of_holds {s : State} {o : Nat} {bs : List Byte} (h : s.sourceHolds o bs) :
    s.sourceBytes o bs.length = bs := by
  apply List.ext_getElem
  · simp
  · intro i _ h2
    simp [State.sourceBytes, sourceByte_of_holds h h2]

theorem memRead_of_holds {s : State} {o : Nat} {bs : List Byte} (h : s.sourceHolds o bs) {n : Nat}
    (hn : n < bs.length) : (memRead s (o + n)).isSome := by
  simp [h n hn]

/-- R71, byte by byte. -/
theorem isSequence_iff (bs : List Byte) :
    isSequence bs = true ↔ bs ≠ [] ∧ ∀ k (hk : k < bs.length), continues bs[k] = decide (k + 1 < bs.length) := by
  induction bs with
  | nil => simp [isSequence]
  | cons b bs ih =>
    cases bs with
    | nil => simp [isSequence]
    | cons c bs =>
      rw [isSequence, Bool.and_eq_true, ih]
      constructor
      · rintro ⟨h1, -, h2⟩
        refine ⟨by simp, fun k hk => ?_⟩
        cases k with
        | zero => simpa using h1
        | succ k => simpa using h2 k (by simpa using hk)
      · rintro ⟨-, h⟩
        refine ⟨(h 0 (by simp)).trans (by simp), by simp, fun k hk => ?_⟩
        exact (h (k + 1) (by simpa using hk)).trans (by simp)

/-- A decode of a sequence stops at its first overflowing byte, or at its terminating byte (R77, R145). -/
theorem sequence_stop {overflow : Payload → Nat → Bits128 → Bool} {s : State} {o l : Nat} {bs : List Byte}
    (hs : isSequence bs = true) (h : s.sourceHolds o bs) (hl : o + bs.length ≤ l) :
    (∃ m < bs.length, overflow (payload (s.sourceByte o m)) m (s.accumulated o m) = true ∧
      s.stopsAt overflow o l m ∧ ∀ k < m, ¬ s.stopsAt overflow o l k) ∨
    ((∀ k < bs.length, overflow (payload (s.sourceByte o k)) k (s.accumulated o k) = false) ∧
      s.stopsAt overflow o l (bs.length - 1) ∧ ∀ k < bs.length - 1, ¬ s.stopsAt overflow o l k) := by
  obtain ⟨hne, hc⟩ := (isSequence_iff bs).1 hs
  have hpos : 0 < bs.length := List.length_pos_of_ne_nil hne
  have hcont : ∀ k, k + 1 < bs.length → continues (s.sourceByte o k) = true := by
    intro k hk
    rw [sourceByte_of_holds h (by omega), hc k (by omega)]
    simpa using hk
  classical
  by_cases hov : ∃ m, m < bs.length ∧ overflow (payload (s.sourceByte o m)) m (s.accumulated o m) = true
  · have h2 := (Nat.find_spec hov).1
    refine Or.inl ⟨Nat.find hov, h2, (Nat.find_spec hov).2, Or.inr (Or.inl (Nat.find_spec hov).2), fun k hk => ?_⟩
    have h1 := Nat.find_min hov hk
    rintro (h3 | h3 | h3)
    · omega
    · exact h1 ⟨by omega, h3⟩
    · rw [hcont k (by omega)] at h3; simp at h3
  · have hov' : ∀ k < bs.length, overflow (payload (s.sourceByte o k)) k (s.accumulated o k) = false :=
      fun k hk => by simpa using fun hh => hov ⟨k, hk, hh⟩
    refine Or.inr ⟨hov', Or.inr (Or.inr ?_), fun k hk => ?_⟩
    · rw [sourceByte_of_holds h (by omega), hc _ (by omega)]; simp; omega
    · rintro (h3 | h3 | h3)
      · omega
      · rw [hov' k (by omega)] at h3; simp at h3
      · rw [hcont k (by omega)] at h3; simp at h3

/-! ## When an unsigned value fits -/

theorem unsigned_fits (s : State) (o n : Nat) :
    (∀ k < n, overflowU (payload (s.sourceByte o k)) k (s.accumulated o k) = false) ↔
      denoteU (s.sourceBytes o n) < 2 ^ 128 := by
  induction n with
  | zero => simp [State.sourceBytes, denoteU]
  | succ n ih =>
    have hlt := denoteU_lt (s.sourceBytes o n)
    rw [sourceBytes_length] at hlt
    rw [Nat.forall_lt_succ_right, ih, denoteU_sourceBytes_succ]
    constructor
    · rintro ⟨h1, h2⟩
      by_contra hc
      rw [(overflowU_value _ _ _ hlt h1).2 (by omega)] at h2
      simp at h2
    · intro h
      have h1 : denoteU (s.sourceBytes o n) < 2 ^ 128 := by omega
      refine ⟨h1, ?_⟩
      rw [← Bool.not_eq_true, overflowU_value _ _ _ hlt h1]
      omega

/-! ## When a signed value fits -/

/-- A group lands at its own seven bits and nowhere else (R55). -/
theorem accumulate_getLsbD (acc : Bits128) (p : Payload) (k : Nat) {i : Nat} (hi : i < 128) :
    (accumulate acc p k).getLsbD i = (acc.getLsbD i || (decide (7 * k ≤ i) && p.getLsbD (i - 7 * k))) := by
  unfold accumulate
  split
  · rw [BitVec.getLsbD_or, BitVec.getLsbD_shiftLeft, BitVec.getLsbD_setWidth]
    by_cases h : 7 * k ≤ i
    · have h1 : ¬ i < 7 * k := by omega
      have h2 : i - 7 * k < 128 := by omega
      simp [hi, h1, h, h2]
    · have h1 : i < 7 * k := by omega
      simp [hi, h, h1]
  · have : ¬ 7 * k ≤ i := by omega
    simp [this]

/-- R124: at K ≥ 19, ACC[127] holds bit 1 of the payload read at K = 18. -/
theorem accumulated_top (s : State) (o : Nat) {k : Nat} (hk : 19 ≤ k) :
    (s.accumulated o k).getLsbD 127 = (payload (s.sourceByte o 18)).getLsbD 1 := by
  induction k, hk using Nat.le_induction with
  | base =>
    rw [accumulated_succ, accumulate_getLsbD _ _ _ (by omega)]
    have h1 := denoteU_lt (s.sourceBytes o 18)
    rw [sourceBytes_length] at h1
    have h2 : (s.accumulated o 18).toNat < 2 ^ 127 := by
      rw [accumulated_toNat]
      exact lt_of_le_of_lt (Nat.mod_le _ _) (lt_of_lt_of_le h1 (Nat.pow_le_pow_right (by omega) (by omega)))
    have h3 : (s.accumulated o 18).getLsbD 127 = false := by
      rw [BitVec.getLsbD, Nat.testBit_lt_two_pow h2]
    rw [h3]; simp
  | succ k hk ih =>
    rw [accumulated_succ, accumulate_getLsbD _ _ _ (by omega), ih]
    have : ¬ 7 * k ≤ 127 := by omega
    simp [this]

theorem denoteS_single (b : Byte) :
    denoteS [b] = if 64 ≤ (payload b).toNat then ((payload b).toNat : Int) - 128 else (payload b).toNat := by
  have hb : (payload b).getLsbD 6 = decide (64 ≤ (payload b).toNat) := by
    have := (payload b).isLt
    rw [BitVec.getLsbD, Nat.testBit_eq_decide_div_mod_eq, decide_eq_decide]; omega
  simp only [denoteS, denoteU, lastSign, List.getLast?_singleton, hb, List.length_singleton]
  by_cases h : 64 ≤ (payload b).toNat <;> simp [h]

theorem denoteS_cons (b : Byte) {bs : List Byte} (h : bs ≠ []) :
    denoteS (b :: bs) = (payload b).toNat + 128 * denoteS bs := by
  have := denoteS_append [b] h
  simpa [denoteU] using this

theorem denoteS_eq_zero {bs : List Byte} (h : bs ≠ []) : denoteS bs = 0 ↔ ∀ b ∈ bs, payload b = rep7 false := by
  have hz (b : Byte) : payload b = rep7 false ↔ (payload b).toNat = 0 := by
    rw [← BitVec.toNat_inj]; simp [rep7]
  induction bs with
  | nil => simp at h
  | cons b bs ih =>
    have hp := (payload b).isLt
    cases bs with
    | nil =>
      rw [denoteS_single, List.forall_mem_singleton, hz]
      split <;> omega
    | cons c bs =>
      have hi := ih (List.cons_ne_nil c bs)
      rw [denoteS_cons b (by simp), List.forall_mem_cons, hz]
      exact ⟨fun h => ⟨by omega, hi.1 (by omega)⟩, fun ⟨h₁, h₂⟩ => by have := hi.2 h₂; omega⟩

theorem denoteS_eq_neg_one {bs : List Byte} (h : bs ≠ []) : denoteS bs = -1 ↔ ∀ b ∈ bs, payload b = rep7 true := by
  have hz (b : Byte) : payload b = rep7 true ↔ (payload b).toNat = 127 := by
    rw [← BitVec.toNat_inj]; simp [rep7]
  induction bs with
  | nil => simp at h
  | cons b bs ih =>
    have hp := (payload b).isLt
    cases bs with
    | nil =>
      rw [denoteS_single, List.forall_mem_singleton, hz]
      split <;> omega
    | cons c bs =>
      have hi := ih (List.cons_ne_nil c bs)
      rw [denoteS_cons b (by simp), List.forall_mem_cons, hz]
      exact ⟨fun h => ⟨by omega, hi.1 (by omega)⟩, fun ⟨h₁, h₂⟩ => by have := hi.2 h₂; omega⟩

/-- The test at K = 18 in numbers. -/
theorem overflowS_eighteen (p : Payload) (acc : Bits128) :
    overflowS p 18 acc = false ↔ (p.toNat ≤ 1 ∧ p.getLsbD 1 = false) ∨ (126 ≤ p.toNat ∧ p.getLsbD 1 = true) := by
  have h : overflowS p 18 acc = !(p.extractLsb 6 1 == 0 || p.extractLsb 6 1 == BitVec.allOnes 6) := rfl
  rw [h]
  clear h acc
  revert p
  decide

/-- No byte overflows exactly when the denoted value has 128 bits (R124). -/
theorem signed_fits (s : State) (o : Nat) {n : Nat} (hn : 1 ≤ n) :
    (∀ k < n, overflowS (payload (s.sourceByte o k)) k (s.accumulated o k) = false) ↔
      -2 ^ 127 ≤ denoteS (s.sourceBytes o n) ∧ denoteS (s.sourceBytes o n) ≤ 2 ^ 127 - 1 := by
  by_cases h18 : n ≤ 18
  · have hne : s.sourceBytes o n ≠ [] := List.ne_nil_of_length_pos (by simp; omega)
    obtain ⟨h1, h2⟩ := denoteS_range hne
    rw [sourceBytes_length] at h1 h2
    have h3 : (2 : Int) ^ (7 * n - 1) ≤ 2 ^ 127 := pow_le_pow_right₀ (by norm_num) (by omega)
    refine ⟨fun _ => ⟨by omega, by omega⟩, fun _ k hk => ?_⟩
    simp [overflowS, show k ≤ 17 by omega]
  · obtain ⟨r, rfl⟩ : ∃ r, n = 19 + r := ⟨n - 19, by omega⟩
    set rest := (List.range r).map fun j => s.sourceByte o (19 + j) with hrest
    have hbytes : s.sourceBytes o (19 + r) = s.sourceBytes o 18 ++ (s.sourceByte o 18 :: rest) := by
      have h19 : s.sourceBytes o 19 = s.sourceBytes o 18 ++ [s.sourceByte o 18] := sourceBytes_succ s o 18
      rw [State.sourceBytes, List.range_add, List.map_append, List.map_map]
      change s.sourceBytes o 19 ++ _ = _
      rw [h19, List.append_assoc, List.singleton_append]
      rfl
    have hd := denoteU_lt (s.sourceBytes o 18)
    rw [sourceBytes_length] at hd
    have hq := (payload (s.sourceByte o 18)).isLt
    have hlater : (∀ k < 19 + r, overflowS (payload (s.sourceByte o k)) k (s.accumulated o k) = false) ↔
        overflowS (payload (s.sourceByte o 18)) 18 (s.accumulated o 18) = false ∧
        ∀ b ∈ rest, payload b = rep7 ((payload (s.sourceByte o 18)).getLsbD 1) := by
      have hov (j : Nat) : overflowS (payload (s.sourceByte o (19 + j))) (19 + j) (s.accumulated o (19 + j)) = false ↔
          payload (s.sourceByte o (19 + j)) = rep7 ((payload (s.sourceByte o 18)).getLsbD 1) := by
        rw [overflowS, if_neg (by omega), if_neg (by omega), accumulated_top s o (by omega)]
        simp
      constructor
      · intro h
        refine ⟨h 18 (by omega), fun b hb => ?_⟩
        obtain ⟨j, hj, rfl⟩ := List.mem_map.1 hb
        exact (hov j).1 (h _ (by simp at hj; omega))
      · rintro ⟨h1, h2⟩ k hk
        rcases lt_trichotomy k 18 with h | rfl | h
        · simp [overflowS, show k ≤ 17 by omega]
        · exact h1
        · obtain ⟨j, rfl⟩ : ∃ j, k = 19 + j := ⟨k - 19, by omega⟩
          exact (hov j).2 (h2 _ (List.mem_map.2 ⟨j, by simp; omega, rfl⟩))
    rw [hlater, overflowS_eighteen, hbytes, denoteS_append _ (by simp), sourceBytes_length]
    have hT : (-2 ^ 127 ≤ (denoteU (s.sourceBytes o 18) : Int) + 2 ^ (7 * 18) * denoteS (s.sourceByte o 18 :: rest) ∧
        (denoteU (s.sourceBytes o 18) : Int) + 2 ^ (7 * 18) * denoteS (s.sourceByte o 18 :: rest) ≤ 2 ^ 127 - 1) ↔
        -2 ≤ denoteS (s.sourceByte o 18 :: rest) ∧ denoteS (s.sourceByte o 18 :: rest) ≤ 1 := by
      generalize denoteS (s.sourceByte o 18 :: rest) = T
      generalize denoteU (s.sourceBytes o 18) = d at *
      norm_num at hd ⊢
      omega
    rw [hT]
    by_cases hr : rest = []
    · rw [hr, denoteS_single]
      simp only [List.not_mem_nil, false_imp_iff, implies_true, and_true]
      generalize payload (s.sourceByte o 18) = p
      revert p
      decide
    · rw [denoteS_cons _ hr]
      have h0 := denoteS_eq_zero hr
      have h1 := denoteS_eq_neg_one hr
      generalize hp : payload (s.sourceByte o 18) = p at *
      constructor
      · rintro ⟨⟨h2, h3⟩ | ⟨h2, h3⟩, h4⟩
        · rw [h3] at h4; rw [h0.2 h4]; omega
        · rw [h3] at h4; rw [h1.2 h4]; omega
      · intro h2
        have h5 : (denoteS rest = 0 ∧ p.toNat ≤ 1) ∨ (denoteS rest = -1 ∧ 126 ≤ p.toNat) := by omega
        rcases h5 with ⟨h5, h6⟩ | ⟨h5, h6⟩
        · have h7 : p.getLsbD 1 = false := by
            have : ∀ p : Payload, p.toNat ≤ 1 → p.getLsbD 1 = false := by decide
            exact this p h6
          exact ⟨Or.inl ⟨h6, h7⟩, by rw [h7]; exact h0.1 h5⟩
        · have h7 : p.getLsbD 1 = true := by
            have : ∀ p : Payload, 126 ≤ p.toNat → p.getLsbD 1 = true := by decide
            exact this p h6
          exact ⟨Or.inr ⟨h6, h7⟩, by rw [h7]; exact h1.1 h5⟩

end Sys2Proof.Machine
end

