-- ==== Sys2Proof/Tests/Slice0.lean ====
section
/-! SUPPORT. Tests/Slice0.lean: the smoke test of WellFormed, tuples written out from the spec, two vectors of
95_test_vectors.md per command, and for every statement with hypotheses a state that meets them all. -/

namespace Sys2Proof.Tests

open Sys2Proof.Machine

/-! ## WellFormed -/

theorem test_wide_offset_refused : ¬ (Instr.decu 0 256 0).wellFormed 8 := by decide
theorem test_wide_source_length_refused : ¬ (Instr.decs 0 0 256).wellFormed 8 := by decide
theorem test_widest_operands_accepted : (Instr.decs 0 255 255).wellFormed 8 := by decide

/-! ## Tuples written out from R78 and R82, W = 5: OP in bits 1:0, vin in 129:2, offset in 134:130, src_len in
139:135 -/

/-- `OP=0b00 vin=300 offset=0 src_len=0`: 300 is 0b100101100, two bits up. -/
theorem test_decode_encu :
    decode 5 [0b10110000, 0b00000100, 0, 0, 0, 0, 0, 0, 0, 0, 0, 0, 0, 0, 0, 0, 0, 0] = .ok (.encu 300 0 0) := by decide

/-- `OP=0b01 vin=0 offset=3 src_len=9`. -/
theorem test_decode_decu :
    decode 5 [0b00000001, 0, 0, 0, 0, 0, 0, 0, 0, 0, 0, 0, 0, 0, 0, 0, 0b10001100, 0b00000100] = .ok (.decu 0 3 9) := by
  decide

/-- `OP=0b10 vin=bv(−2^127) offset=0 src_len=0`: only vin's bit 127 is set, which is the tuple's bit 129. -/
theorem test_decode_encs :
    decode 5 [0b00000010, 0, 0, 0, 0, 0, 0, 0, 0, 0, 0, 0, 0, 0, 0, 0, 0b00000010, 0] =
      .ok (.encs (bv (-2 ^ 127)) 0 0) := by decide

/-- `OP=0b11 vin=0 offset=31 src_len=16`. -/
theorem test_decode_decs :
    decode 5 [0b00000011, 0, 0, 0, 0, 0, 0, 0, 0, 0, 0, 0, 0, 0, 0, 0, 0b01111100, 0b00001000] = .ok (.decs 0 31 16) := by
  decide

theorem test_decode_short_refused : decode 5 [0, 0] = .error .wrongLength := by decide

/-- Bit 140 is above src_len. -/
theorem test_decode_padding_refused :
    decode 5 [0, 0, 0, 0, 0, 0, 0, 0, 0, 0, 0, 0, 0, 0, 0, 0, 0, 0b00010000] = .error .strayPadding := by decide

theorem test_table_word_encu : decodeTableWord 8 0b00 = some (.encu 0 0 0) := by decide
theorem test_table_word_decu : decodeTableWord 8 0b01 = some (.decu 0 0 0) := by decide
theorem test_table_word_encs : decodeTableWord 8 0b10 = some (.encs 0 0 0) := by decide
theorem test_table_word_decs : decodeTableWord 8 0b11 = some (.decs 0 0 0) := by decide

/-! ## Program text (R81, programs P1 and P3) -/

theorem test_program_text :
    programText "  SETC 0\n ENCU 300\n ENCS -129\n DECU c   ; 300\n\n DECS c   ; -129".toList =
      some [.setc 0, .encu 300, .encs (-129), .decuCursor, .decsCursor] := by decide

theorem test_line_text :
    lineText "top: ENCU 2^128-1 ; largest".toList = some (.encu (2 ^ 128 - 1)) ∧
    lineText "ENCS -2^127+0x1F".toList = some (.encs (-2 ^ 127 + 31)) ∧ lineText "DECU".toList = none ∧
    lineText "ENCU c".toList = none := by decide

/-! ## States -/

/-- An IDLE block, W = 8, with these source bytes from index 0 on; the sink lies at the same addresses. -/
def ready (bytes : List Byte) : State := { State.reset with usizeBits := 8, mem := Memory.writeAll [] 0 bytes }

/-- A block in the middle of an operation. -/
def running (op : BitVec 2) (offset srcLen : Nat) (rem acc : Bits128) (k : Nat) (bytes : List Byte) : State :=
  { ready bytes with
    blk := { op := some op, offset := some offset, srcLen := some srcLen, vout := none, count := none, state := .busy
             err := 0, rem := some rem, acc := some acc, k := some k } }

/-- The same state with these actions to come. -/
def before (acts : List Action) (s : State) : State := s.withActions acts

/-- The outcome is a next state with this property. -/
def yields (r : Result) (p : State → Bool) : Bool :=
  match r with
  | .next s => p s
  | .fault _ => false
  | .refused _ => false

/-- The outcome is this fault. -/
def faults (r : Result) (e : Fault) : Bool :=
  match r with
  | .next _ => false
  | .fault f => f == e
  | .refused _ => false

/-! ## Vectors of 95_test_vectors.md -/

/-- 2.1: 300 is [0xAC, 0x02], COUNT = 2. -/
theorem test_encu_300 : yields (exec (.encu 300 0 0) (ready []))
    (fun t => t.mem == [(0, 0xAC), (1, 0x02)] && t.blk.count == some 2 && t.blk.vout == none) = true := by decide

/-- E2: 2^128 − 1 is [0xFF ×18, 0x03], COUNT = 19. -/
theorem test_encu_max : yields (exec (.encu (BitVec.allOnes 128) 0 0) (ready []))
    (fun t => t.mem.map Prod.snd == List.replicate 18 0xFF ++ [0x03] && t.blk.count == some 19) = true := by decide

/-- 2.2: [0xE5, 0x8E, 0x26] is 624485, COUNT = 3. -/
theorem test_decu_624485 : yields (exec (.decu 0 0 3) (ready [0xE5, 0x8E, 0x26]))
    (fun t => t.blk.vout == some 624485 && t.blk.count == some 3 && t.blk.err == 0) = true := by decide

/-- R103: [0xFF ×18, 0x04] is an Overflow. -/
theorem test_decu_overflow : yields (exec (.decu 0 0 19) (ready (List.replicate 18 0xFF ++ [0x04])))
    (fun t => t.blk.err == 2 && t.blk.vout == none && t.blk.count == none) = true := by decide

/-- R120: −123456 is [0xC0, 0xBB, 0x78], COUNT = 3. -/
theorem test_encs_negative : yields (exec (.encs (bv (-123456)) 0 0) (ready []))
    (fun t => t.mem == [(0, 0xC0), (1, 0xBB), (2, 0x78)] && t.blk.count == some 3) = true := by decide

/-- E10: 64 is [0xC0, 0x00], COUNT = 2. -/
theorem test_encs_64 : yields (exec (.encs 64 0 0) (ready []))
    (fun t => t.mem == [(0, 0xC0), (1, 0x00)] && t.blk.count == some 2) = true := by decide

/-- R123: [0xC0, 0xBB, 0x78] is −123456, VOUT = 0xFF...FE1DC0, COUNT = 3. -/
theorem test_decs_negative : yields (exec (.decs 0 0 3) (ready [0xC0, 0xBB, 0x78]))
    (fun t => t.blk.vout == some 0xFFFFFFFFFFFFFFFFFFFFFFFFFFFE1DC0 && t.blk.count == some 3) = true := by decide

/-- R145: [0xFF ×18, 0x83, 0x80] with SRC_LEN = 20 is an Overflow in DECS (and Truncated in DECU). -/
theorem test_decs_overflow_before_truncation :
    yields (exec (.decs 0 0 20) (ready (List.replicate 18 0xFF ++ [0x83, 0x80]))) (fun t => t.blk.err == 2) = true ∧
    yields (exec (.decu 0 0 20) (ready (List.replicate 18 0xFF ++ [0x83, 0x80]))) (fun t => t.blk.err == 1) = true := by
  decide

/-! ## A state that meets the hypotheses of each statement, one theorem for each; a boundary value for each clause -/

theorem exists_of_yields {r : Result} {p : State → Bool} (h : yields r p = true) : ∃ t, r = .next t ∧ p t = true := by
  cases r with
  | next t => exact ⟨t, rfl, h⟩
  | fault e => simp [yields] at h
  | refused e => simp [yields] at h

/-- A BUSY ENCU with this value and position. -/
def encoding (op : BitVec 2) (rem : Bits128) (k : Nat) : State := running op 0 0 rem 0 k []

/-- A BUSY decode of all of these bytes. -/
def decoding (op : BitVec 2) (acc : Bits128) (k : Nat) (bytes : List Byte) : State :=
  running op 0 bytes.length 0 acc k bytes

/-- A second block beside: the selected one is `s`'s, with its source and sink from this address on. -/
def beside (other s : State) (base : Nat) : State :=
  { s with port := { s.port with srcBase := base, sinkBase := base }, others := [(other.blk, other.port)] }

/-- `s` with a second block that runs an ENCU of 128 to the addresses 64 and 65. -/
def crowded (s : State) : State :=
  { s with others := [((encoding 0b00#2 128 0).blk, { Port.reset with srcBase := 64, sinkBase := 64 })] }

theorem crowded_ranges {s : State} {u : Agent} (h : u ∈ (crowded s).others) :
    sinkRange u = (64, 66) ∧ sourceRange u = (0, 0) := by
  obtain rfl := List.mem_singleton.1 h
  decide

theorem crowded_sourceUnshared {s : State} {o l : Nat} (h : s.port.srcBase + l ≤ 64) :
    (crowded s).sourceUnshared o l := by
  intro u hu x _ h₂
  have h₂ : x < s.port.srcBase + l := h₂
  rw [(crowded_ranges hu).1]
  simp only [inRange, decide_eq_false_iff_not]
  omega

theorem crowded_sinkUnshared {s : State} {base n : Nat} (h : base + n ≤ 64) : (crowded s).sinkUnshared base n := by
  intro u hu x _ h₂
  rw [(crowded_ranges hu).1, (crowded_ranges hu).2]
  simp only [inRange_empty, true_and, inRange, decide_eq_false_iff_not]
  omega

/-- The invariant of a state with one block, from checks that compute. -/
theorem inv_of {s : State} (hw : 5 ≤ s.usizeBits) (ho : s.others = []) (hb : s.blk.WellFormed s.usizeBits)
    (hm : Memory.wf s.mem) (hr : s.port.raced = []) : s.Inv := by
  refine ⟨hw, ?_, hm, ?_, ?_⟩ <;> simp [State.agents, ho, hb, hr]

theorem encoding_blk : (encoding 0b00#2 128 0).blk.WellFormed 8 := by
  constructor
  case encode_bounded =>
    rintro - _ ⟨⟩ - _ ⟨⟩ _ ⟨⟩
    decide
  all_goals decide

theorem encoding_inv : (encoding 0b00#2 128 0).Inv := inv_of (by decide) rfl encoding_blk (by decide) rfl

theorem witness_EveryStepKeepsTheInvariant :
    (encoding 0b00#2 128 0).Inv ∧ ∃ t, step (encoding 0b00#2 128 0) = .next t :=
  ⟨encoding_inv, _, rfl⟩

theorem witness_ResetAbandonsTheOperation : (before [.reset] (encoding 0b00#2 128 1)).actions = [.reset] := rfl

theorem witness_TableWordsDecode : 2 ≤ 2 ∧ 2 ≤ 8 := by decide

theorem witness_DecodeOfEncodeIsTheCommand :
    (Instr.encu (BitVec.allOnes 128) 255 255).wellFormed 8 ∧ (Instr.decu 0 255 255).wellFormed 8 ∧
    (Instr.encs (BitVec.allOnes 128) 255 0).wellFormed 8 ∧ (Instr.decs 0 0 255).wellFormed 8 := by decide

theorem witness_EncodeOfDecodeIsTheTuple :
    decode 5 [0b11, 0, 0, 0, 0, 0, 0, 0, 0, 0, 0, 0, 0, 0, 0, 0, 0b01111100, 0b00001000] = .ok (.decs 0 31 16) := by
  decide

/-- The tuple of `DECU`, offset 1, src_len 2, W = 8: bit 130 and bit 139. -/
def decuTuple : List Byte := [1, 0, 0, 0, 0, 0, 0, 0, 0, 0, 0, 0, 0, 0, 0, 0, 0b00000100, 0b00001000, 0]

theorem witness_StepRunsTheDecodedCommand :
    decode (before [.command decuTuple] (ready [])).usizeBits decuTuple = .ok (.decu 0 1 2) ∧
    decode (before [.start decuTuple] (ready [])).usizeBits decuTuple = .ok (.decu 0 1 2) ∧
    decode (ready []).usizeBits (tableBytes (ready []).usizeBits 8 0b11) = .ok (.decs 0 0 0) := by decide

theorem ready_mayIssue (bytes : List Byte) (i : Instr) (h : i.wellFormed 8) : (ready bytes).mayIssue i :=
  ⟨rfl, h, rfl⟩

theorem witness_StartLatchesTheOperands :
    (ready []).mayIssue (.decs 7 255 255) ∧
    (Instr.encu 7 255 0).wellFormed 8 ∧ (encoding 0b00#2 128 0).blk.state = .busy :=
  ⟨ready_mayIssue _ _ (by decide), by decide, rfl⟩

theorem witness_CommandWhileBusyFaults :
    (Instr.decs 0 0 255).wellFormed (encoding 0b00#2 128 0).usizeBits ∧ (encoding 0b00#2 128 0).blk.state = .busy := by
  decide

theorem witness_WideOperandIsRefused :
    ¬ (Instr.encu 0 256 0).wellFormed (ready []).usizeBits ∧ ¬ (Instr.encs 0 0 256).wellFormed (ready []).usizeBits := by
  decide

theorem witness_PayloadBitsAreValueBits : 6 < 7 ∧ 7 * 18 + 1 < 128 ∧ ¬ 7 * 18 + 2 < 128 ∧ 127 < 128 := by decide

theorem witness_UnsignedLengthIsMinimal :
    (2 ≤ 2 ∧ (2 ^ 128 - 1 : Nat) < 2 ^ 128) ∧
    ∃ t, exec (.encu (BitVec.allOnes 128) 0 0) (ready []) = .next t :=
  ⟨by decide, _, (exists_of_yields (p := fun _ => true) (by decide)).choose_spec.1⟩

theorem witness_SignedLengthIsMinimal :
    (1 ≤ 1 ∧ (-2 ^ (7 * 1 - 1) : Int) ≤ -64 ∧ (-64 : Int) < 2 ^ (7 * 1 - 1)) ∧
    ((-2 ^ 127 : Int) ≤ -2 ^ 127 ∧ (-2 ^ 127 : Int) < 2 ^ 127) ∧
    ∃ t, exec (.encs (bv (-2 ^ 127)) 0 0) (ready []) = .next t :=
  ⟨by decide, by decide, _, (exists_of_yields (p := fun _ => true) (by decide)).choose_spec.1⟩

/-- 128 as [0x80, 0x01], and 0 in two bytes. -/
theorem witness_UnsignedEncodingIsTheOnlyMinimalOne :
    (isSequence [0x80, 0x01] = true ∧ denoteU [0x80, 0x01] = uint 128) ∧
    (isSequence [0x80, 0x00] = true ∧ denoteU [0x80, 0x00] = uint 0) := by decide

/-- −1 as [0x7F] and as [0xFF, 0x7F]. -/
theorem witness_SignedEncodingIsTheOnlyMinimalOne :
    (isSequence [0x7F] = true ∧ denoteS [0x7F] = sint (bv (-1))) ∧
    (isSequence [0xFF, 0x7F] = true ∧ denoteS [0xFF, 0x7F] = sint (bv (-1))) := by decide

/-- 128 goes on, 127 ends. -/
theorem witness_EncuStepWritesOneGroup :
    ((encoding 0b00#2 128 3).blk.state = .busy ∧ (encoding 0b00#2 128 3).blk.op = some 0b00#2 ∧
      (encoding 0b00#2 128 3).blk.rem = some 128 ∧ (encoding 0b00#2 128 3).blk.k = some 3 ∧
      (encoding 0b00#2 128 3).port.sinkBase + 3 ∉ (encoding 0b00#2 128 3).port.raced ∧ (128#128 >>> 7 ≠ 0)) ∧
    ((encoding 0b00#2 127 0).blk.state = .busy ∧ (encoding 0b00#2 127 0).blk.op = some 0b00#2 ∧
      (encoding 0b00#2 127 0).blk.rem = some 127 ∧ (encoding 0b00#2 127 0).blk.k = some 0 ∧ (127#128 >>> 7 = 0)) := by
  decide

/-- 63 and −64 end, 64 and −65 go on. -/
theorem witness_EncsStepWritesOneGroup :
    (∀ v ∈ [63, bv (-64), 64, bv (-65)],
      (encoding 0b10#2 v 0).blk.state = .busy ∧ (encoding 0b10#2 v 0).blk.op = some 0b10#2 ∧
      (encoding 0b10#2 v 0).blk.rem = some v ∧ (encoding 0b10#2 v 0).blk.k = some 0 ∧
      (encoding 0b10#2 v 0).port.sinkBase + 0 ∉ (encoding 0b10#2 v 0).port.raced) ∧
    ((63#128).sshiftRight 7 = 0 ∧ ((63#128).setWidth 7 : Payload).getLsbD 6 = false) ∧
    ((bv (-64)).sshiftRight 7 = ones128 ∧ ((bv (-64)).setWidth 7 : Payload).getLsbD 6 = true) ∧
    ((64#128).sshiftRight 7 = 0 ∧ ((64#128).setWidth 7 : Payload).getLsbD 6 = true) ∧
    ((bv (-65)).sshiftRight 7 = ones128 ∧ ((bv (-65)).setWidth 7 : Payload).getLsbD 6 = false) :=
  ⟨fun _ _ => ⟨rfl, rfl, rfl, rfl, List.not_mem_nil⟩, by decide⟩

theorem witness_EncuWritesTheUnsignedEncoding : (ready []).mayIssue (.encu (BitVec.allOnes 128) 255 255) :=
  ready_mayIssue _ _ (by decide)

theorem witness_EncsWritesTheSignedEncoding : (ready []).mayIssue (.encs (bv (-2 ^ 127)) 255 255) :=
  ready_mayIssue _ _ (by decide)

/-- 2^128 − 1 takes 19 steps; the 18th leaves the block BUSY. -/
theorem witness_EncuTakesItsLengthInSteps :
    (∃ t, startInstr (.encu (BitVec.allOnes 128) 0 0) (ready []) = .next t) ∧
    18 < lengthU (uint (BitVec.allOnes 128)) := ⟨⟨_, rfl⟩, by decide⟩

theorem witness_EncsTakesItsLengthInSteps :
    (∃ t, startInstr (.encs (bv (-2 ^ 127)) 0 0) (ready []) = .next t) ∧
    18 < lengthS (sint (bv (-2 ^ 127))) := ⟨⟨_, rfl⟩, by decide⟩

/-- ENCU and ENCS; the addresses before and after the two bytes. -/
theorem witness_EncodersFrame :
    (isEncode (Instr.encu 300 0 0).op = true ∧ ∃ t, exec (.encu 300 0 0) (ready [1, 2, 3]) = .next t) ∧
    (isEncode (Instr.encs 64 0 0).op = true ∧ ∃ t, exec (.encs 64 0 0) (ready [1, 2, 3]) = .next t) ∧
    (ready [1, 2, 3]).port.sinkBase + encodedLength (.encu 300 0 0) ≤ 2 ∧
    3 < ({ ready [] with port := { Port.reset with sinkBase := 4 } } : State).port.sinkBase :=
  ⟨⟨rfl, _, (exists_of_yields (p := fun _ => true) (by decide)).choose_spec.1⟩,
    ⟨rfl, _, (exists_of_yields (p := fun _ => true) (by decide)).choose_spec.1⟩, by decide, by decide⟩

theorem decoding_inv (op : BitVec 2) (acc : Bits128) (k : Nat) (bytes : List Byte)
    (hb : (decoding op acc k bytes).blk.WellFormed 8) (hm : Memory.wf (ready bytes).mem) :
    (decoding op acc k bytes).Inv := inv_of (by decide : 5 ≤ 8) rfl hb hm rfl

/-- The end of the source; bit 128 at K = 18; a byte that goes on; a byte that ends. -/
theorem witness_DecuStepReadsOneByte :
    ((decoding 0b01#2 0 1 [0x80]).Inv ∧ (1 : Nat) ≤ 0 + 1) ∧
    ((decoding 0b01#2 0 18 (List.replicate 18 0x80 ++ [0x04])).Inv ∧
      memRead (decoding 0b01#2 0 18 (List.replicate 18 0x80 ++ [0x04])) (0 + 18) = some 0x04 ∧
      overflowU (payload 0x04) 18 0 = true) ∧
    ((decoding 0b01#2 0 0 [0xFF, 0x00]).Inv ∧ memRead (decoding 0b01#2 0 0 [0xFF, 0x00]) (0 + 0) = some 0xFF ∧
      overflowU (payload 0xFF) 0 0 = false ∧ (0xFF#8).getLsbD 7 = true) ∧
    ((decoding 0b01#2 0 0 [0x7F]).Inv ∧ memRead (decoding 0b01#2 0 0 [0x7F]) (0 + 0) = some 0x7F ∧
      overflowU (payload 0x7F) 0 0 = false ∧ (0x7F#8).getLsbD 7 = false) :=
  ⟨⟨decoding_inv _ _ _ _ (by constructor <;> decide) (by decide), by decide⟩,
    ⟨decoding_inv _ _ _ _ (by constructor <;> decide) (by decide), by decide⟩,
    ⟨decoding_inv _ _ _ _ (by constructor <;> decide) (by decide), by decide⟩,
    ⟨decoding_inv _ _ _ _ (by constructor <;> decide) (by decide), by decide⟩⟩

theorem witness_DecsStepReadsOneByte :
    ((decoding 0b11#2 0 1 [0x80]).Inv ∧ (1 : Nat) ≤ 0 + 1) ∧
    ((decoding 0b11#2 0 18 (List.replicate 18 0x80 ++ [0x02])).Inv ∧
      memRead (decoding 0b11#2 0 18 (List.replicate 18 0x80 ++ [0x02])) (0 + 18) = some 0x02 ∧
      overflowS (payload 0x02) 18 0 = true) ∧
    ((decoding 0b11#2 0 0 [0xFF, 0x00]).Inv ∧ memRead (decoding 0b11#2 0 0 [0xFF, 0x00]) (0 + 0) = some 0xFF ∧
      overflowS (payload 0xFF) 0 0 = false ∧ (0xFF#8).getLsbD 7 = true) ∧
    ((decoding 0b11#2 0 0 [0x40]).Inv ∧ memRead (decoding 0b11#2 0 0 [0x40]) (0 + 0) = some 0x40 ∧
      overflowS (payload 0x40) 0 0 = false ∧ (0x40#8).getLsbD 7 = false) :=
  ⟨⟨decoding_inv _ _ _ _ (by constructor <;> decide) (by decide), by decide⟩,
    ⟨decoding_inv _ _ _ _ (by constructor <;> decide) (by decide), by decide⟩,
    ⟨decoding_inv _ _ _ _ (by constructor <;> decide) (by decide), by decide⟩,
    ⟨decoding_inv _ _ _ _ (by constructor <;> decide) (by decide), by decide⟩⟩

/-- [0xFF ×18, 0x03] is 2^128 − 1 and [0xFF ×18, 0x04] is beyond it. -/
def max128 : List Byte := List.replicate 18 0xFF ++ [0x03]
def beyond128 : List Byte := List.replicate 18 0xFF ++ [0x04]

theorem witness_DecuOverflowsExactlyBeyond128Bits :
    (ready max128).mayIssue (.decu 0 0 19) ∧ isSequence max128 = true ∧ (ready max128).sourceHolds 0 max128 ∧
    0 + max128.length ≤ 19 ∧ ¬ 2 ^ 128 - 1 < denoteU max128 ∧
    (ready beyond128).sourceHolds 0 beyond128 ∧ isSequence beyond128 = true ∧ 0 + beyond128.length ≤ 19 ∧
    2 ^ 128 - 1 < denoteU beyond128 :=
  ⟨ready_mayIssue _ _ (by decide), by decide, by unfold State.sourceHolds; decide, by decide, by decide,
    by unfold State.sourceHolds; decide, by decide, by decide, by decide⟩

/-- [0x80 ×18, 0x7E] is −2^127 and [0x80 ×18, 0x02] is 2^127. -/
def min127 : List Byte := List.replicate 18 0x80 ++ [0x7E]
def beyond127 : List Byte := List.replicate 18 0x80 ++ [0x02]

theorem witness_DecsOverflowsExactlyBeyond128Bits :
    (19 : Nat) ≤ 19 ∧ (ready min127).mayIssue (.decs 0 0 19) ∧ isSequence min127 = true ∧
    (ready min127).sourceHolds 0 min127 ∧ 0 + min127.length ≤ 19 ∧ -2 ^ 127 = denoteS min127 ∧
    (ready beyond127).sourceHolds 0 beyond127 ∧ isSequence beyond127 = true ∧ 0 + beyond127.length ≤ 19 ∧
    denoteS beyond127 = 2 ^ 127 :=
  ⟨by decide, ready_mayIssue _ _ (by decide), by decide, by unfold State.sourceHolds; decide, by decide, by decide,
    by unfold State.sourceHolds; decide, by decide, by decide, by decide⟩

theorem witness_DecuReturnsTheDenotedValue :
    (ready max128).mayIssue (.decu 0 0 19) ∧ isSequence max128 = true ∧ (ready max128).sourceHolds 0 max128 ∧
    0 + max128.length ≤ 19 ∧ denoteU max128 ≤ 2 ^ 128 - 1 :=
  ⟨ready_mayIssue _ _ (by decide), by decide, by unfold State.sourceHolds; decide, by decide, by decide⟩

theorem witness_DecsReturnsTheDenotedValue :
    (ready min127).mayIssue (.decs 0 0 19) ∧ isSequence min127 = true ∧ (ready min127).sourceHolds 0 min127 ∧
    0 + min127.length ≤ 19 ∧ -2 ^ 127 ≤ denoteS min127 ∧ denoteS min127 ≤ 2 ^ 127 - 1 :=
  ⟨ready_mayIssue _ _ (by decide), by decide, by unfold State.sourceHolds; decide, by decide, by decide, by decide⟩

theorem ready_present (bytes : List Byte) (h : ∀ i < bytes.length, 0 ≤ i → (memRead (ready bytes) i).isSome) :
    (ready bytes).sourcePresent 0 bytes.length := fun i h₁ h₂ => h i h₂ h₁

/-- The three ends: the source ends at OFFSET already, Overflow, a terminating byte. -/
theorem witness_DecuEndsAtItsFirstStop :
    ((ready []).mayIssue (.decu 0 0 0) ∧ (ready []).sourcePresent 0 0) ∧
    ((ready beyond128).mayIssue (.decu 0 0 19) ∧ (ready beyond128).sourcePresent 0 19) ∧
    ((ready max128).mayIssue (.decu 0 0 19) ∧ (ready max128).sourcePresent 0 19) :=
  ⟨⟨ready_mayIssue _ _ (by decide), ready_present [] (by decide)⟩,
    ⟨ready_mayIssue _ _ (by decide), ready_present beyond128 (by decide)⟩,
    ⟨ready_mayIssue _ _ (by decide), ready_present max128 (by decide)⟩⟩

theorem witness_DecsEndsAtItsFirstStop :
    ((ready []).mayIssue (.decs 0 0 0) ∧ (ready []).sourcePresent 0 0) ∧
    ((ready beyond127).mayIssue (.decs 0 0 19) ∧ (ready beyond127).sourcePresent 0 19) ∧
    ((ready min127).mayIssue (.decs 0 0 19) ∧ (ready min127).sourcePresent 0 19) :=
  ⟨⟨ready_mayIssue _ _ (by decide), ready_present [] (by decide)⟩,
    ⟨ready_mayIssue _ _ (by decide), ready_present beyond127 (by decide)⟩,
    ⟨ready_mayIssue _ _ (by decide), ready_present min127 (by decide)⟩⟩

theorem witness_SignCompletionSetsTheHighBits : 127 < 128 ∧ 7 * 18 ≤ 127 ∧ ¬ 7 * 19 ≤ 127 := by decide

/-- DECU ending OK and with Overflow, DECS ending with Truncated. -/
theorem witness_DecodersFrame :
    (isEncode (Instr.decu 0 0 19).op = false ∧ ∃ t, exec (.decu 0 0 19) (ready max128) = .next t ∧ (t.blk.err == 0) = true) ∧
    (∃ t, exec (.decu 0 0 19) (ready beyond128) = .next t ∧ (t.blk.err == 2) = true) ∧
    (isEncode (Instr.decs 0 1 1).op = false ∧ ∃ t, exec (.decs 0 1 1) (ready [0]) = .next t ∧ (t.blk.err == 1) = true) :=
  ⟨⟨rfl, exists_of_yields (by decide)⟩, exists_of_yields (by decide), ⟨rfl, exists_of_yields (by decide)⟩⟩

/-- SRC_LEN = 2 but only index 0 holds a byte, a payload that is not 0 and goes on. -/
theorem witness_AbsentSourceByteStopsTheDecode :
    ((ready [0xFF]).mayIssue (.decu 0 0 2) ∧ 0 + 1 < 2 ∧ memRead (ready [0xFF]) (0 + 1) = none ∧
      ∀ k < 1, ¬ (ready [0xFF]).decuStops 0 2 k) ∧
    ((ready [0xFF]).mayIssue (.decs 0 0 2) ∧ 0 + 1 < 2 ∧ memRead (ready [0xFF]) (0 + 1) = none ∧
      ∀ k < 1, ¬ (ready [0xFF]).decsStops 0 2 k) := by
  refine ⟨⟨ready_mayIssue _ _ (by decide), by decide, by decide, ?_⟩, ready_mayIssue _ _ (by decide), by decide,
    by decide, ?_⟩
  · unfold State.decuStops; decide
  · unfold State.decsStops; decide

/-- The encodings of 300 and 5 back to back, beside a running encode. -/
theorem witness_UnsignedRoundTrip :
    ((crowded (ready [0xAC, 0x02, 0x05])).mayIssue (.decu 9 0 2) ∧ (crowded (ready [0xAC, 0x02, 0x05])).sourceHolds 0 (encodingU 300) ∧
      0 + lengthU (uint 300) ≤ 2) ∧
    (crowded (ready [0xAC, 0x02, 0x05])).blk.state = .idle ∧ (crowded (ready [0xAC, 0x02, 0x05])).sourceUnshared 0 3 ∧
    3 < 2 ^ (crowded (ready [0xAC, 0x02, 0x05])).usizeBits ∧
    (crowded (ready [0xAC, 0x02, 0x05])).sourceHolds 0 (([300, 5] : List Bits128).map encodingU).flatten ∧
    0 + (([300, 5] : List Bits128).map encodingU).flatten.length ≤ 3 := by
  refine ⟨⟨⟨rfl, by decide, by unfold State.unaliased; decide⟩, ?_, by decide⟩, rfl, crowded_sourceUnshared (by decide),
    by decide, ?_, by decide⟩ <;>
    (unfold State.sourceHolds; decide)

/-- The encodings of 64 and −1 back to back, beside a running encode. -/
theorem witness_SignedRoundTrip :
    ((crowded (ready [0xC0, 0x00, 0x7F])).mayIssue (.decs 9 0 2) ∧ (crowded (ready [0xC0, 0x00, 0x7F])).sourceHolds 0 (encodingS 64) ∧
      0 + lengthS (sint 64) ≤ 2) ∧
    (crowded (ready [0xC0, 0x00, 0x7F])).blk.state = .idle ∧ (crowded (ready [0xC0, 0x00, 0x7F])).sourceUnshared 0 3 ∧
    3 < 2 ^ (crowded (ready [0xC0, 0x00, 0x7F])).usizeBits ∧
    (crowded (ready [0xC0, 0x00, 0x7F])).sourceHolds 0 (([64, bv (-1)] : List Bits128).map encodingS).flatten ∧
    0 + (([64, bv (-1)] : List Bits128).map encodingS).flatten.length ≤ 3 := by
  refine ⟨⟨⟨rfl, by decide, by unfold State.unaliased; decide⟩, ?_, by decide⟩, rfl, crowded_sourceUnshared (by decide),
    by decide, ?_, by decide⟩ <;>
    (unfold State.sourceHolds; decide)

theorem witness_EncodeThenDecodeReturnsTheValue :
    (crowded (ready [])).mayIssue (.encs (bv (-2 ^ 127)) 0 0) ∧
    (crowded (ready [])).mayIssue (.encu (BitVec.allOnes 128) 0 0) ∧ (crowded (ready [])).sourceUnshared 0 19 ∧
    (crowded (ready [])).port.sinkBase = (crowded (ready [])).port.srcBase + 0 ∧
    0 + encodedLength (.encs (bv (-2 ^ 127)) 0 0) ≤ 19 ∧ 0 + encodedLength (.encu (BitVec.allOnes 128) 0 0) ≤ 19 ∧
    19 < 2 ^ (crowded (ready [])).usizeBits :=
  ⟨⟨rfl, by decide, by unfold State.unaliased; decide⟩, ⟨rfl, by decide, by unfold State.unaliased; decide⟩,
    crowded_sourceUnshared (by decide), rfl, by decide, by decide, by decide⟩

theorem witness_MixedPackingIsReadBackInOrder :
    (crowded (ready [0xC0, 0x00, 0x05])).blk.state = .idle ∧ (crowded (ready [0xC0, 0x00, 0x05])).sourceUnshared 0 3 ∧
    3 < 2 ^ (crowded (ready [0xC0, 0x00, 0x05])).usizeBits ∧
    (crowded (ready [0xC0, 0x00, 0x05])).sourceHolds 0 (([(true, 64), (false, 5)] : List Packed).map packedBytes).flatten ∧
    0 + (([(true, 64), (false, 5)] : List Packed).map packedBytes).flatten.length ≤ 3 := by
  refine ⟨rfl, crowded_sourceUnshared (by decide), by decide, ?_, by decide⟩
  unfold State.sourceHolds; decide

theorem witness_TransactionIsTheStepView :
    turnBound (.encu 0 0 0) ≤ 19 ∧ turnBound (.decs 0 4 9) ≤ 6 ∧ turnBound (.decu 0 9 4) ≤ 1 := by decide

/-- A decode with its byte, an encode whose ignored SRC_LEN names absent bytes, and the three bounds. -/
theorem witness_OperationsEndWithinTheirBound :
    ((running 0b00#2 0 9 128 0 0 []).Inv ∧ (running 0b00#2 0 9 128 0 0 []).blk.state = .busy ∧
      ∀ op ∈ (running 0b00#2 0 9 128 0 0 []).blk.op, isEncode op = true) ∧
    ((decoding 0b01#2 0 0 [0x80]).Inv ∧ (decoding 0b01#2 0 0 [0x80]).blk.state = .busy ∧
      (decoding 0b01#2 0 0 [0x80]).sourcePresent 0 1) ∧
    (ready []).mayIssue (.encs 0 0 0) ∧ ((ready [0x80]).mayIssue (.decu 0 0 1) ∧ (ready [0x80]).sourcePresent 0 1) ∧
    ((ready [0x80]).mayIssue (.decs 0 1 0) ∧ (ready [0x80]).sourcePresent 1 0) :=
  ⟨⟨inv_of (by decide) rfl (by
      constructor
      case encode_bounded =>
        rintro - _ ⟨⟩ - _ ⟨⟩ _ ⟨⟩
        decide
      all_goals decide) (by decide) rfl, rfl, by decide⟩, ⟨decoding_inv _ _ _ _ (by constructor <;> decide) (by decide), rfl, ready_present [0x80] (by decide)⟩,
    ready_mayIssue _ _ (by decide), ⟨ready_mayIssue _ _ (by decide), ready_present [0x80] (by decide)⟩,
    ⟨ready_mayIssue _ _ (by decide), fun i h₁ h₂ => by omega⟩⟩

theorem witness_BusyBlockTakesOneStep :
    (encoding 0b00#2 128 0).Inv ∧ isEncode 0b00#2 = true ∧
    ((decoding 0b01#2 0 1 [0x80]).Inv ∧ isEncode 0b01#2 = false ∧ (1 : Nat) ≤ 0 + 1) ∧
    ((decoding 0b11#2 0 0 [0x40]).Inv ∧ isEncode 0b11#2 = false ∧ (0 : Nat) + 0 < 1 ∧
      memRead (decoding 0b11#2 0 0 [0x40]) (0 + 0) = some 0x40) :=
  ⟨encoding_inv, rfl, ⟨decoding_inv _ _ _ _ (by constructor <;> decide) (by decide), rfl, by decide⟩,
    ⟨decoding_inv _ _ _ _ (by constructor <;> decide) (by decide), rfl, by decide, by decide⟩⟩

/-- A BUSY decode of one byte, nothing left for the host to do. -/
theorem witness_EveryRunningOperationEnds :
    (decoding 0b01#2 0 0 [0x80]).Inv ∧ (decoding 0b01#2 0 0 [0x80]).actions = [] ∧
    ∀ u ∈ (decoding 0b01#2 0 0 [0x80]).agents, ∀ a, inRange (sourceRange u) a = true →
      (Memory.read (decoding 0b01#2 0 0 [0x80]).mem a).isSome = true := by
  refine ⟨decoding_inv _ _ _ _ (by constructor <;> decide) (by decide), rfl, ?_⟩
  intro u hu a ha
  obtain rfl : u = ((decoding 0b01#2 0 0 [0x80]).blk, (decoding 0b01#2 0 0 [0x80]).port) := by
    simpa [State.agents, decoding, running, ready, State.reset] using hu
  obtain rfl : a = 0 := by
    have : inRange (0 + 0, 0 + 1) a = true := ha
    simp only [inRange, decide_eq_true_eq] at this
    omega
  rfl

/-- Truncated and Overflow. -/
theorem witness_RaiseEndsTheOperation :
    ((decoding 0b01#2 0 1 [0x80]).Inv ∧ (decoding 0b01#2 0 1 [0x80]).blk.state = .busy ∧
      ∃ t, blockTurn (decoding 0b01#2 0 1 [0x80]) = .next t ∧ (t.blk.err != 0) = true) ∧
    ((decoding 0b11#2 0 18 beyond127).Inv ∧ (decoding 0b11#2 0 18 beyond127).blk.state = .busy ∧
      ∃ t, blockTurn (decoding 0b11#2 0 18 beyond127) = .next t ∧ (t.blk.err != 0) = true) :=
  ⟨⟨decoding_inv _ _ _ _ (by constructor <;> decide) (by decide), rfl, exists_of_yields (by decide)⟩,
    ⟨decoding_inv _ _ _ _ (by constructor <;> decide) (by decide), rfl, exists_of_yields (by decide)⟩⟩

/-- An IDLE block with these results. -/
def ended (err : BitVec 2) (vout : Option Bits128) (count : Option Nat) : State :=
  { ready [] with blk := Block.ended 0b01#2 0 1 err vout count }

theorem witness_ResultsAreReadOnlyWhenIdle :
    (before [.readState] (encoding 0b00#2 128 0)).actions = [.readState] ∧
    ((before [.readErr] (ended 2 none none)).actions = [.readErr] ∧ (ended 2 none none).blk.state = .idle) ∧
    (encoding 0b00#2 128 0).blk.state = .busy ∧
    ((ended 0 (some 7) (some 1)).blk.state = .idle ∧ (ended 0 (some 7) (some 1)).blk.vout = some 7 ∧
      (ended 0 (some 7) (some 1)).blk.count = some 1) ∧
    ((ended 2 none none).blk.vout = none ∧ (ended 2 none none).blk.count = none) := by decide

/-- The host reads COUNT; it turns to a second block; nothing is left to do, with a second block BUSY and with none. -/
theorem witness_ResultsStayUntilTheNextStart :
    ((before [.readCount] (ended 0 (some 7) (some 1))).blk.state = .idle ∧
      (∀ bs, Action.readCount ≠ .command bs) ∧ (∀ bs, Action.readCount ≠ .start bs) ∧
      (∀ st, Action.readCount = .statement st → ∃ n, st = .setc n) ∧ Action.readCount ≠ .reset ∧
      (∀ n, Action.readCount ≠ .select n) ∧ ∃ t, step (before [.readCount] (ended 0 (some 7) (some 1))) = .next t) ∧
    ((crowded (ended 0 (some 7) (some 1))).blk.state = .idle ∧ (crowded (ended 0 (some 7) (some 1))).actions = [] ∧
      ∃ t, step (crowded (ended 0 (some 7) (some 1))) = .next t) ∧
    (∃ t, step (before [.select 0] (crowded (ended 0 (some 7) (some 1)))) = .next t) ∧
    (ended 0 (some 7) (some 1)).actions = [] ∧ ∀ u ∈ (ended 0 (some 7) (some 1)).agents, u.1.state = .idle := by
  refine ⟨⟨rfl, by simp, by simp, by simp, by simp, by simp, _, rfl⟩, ⟨rfl, rfl, _, rfl⟩, ⟨_, rfl⟩, rfl, ?_⟩
  intro u hu
  obtain rfl := List.mem_singleton.1 hu
  rfl

theorem witness_OperandsAreConstantWhileBusy :
    (before [.readState] (encoding 0b00#2 128 0)).blk.state = .busy ∧
    (∀ rest, (before [.readState] (encoding 0b00#2 128 0)).actions ≠ .reset :: rest) ∧
    (∀ n rest, (before [.readState] (encoding 0b00#2 128 0)).actions ≠ .select n :: rest) ∧
    ∃ t, step (before [.readState] (encoding 0b00#2 128 0)) = .next t :=
  ⟨rfl, fun _ h => by simp [before] at h, fun _ _ h => by simp [before] at h, _, rfl⟩

/-- A decode of the indices 1 and 2: the first and the last of its range race, 0 and 3 do not. -/
def window : State := running 0b01#2 1 3 0 0 0 [0x00, 0x80, 0x00, 0x00]

theorem witness_WriteIntoARunningSourceFaults :
    (window.blk, window.port) ∈ window.agents ∧ window.blk.state = .busy ∧ window.blk.op = some 0b01#2 ∧
    isEncode 0b01#2 = false ∧ window.blk.offset = some 1 ∧ window.blk.srcLen = some 3 ∧ (1 ≤ 1 ∧ 1 < 3) ∧
    (1 ≤ 2 ∧ 2 < 3) ∧
    (before [.hostWrite (window.port.srcBase + 2) 9] window).actions = [.hostWrite (window.port.srcBase + 2) 9] :=
  ⟨List.mem_cons_self, rfl, rfl, rfl, rfl, rfl, by decide, by decide, rfl⟩

theorem witness_OtherHostWritesStoreTheByte :
    (before [.hostWrite 3 9] window).actions = [.hostWrite 3 9] ∧
    ∀ a ∈ [0, 3], ∀ u ∈ (before [.hostWrite 3 9] window).agents, ∀ op ∈ u.1.op, ∀ o ∈ u.1.offset, ∀ l ∈ u.1.srcLen,
      u.1.state = .busy → isEncode op = false → a < u.2.srcBase + o ∨ u.2.srcBase + l ≤ a := by
  refine ⟨rfl, ?_⟩
  unfold State.agents
  decide

/-- 128 has been started: the positions 0 and 1 are its sink positions, and address 2, where a byte stands, and 3, where
none does, are not. -/
theorem witness_ReadOfARunningSinkIsFree :
    (((encoding 0b00#2 128 0).blk, (encoding 0b00#2 128 0).port) ∈ (encoding 0b00#2 128 0).agents ∧
      (encoding 0b00#2 128 0).blk.state = .busy ∧ (encoding 0b00#2 128 0).blk.op = some 0b00#2 ∧
      isEncode 0b00#2 = true ∧ (encoding 0b00#2 128 0).blk.rem = some 128 ∧ (encoding 0b00#2 128 0).blk.k = some 0 ∧
      (0 < 0 + if (0b00#2).getLsbD 1 then lengthS (sint 128) else lengthU (uint 128)) ∧
      (1 < 0 + if (0b00#2).getLsbD 1 then lengthS (sint 128) else lengthU (uint 128)) ∧
      (before [.hostRead ((encoding 0b00#2 128 0).port.sinkBase + 1)] (encoding 0b00#2 128 0)).actions = [.hostRead 1]) ∧
    ((before [.hostRead 2] (running 0b00#2 0 0 128 0 0 [0, 0, 7])).actions = [.hostRead 2] ∧
      (∀ a ∈ [2, 3], ∀ u ∈ (running 0b00#2 0 0 128 0 0 [0, 0, 7]).agents, inRange (sinkRange u) a = false) ∧
      Memory.read (running 0b00#2 0 0 128 0 0 [0, 0, 7]).mem 2 = some 7 ∧
      Memory.read (running 0b00#2 0 0 128 0 0 [0, 0, 7]).mem 3 = none) :=
  ⟨⟨List.mem_cons_self, rfl, rfl, rfl, rfl, rfl, by decide, by decide, rfl⟩, rfl, by unfold State.agents; decide,
    by decide, by decide⟩

/-- The last step of 127, its position raced. -/
def racing : State := { encoding 0b00#2 127 0 with port := { Port.reset with raced := [0] } }

theorem racing_inv : racing.Inv := by
  have hw : racing.blk.WellFormed 8 := by
    constructor
    case encode_bounded =>
      rintro - _ ⟨⟩ - _ ⟨⟩ _ ⟨⟩
      decide
    all_goals decide
  have ha : racing.agents = [(racing.blk, racing.port)] := rfl
  refine ⟨by decide, ?_, by decide, ?_, ?_⟩ <;> rw [ha]
  · intro u hu
    obtain rfl := List.mem_singleton.1 hu
    exact hw
  · decide
  · exact List.pairwise_singleton _ _

theorem crowded_inv : (before [.hostWrite 65 9] (crowded (ready []))).Inv := by
  have ha : (before [.hostWrite 65 9] (crowded (ready []))).agents =
    [(Block.reset, Port.reset), ((encoding 0b00#2 128 0).blk, { Port.reset with srcBase := 64, sinkBase := 64 })] := rfl
  refine ⟨by decide, ?_, by decide, ?_, ?_⟩ <;> rw [ha]
  · intro u hu
    rcases List.mem_cons.1 hu with rfl | hu
    · constructor <;> simp [Block.reset]
    · obtain rfl := List.mem_singleton.1 hu
      exact encoding_blk
  · decide
  · decide

/-- A write at the last position of the second block's encode; a raced position of the selected block's. -/
theorem witness_WriteIntoARunningSinkIsFree :
    ((before [.hostWrite 65 9] (crowded (ready []))).Inv ∧
      (crowded (ready [])).agents[1]? =
        some ((encoding 0b00#2 128 0).blk, { Port.reset with srcBase := 64, sinkBase := 64 }) ∧
      isEncode 0b00#2 = true ∧ (1 < 0 + if (0b00#2).getLsbD 1 then lengthS (sint 128) else lengthU (uint 128)) ∧
      (before [.hostWrite 65 9] (crowded (ready []))).actions = [.hostWrite (64 + 1) 9]) ∧
    (racing.Inv ∧ (racing.blk, racing.port) ∈ racing.agents ∧ racing.blk.state = .busy ∧ 0 ∈ racing.port.raced ∧
      ∃ t, step racing = .next t) ∧
    racing.blk.op = some 0b00#2 ∧ ∃ t, blockTurn racing = .next t ∧ (t.blk.state == .idle) = true := by
  refine ⟨⟨crowded_inv, rfl, rfl, by decide, rfl⟩, ⟨racing_inv, List.mem_cons_self, rfl, by decide, _, rfl⟩, rfl,
    exists_of_yields (by decide)⟩

theorem witness_BlocksShareNoState :
    (∃ t, step (before [.blockTurn] (beside (encoding 0b10#2 64 0) (encoding 0b00#2 128 0) 8)) = .next t) ∧
    ((encoding 0b00#2 128 0).actions = [] ∧ ∃ t, step (crowded (encoding 0b00#2 128 0)) = .next t) ∧
    ((crowded (ready [])).actions = [] ∧ (crowded (ready [])).blk.state = .idle ∧
      ∃ t, step (crowded (ready [])) = .next t) ∧
    (beside (encoding 0b10#2 64 0) (ready []) 8).others[0]? = some ((encoding 0b10#2 64 0).blk, (encoding 0b10#2 64 0).port) ∧
    (beside (encoding 0b10#2 64 0) (ready []) 8).others.length ≤ 1 ∧
    ((before [.place 3 9] (ready [])).actions = [.place 3 9] ∧ (ready []).blk.state = .idle ∧
      (encoding 0b00#2 128 0).blk.state = .busy) :=
  ⟨⟨_, rfl⟩, ⟨rfl, _, rfl⟩, ⟨rfl, rfl, _, rfl⟩, rfl, by decide, rfl, rfl, rfl⟩

/-- Another block decodes the addresses 1 and 2, or encodes to the addresses 0 and 1. -/
theorem witness_OverlappingByteSpacesFault :
    ((beside window (ready []) 2).blk.state = .idle ∧ (Instr.encu 0 0 0).wellFormed (beside window (ready []) 2).usizeBits ∧
      (window.blk, window.port) ∈ (beside window (ready []) 2).others ∧
      (beside window (ready []) 2).port.sinkBase ≤ 2 ∧
      2 < (beside window (ready []) 2).port.sinkBase + encodedLength (.encu 0 0 0) ∧
      inRange (sourceRange (window.blk, window.port)) 2 = true) ∧
    ((Instr.decs 0 0 1).wellFormed (beside (encoding 0b00#2 128 0) (ready []) 1).usizeBits ∧
      (beside (encoding 0b00#2 128 0) (ready []) 1).port.srcBase + 0 ≤ 1 ∧
      1 < (beside (encoding 0b00#2 128 0) (ready []) 1).port.srcBase + 1 ∧
      inRange (sinkRange ((encoding 0b00#2 128 0).blk, (encoding 0b00#2 128 0).port)) 1 = true) :=
  ⟨⟨rfl, by decide, List.mem_cons_self, by decide, by decide, by decide⟩, by decide, by decide, by decide, by decide⟩

/-- Another block encodes to 0 and 1, a third decodes 1 and 2 of a source from 64 on. -/
def sharing : State :=
  { beside (encoding 0b00#2 128 0) (ready []) 1 with
    others := [((encoding 0b00#2 128 0).blk, (encoding 0b00#2 128 0).port),
      (window.blk, { window.port with srcBase := 64 })] }

theorem witness_SharedSinkPositionsFault :
    sharing.blk.state = .idle ∧ (Instr.encs 0 0 0).wellFormed sharing.usizeBits ∧
    ((encoding 0b00#2 128 0).blk, (encoding 0b00#2 128 0).port) ∈ sharing.others ∧
    isEncode (Instr.encs 0 0 0).op = true ∧ sharing.port.sinkBase ≤ 1 ∧
    1 < sharing.port.sinkBase + encodedLength (.encs 0 0 0) ∧
    inRange (sinkRange ((encoding 0b00#2 128 0).blk, (encoding 0b00#2 128 0).port)) 1 = true ∧
    ∀ v ∈ sharing.others, ∀ x, sharing.port.sinkBase ≤ x → x < sharing.port.sinkBase + encodedLength (.encs 0 0 0) →
      inRange (sourceRange v) x = false := by
  refine ⟨rfl, by decide, List.mem_cons_self, rfl, by decide, by decide, by decide, ?_⟩
  intro v hv x h₁ h₂
  obtain rfl : x = 1 := by
    have h₁ : 1 ≤ x := h₁
    have h₂ : x < 1 + 1 := h₂
    omega
  revert v
  decide

/-- A host with a buffer of 20 bytes and its cursor at 1: the longest encoding just fits. -/
def hosting (acts : List Action) : State := { before acts (ready []) with bufLen := 20, cursor := 1 }

theorem witness_EncodeStatementsPackAtTheCursor :
    ((hosting [.statement (.encs (-2 ^ 127))]).actions = [.statement (.encs (-2 ^ 127))] ∧
      ((-2 ^ 127 : Int) ≤ -2 ^ 127 ∧ (-2 ^ 127 : Int) ≤ 2 ^ 127 - 1) ∧
      (hosting []).cursor + (encodingS (bv (-2 ^ 127))).length ≤ (hosting []).bufLen) ∧
    ((hosting [.statement (.encu (2 ^ 128 - 1))]).actions = [.statement (.encu (2 ^ 128 - 1))] ∧
      ((0 : Int) ≤ 2 ^ 128 - 1 ∧ (2 ^ 128 - 1 : Int) ≤ 2 ^ 128 - 1) ∧
      (hosting []).cursor + (encodingU (bv (2 ^ 128 - 1))).length ≤ (hosting []).bufLen) ∧
    (hosting []).blk.state = .idle ∧ (crowded (hosting [])).sinkUnshared 1 19 ∧ 0 ≤ (hosting []).cursor :=
  ⟨by decide, by decide, rfl, crowded_sinkUnshared (by decide), by decide⟩

/-- A cursor at 1 in the buffer [0x80, 0x05]: offset 1 ends OK; in [0x80] it is Truncated. -/
theorem witness_DecodeStatementsReadTheBuffer :
    (∃ t, exec (decodeOf false 1 (hosting []).bufLen)
        { ready [0x80, 0x05] with actions := [], port := { (ready []).port with srcBase := 0, sinkBase := 1 } } = .next t ∧
      (t.blk.err == 0 && t.blk.count == some 1) = true) ∧
    (∃ t, exec (decodeOf true 1 1)
        { ready [0x80] with actions := [], port := { (ready []).port with srcBase := 0, sinkBase := 1 } } = .next t ∧
      (t.blk.err != 0) = true) ∧ (hosting []).cursor = (1 : Nat) :=
  ⟨exists_of_yields (by decide), exists_of_yields (by decide), rfl⟩

theorem witness_AssemblerRefusesBadStatements :
    ¬((0 : Int) ≤ 2 ^ 128 ∧ (2 ^ 128 : Int) ≤ 2 ^ 128 - 1) ∧ ¬((-2 ^ 127 : Int) ≤ 2 ^ 127 ∧ (2 ^ 127 : Int) ≤ 2 ^ 127 - 1) ∧
    ¬((0 : Int) ≤ 256 ∧ (256 : Int) ≤ 2 ^ (hosting []).usizeBits - 1) ∧
    (∀ c ∈ [(-1 : Int), 256], ¬(0 ≤ ({ ready [] with cursor := c } : State).cursor ∧
      ({ ready [] with cursor := c } : State).cursor ≤ 2 ^ (ready []).usizeBits - 1)) ∧
    ((hosting []).blk.state = .idle ∧ (2 ^ 128 - 1 : Int) ≤ 2 ^ 128 - 1 ∧
      ((ready []).bufLen < (ready []).cursor + lengthU (2 ^ 128 - 1 : Int).toNat ∨ (ready []).cursor < 0)) ∧
    ((-2 ^ 127 : Int) ≤ -1 ∧ (-1 : Int) ≤ 2 ^ 127 - 1 ∧
      ((ready []).bufLen < (ready []).cursor + lengthS (-1) ∨ (ready []).cursor < 0)) ∧
    (hosting [.statement (.setc (-1))]).actions = [.statement (.setc (-1))] := by decide

theorem witness_BinaryFormIsTheStartTuple :
    255 < 2 ^ (hosting []).usizeBits ∧ (hosting []).bufLen < 2 ^ (hosting []).usizeBits ∧
    ((0 : Int) ≤ 2 ^ 128 - 1 ∧ (2 ^ 128 - 1 : Int) ≤ 2 ^ 128 - 1) ∧
    ((-2 ^ 127 : Int) ≤ -2 ^ 127 ∧ (-2 ^ 127 : Int) ≤ 2 ^ 127 - 1) ∧
    ({ ready [] with cursor := 255 } : State).cursor = (255 : Nat) := by decide

theorem witness_LabelsAndCommentsChangeNothing :
    isLabel ['p', '1'] = true ∧ (∀ c ∈ ['p', '1'], c ≠ ':' ∧ c ≠ ';') ∧
    (∀ c ∈ [' ', 'D', 'E', 'C', 'U', ' ', 'c'], c ≠ ':' ∧ c ≠ ';') := ⟨by decide, by simp, by simp⟩

end Sys2Proof.Tests
end

section
/-! PROOFS. The scope's operand widths (00_scope.md). -/

namespace Sys2Proof.Machine

/-- Settles O12: START refuses the operands, so the command, which is START and then its steps, never takes a step. -/
theorem wideOperandIsRefused : Obligations.WideOperandIsRefused := by
  intro s i hwide
  rw [exec_eq, startInstr_wide hwide, andThen_refused]

end Sys2Proof.Machine
end

section
/-! PROOFS. The invariant (10_state.md R20 to R41): reset meets it and every step keeps it. -/

namespace Sys2Proof.Machine

variable {s t : State}

/-! ## What the invariant sees -/

/-- R167 speaks of two blocks in no order. -/
theorem apart_symm {u v : Agent} (h : raceBetween u v = false ∧ sharedSink u v = false) :
    raceBetween v u = false ∧ sharedSink v u = false := by
  simp only [raceBetween, sharedSink, Bool.or_eq_false_iff] at h ⊢
  obtain ⟨⟨hsource, hsink⟩, hshared⟩ := h
  exact ⟨⟨overlaps_comm _ _ ▸ hsink, overlaps_comm _ _ ▸ hsource⟩, overlaps_comm _ _ ▸ hshared⟩

/-- The invariant sees W, host memory and the blocks with their ports, these in any order, and nothing else. -/
theorem State.Inv.of_perm (i : s.Inv) (hw : t.usizeBits = s.usizeBits) (ha : t.agents.Perm s.agents)
    (hm : t.mem = s.mem) : t.Inv where
  width := hw ▸ i.width
  blocks u hu := hw ▸ i.blocks u (ha.mem_iff.1 hu)
  memory := hm ▸ i.memory
  raced u hu := i.raced u (ha.mem_iff.1 hu)
  disjoint := (ha.pairwise_iff apart_symm).2 i.disjoint

/-! ## Reset -/

/-- R41. -/
theorem Block.reset_wellFormed (w : Nat) : Block.reset.WellFormed w := by
  constructor <;> simp [Block.reset, errOk]

/-- Settles O1: R41's table is the definition of the registers after reset. -/
theorem resetRegistersHoldNoResult : Obligations.ResetRegistersHoldNoResult := rfl

/-- Settles O2: the one block after reset holds no value, and nothing is stored or raced. -/
theorem resetSatisfiesTheInvariant : Obligations.ResetSatisfiesTheInvariant where
  width := by decide
  blocks u hu := by
    obtain rfl := List.mem_singleton.1 hu
    exact Block.reset_wellFormed _
  memory := List.Pairwise.nil
  raced u hu := by
    obtain rfl := List.mem_singleton.1 hu
    exact List.forall_mem_nil _
  disjoint := List.pairwise_singleton _ _

/-- R160: reset abandons the operation, so the block holds no byte range any more. -/
theorem resetBlock_inv (i : s.Inv) : (resetBlock s).Inv := by
  refine BlockStep.inv (s := s) ⟨?_, ?_, Block.reset_wellFormed _, ?_, ?_, Or.inr rfl, Or.inr rfl⟩ i
  · simp [resetBlock]
  · simp [resetBlock]
  · exact drawRaced_wf _ _ i.memory
  · simp [resetBlock]

/-! ## START and the block's turns -/

/-- R102, R122: an encode that starts has at most 19 bytes to write. -/
theorem encodeTotal_start (op : BitVec 2) (v : Bits128) : encodeTotal op v 0 ≤ 19 := by
  unfold encodeTotal
  split
  · simpa using lengthS_bits v
  · simpa using lengthU_bits v

/-- R34. -/
theorem Block.started_wellFormed {w : Nat} {op : BitVec 2} {v : Bits128} {o l : Nat} (ho : o < 2 ^ w) (hl : l < 2 ^ w) :
    (Block.started op v o l).WellFormed w := by
  constructor <;> simp [errOk, ho, hl]
  exact fun _ => encodeTotal_start op v

/-- R167: no aliasing fault means that the operation meets no other block's. -/
theorem aliasFault_eq_none {u : Agent} {others : List Agent} (h : aliasFault u others = none) :
    ∀ v ∈ others, raceBetween u v = false ∧ sharedSink u v = false := by
  unfold aliasFault at h
  split at h
  · cases h
  · split at h
    · cases h
    · simp_all

/-- START of a command that may be issued. -/
theorem started_inv {i : Instr} (hi : s.Inv) (hm : s.mayIssue i) : (s.started i).Inv := by
  obtain ⟨width, blocks, memory, raced, disjoint⟩ := hi
  obtain ⟨-, operands, unaliased⟩ := hm
  refine ⟨width, ?_, memory, ?_, ?_⟩
  · exact List.forall_mem_cons.2 ⟨Block.started_wellFormed operands.1 operands.2, (List.forall_mem_cons.1 blocks).2⟩
  · exact List.forall_mem_cons.2 ⟨List.forall_mem_nil _, (List.forall_mem_cons.1 raced).2⟩
  · exact List.pairwise_cons.2 ⟨aliasFault_eq_none unaliased, (List.pairwise_cons.1 disjoint).2⟩

theorem startInstr_inv {i : Instr} (hi : s.Inv) (h : startInstr i s = .next t) : t.Inv := by
  obtain ⟨hm, rfl⟩ := startInstr_eq_next.1 h
  exact started_inv hi hm

theorem blockTurn_inv (i : s.Inv) (h : blockTurn s = .next t) : t.Inv := by
  cases hs : s.blk.state with
  | idle => rw [blockTurn_idle hs] at h; cases h; exact i
  | busy => rw [blockTurn_busy hs] at h; exact (stepOperation_blockStep i hs h).inv i

theorem blockTurns_inv (n : Nat) : ∀ {s : State}, s.Inv → blockTurns n s = .next t → t.Inv := by
  induction n with
  | zero => intro s i h; cases h; exact i
  | succ n ih =>
    intro s i h
    obtain ⟨u, hu, h⟩ := andThen_eq_next.1 h
    exact ih (blockTurn_inv i hu) h

/-- A command is START and block turns (R39). -/
theorem exec_inv {i : Instr} (hi : s.Inv) (h : exec i s = .next t) : t.Inv := by
  rw [exec_turns, andThen_eq_next] at h
  obtain ⟨u, hu, h⟩ := h
  exact blockTurns_inv _ (startInstr_inv hi hu) h

/-! ## The host's actions -/

/-- The bases of an IDLE block's byte spaces are the host's to choose (R52). -/
theorem rebase_inv (i : s.Inv) (hs : s.blk.state = .idle) (src sink : Nat) :
    (s.withPort { s.port with srcBase := src, sinkBase := sink }).Inv := by
  refine BlockStep.inv (s := s) ⟨rfl, rfl, i.blocks _ List.mem_cons_self, i.memory, ?_,
    Or.inr (sinkRange_idle hs), Or.inr (sourceRange_idle hs)⟩ i
  have hnil : s.port.raced = [] := i.raced_nil (sinkRange_idle hs)
  simp [hnil]

/-- R166: the byte is stored, and the position is raced only in a running encode's sink range. -/
theorem hostWrite_inv {a : Nat} {b : Byte} (i : s.Inv) (h : hostWrite a b s = .next t) : t.Inv := by
  obtain ⟨-, rfl⟩ := hostWrite_eq_next.1 h
  obtain ⟨width, blocks, memory, raced, disjoint⟩ := i
  have hagents : (((s.withMem (Memory.write s.mem a b)).withPort (noteRaced a (s.blk, s.port))).withOthers
      (s.others.map fun u => (u.1, noteRaced a u))).agents = s.agents.map fun u => (u.1, noteRaced a u) := rfl
  refine ⟨width, ?_, Memory.write_wf _ _ _ memory, ?_, ?_⟩ <;> rw [hagents]
  · exact List.forall_mem_map.2 blocks
  · refine List.forall_mem_map.2 fun u hu x hx => ?_
    rw [sinkRange_noteRaced]
    rcases mem_noteRaced hx with hold | ⟨rfl, hnew⟩
    · exact raced u hu x hold
    · exact hnew
  · refine List.pairwise_map.2 (disjoint.imp fun {u v} huv => ?_)
    simpa only [raceBetween, sharedSink, sinkRange_noteRaced, sourceRange_noteRaced] using huv

theorem advanceCursor_eq (st : Statement) (s : State) : ∃ c, advanceCursor st s = s.withCursor c := by
  unfold advanceCursor
  split
  case h_5 => exact ⟨s.cursor, rfl⟩
  all_goals exact ⟨_, rfl⟩

/-- A statement sets the cursor, or it places the byte spaces of an IDLE block, runs a command and sets the cursor (R81). -/
theorem execStatement_next {st : Statement} (h : execStatement st s = .next t) :
    (∃ c, t = s.withCursor c) ∨ s.blk.state = .idle ∧ ∃ i u c,
      exec i (s.withPort { s.port with srcBase := 0, sinkBase := s.cursor.toNat }) = .next u ∧ t = u.withCursor c := by
  unfold execStatement at h
  split at h
  · cases h; exact Or.inl ⟨_, rfl⟩
  · split at h
    · cases h
    · split at h
      · cases h
      · cases h
      · rename_i i _ _ _ hs _
        obtain ⟨u, hu, h⟩ := andThen_eq_next.1 h
        obtain ⟨c, hc⟩ := advanceCursor_eq st u
        exact Or.inr ⟨hs, i, u, c, hu, by rw [← hc]; exact (Host.Outcome.next.inj h).symm⟩

/-- A line of a host program. -/
theorem execStatement_inv {st : Statement} (hi : s.Inv) (h : execStatement st s = .next t) : t.Inv := by
  rcases execStatement_next h with ⟨c, rfl⟩ | ⟨hs, i, u, c, hu, rfl⟩
  · exact hi.of_perm rfl (.refl _) rfl
  · exact (exec_inv (rebase_inv hi hs _ _) hu).of_perm rfl (.refl _) rfl

theorem select_inv {n : Nat} (i : s.Inv) (h : select n s = .next t) : t.Inv := by
  have hperm := select_agents h
  obtain ⟨u, -, rfl⟩ := select_eq_next.1 h
  exact i.of_perm rfl hperm rfl

theorem fairTurn_inv (i : s.Inv) (h : fairTurn s = .next t) : t.Inv := by
  unfold fairTurn at h
  split at h
  · next hs => exact (stepOperation_blockStep i hs h).inv i
  · split at h
    · cases h; exact i
    · exact select_inv i h

/-- Every action keeps the invariant. -/
theorem perform_inv (a : Action) (hi : s.Inv) (h : perform a s = .next t) : t.Inv := by
  cases a with
  | command bytes =>
    simp only [perform] at h
    split at h
    · exact exec_inv hi h
    · cases h
  | start bytes =>
    simp only [perform] at h
    split at h
    · exact startInstr_inv hi h
    · cases h
  | statement st => exact execStatement_inv hi h
  | blockTurn => exact blockTurn_inv hi h
  | readState => cases h; exact hi.of_perm rfl (.refl _) rfl
  | readErr => obtain ⟨-, rfl⟩ := readErr_eq_next.1 h; exact hi.of_perm rfl (.refl _) rfl
  | readVout => obtain ⟨-, v, -, rfl⟩ := readVout_eq_next.1 h; exact hi.of_perm rfl (.refl _) rfl
  | readCount => obtain ⟨-, n, -, rfl⟩ := readCount_eq_next.1 h; exact hi.of_perm rfl (.refl _) rfl
  | reset => cases h; exact resetBlock_inv hi
  | hostWrite addr b => exact hostWrite_inv hi h
  | hostRead addr => obtain ⟨b, n, rfl, -⟩ := hostRead_next h; exact hi.of_perm rfl (.refl _) rfl
  | place src sink => obtain ⟨hs, rfl⟩ := place_eq_next.1 h; exact rebase_inv hi hs src sink
  | select n => exact select_inv hi h

/-- Settles O3: with no action left by the blocks' turns, and otherwise action by action. -/
theorem everyStepKeepsTheInvariant : Obligations.EveryStepKeepsTheInvariant := by
  intro s t hi h
  cases ha : s.actions with
  | nil => exact fairTurn_inv hi (step_nil ha ▸ h)
  | cons a rest =>
    have hrest : (s.withActions rest).Inv := hi.of_perm rfl (.refl _) rfl
    exact perform_inv a hrest (step_cons ha ▸ h)

end Sys2Proof.Machine
end

section
/-! PROOFS. START and the command operands (10_state.md R21 to R23, R33, R34). -/

namespace Sys2Proof.Machine

variable {s t : State}

theorem perform_command {bs : List Byte} {i : Instr} (h : decode s.usizeBits bs = .ok i) :
    perform (.command bs) s = exec i s := by simp only [perform, h]

theorem perform_start {bs : List Byte} {i : Instr} (h : decode s.usizeBits bs = .ok i) :
    perform (.start bs) s = startInstr i s := by simp only [perform, h]

/-- Settles O9: the action at the head of the schedule is carried out on the bytes' command. -/
theorem stepRunsTheDecodedCommand : Obligations.StepRunsTheDecodedCommand := by
  refine ⟨fun s bs rest i ha hdec => ?_, fun s bs rest i ha hdec => ?_, fun s nbits w i hdec => ?_⟩
  · rw [step_cons ha]; exact perform_command hdec
  · rw [step_cons ha]; exact perform_start hdec
  · exact (step_cons (s := s.withFetchWord nbits w) rfl).trans (perform_command hdec)

/-- Settles O10: `State.started` is the state that R34 writes out. -/
theorem startLatchesTheOperands : Obligations.StartLatchesTheOperands :=
  ⟨fun _ _ hm => startInstr_of_mayIssue hm, fun _ _ hw hb => startInstr_busy hw hb⟩

/-! ## The operands while BUSY -/

/-- R163: beside a BUSY block a line of a host program only sets the cursor. -/
theorem execStatement_busy {st : Statement} (hb : s.blk.state = .busy) (h : execStatement st s = .next t) :
    t.blk = s.blk := by
  rcases execStatement_next h with ⟨c, rfl⟩ | ⟨hidle, -⟩
  · rfl
  · rw [hb] at hidle; cases hidle

/-- R21, R22, R23: while BUSY no action but a reset or the turn to another block touches OP, OFFSET and SRC_LEN. -/
theorem perform_keeps_operands {a : Action} (hb : s.blk.state = .busy) (hreset : a ≠ .reset)
    (hselect : ∀ n, a ≠ .select n) (h : perform a s = .next t) :
    t.blk.op = s.blk.op ∧ t.blk.offset = s.blk.offset ∧ t.blk.srcLen = s.blk.srcLen := by
  have hbusy : s.blk.state ≠ .idle := by simp [hb]
  have same : t.blk = s.blk → t.blk.op = s.blk.op ∧ t.blk.offset = s.blk.offset ∧ t.blk.srcLen = s.blk.srcLen :=
    fun heq => by rw [heq]; exact ⟨rfl, rfl, rfl⟩
  cases a with
  | command bytes =>
    simp only [perform] at h
    split at h
    · exact absurd (mayIssue_of_exec h).idle hbusy
    · cases h
  | start bytes =>
    simp only [perform] at h
    split at h
    · exact absurd (startInstr_eq_next.1 h).1.idle hbusy
    · cases h
  | statement st => exact same (execStatement_busy hb h)
  | blockTurn =>
    obtain ⟨hop, hoffset, hsrcLen, -⟩ := stepOperation_keeps ((blockTurn_busy hb).symm.trans h)
    exact ⟨hop, hoffset, hsrcLen⟩
  | readState => cases h; exact same rfl
  | readErr => exact absurd (readErr_eq_next.1 h).1 hbusy
  | readVout => exact absurd (readVout_eq_next.1 h).1 hbusy
  | readCount => exact absurd (readCount_eq_next.1 h).1 hbusy
  | reset => exact absurd rfl hreset
  | hostWrite addr b => obtain ⟨-, rfl⟩ := hostWrite_eq_next.1 h; exact same rfl
  | hostRead addr => obtain ⟨b, n, rfl, -⟩ := hostRead_next h; exact same rfl
  | place src sink => exact absurd (place_eq_next.1 h).1 hbusy
  | select n => exact absurd rfl (hselect n)

/-- Settles O48: with no action left a BUSY block takes its step; any other step is an action. -/
theorem operandsAreConstantWhileBusy : Obligations.OperandsAreConstantWhileBusy := by
  intro s t hb hreset hselect h
  cases ha : s.actions with
  | nil =>
    rw [step_nil ha, fairTurn, hb] at h
    obtain ⟨hop, hoffset, hsrcLen, -⟩ := stepOperation_keeps h
    exact ⟨hop, hoffset, hsrcLen⟩
  | cons a rest =>
    rw [step_cons ha] at h
    exact perform_keeps_operands (s := s.withActions rest) hb (fun heq => hreset rest (heq ▸ ha))
      (fun n heq => hselect n rest (heq ▸ ha)) h

end Sys2Proof.Machine
end

section
/-! PROOFS. One turn of a BUSY block, and how many turns it has left (10_state.md R35, R37). -/

namespace Sys2Proof.Machine

/-! ## The direction of a command (R78) -/

section Direction

variable (v : Bits128) (o l : Nat)

@[simp] theorem isEncode_encu : isEncode (Instr.encu v o l).op = true := by simp [isEncode, Instr.op]
@[simp] theorem isEncode_encs : isEncode (Instr.encs v o l).op = true := by simp [isEncode, Instr.op]
@[simp] theorem isEncode_decu : isEncode (Instr.decu v o l).op = false := by simp [isEncode, Instr.op]
@[simp] theorem isEncode_decs : isEncode (Instr.decs v o l).op = false := by simp [isEncode, Instr.op]

end Direction

/-! ## A running block -/

/-- R34: a BUSY block with the values its registers hold. -/
structure Block.Running (b : Block) (op : BitVec 2) (o l : Nat) (rem acc : Bits128) (k : Nat) : Prop where
  state : b.state = .busy
  op : b.op = some op
  offset : b.offset = some o
  srcLen : b.srcLen = some l
  rem : b.rem = some rem
  acc : b.acc = some acc
  k : b.k = some k

theorem Block.WellFormed.running {w : Nat} {b : Block} (h : b.WellFormed w) (hb : b.state = .busy) :
    ∃ op o l rem acc k, b.Running op o l rem acc k := by
  obtain ⟨hop, ho, hl, hr, ha, hk⟩ := h.busy_holds hb
  obtain ⟨op, hop⟩ := Option.isSome_iff_exists.1 hop
  obtain ⟨o, ho⟩ := Option.isSome_iff_exists.1 ho
  obtain ⟨l, hl⟩ := Option.isSome_iff_exists.1 hl
  obtain ⟨rem, hr⟩ := Option.isSome_iff_exists.1 hr
  obtain ⟨acc, ha⟩ := Option.isSome_iff_exists.1 ha
  obtain ⟨k, hk⟩ := Option.isSome_iff_exists.1 hk
  exact ⟨op, o, l, rem, acc, k, hb, hop, ho, hl, hr, ha, hk⟩

theorem State.started_running (s : State) (i : Instr) :
    (s.started i).blk.Running i.op i.offset i.srcLen i.vin 0 0 := ⟨rfl, rfl, rfl, rfl, rfl, rfl, rfl⟩

/-- R37: the turns a BUSY block has left at most: the bytes an encode still writes, the bytes a decode may still read
and one more. An IDLE block has none. -/
def Block.turnsLeft (b : Block) : Nat :=
  match b.state, b.op, b.offset, b.srcLen, b.rem, b.k with
  | .busy, some op, some o, some l, some rem, some k =>
    if isEncode op then encodeTotal op rem k - k else l - (o + k) + 1
  | _, _, _, _, _, _ => 0

theorem Block.turnsLeft_idle {b : Block} (h : b.state = .idle) : b.turnsLeft = 0 := by simp [Block.turnsLeft, h]

section Running

variable {op : BitVec 2} {o l k : Nat} {rem acc : Bits128} {s t : State}

theorem Block.Running.turnsLeft_encode {b : Block} (h : b.Running op o l rem acc k) (he : isEncode op = true) :
    b.turnsLeft = encodeTotal op rem k - k := by
  simp [Block.turnsLeft, h.state, h.op, h.offset, h.srcLen, h.rem, h.k, he]

theorem Block.Running.turnsLeft_decode {b : Block} (h : b.Running op o l rem acc k) (he : isEncode op = false) :
    b.turnsLeft = l - (o + k) + 1 := by
  simp [Block.turnsLeft, h.state, h.op, h.offset, h.srcLen, h.rem, h.k, he]

theorem Block.Running.turnsLeft_pos {b : Block} (h : b.Running op o l rem acc k) : 0 < b.turnsLeft := by
  cases he : isEncode op with
  | true => have := encodeTotal_pos op rem k; rw [h.turnsLeft_encode he]; omega
  | false => rw [h.turnsLeft_decode he]; omega

/-- R37: the bound is the number of turns START leaves at most. -/
theorem State.started_turnsLeft (s : State) (i : Instr) : (s.started i).blk.turnsLeft ≤ turnBound i := by
  have hrun := s.started_running i
  cases i with
  | encu v o l => rw [hrun.turnsLeft_encode (isEncode_encu v o l)]; exact encodeTotal_start _ v
  | encs v o l => rw [hrun.turnsLeft_encode (isEncode_encs v o l)]; exact encodeTotal_start _ v
  | decu v o l => rw [hrun.turnsLeft_decode (isEncode_decu v o l)]; exact le_rfl
  | decs v o l => rw [hrun.turnsLeft_decode (isEncode_decs v o l)]; exact le_rfl

/-! ## One turn -/

/-- Host memory never loses a byte. -/
def KeepsPresent (s t : State) : Prop :=
  ∀ a, (Memory.read s.mem a).isSome = true → (Memory.read t.mem a).isSome = true

theorem memWrite_keepsPresent (s : State) (p : Nat) (b : Byte) : KeepsPresent s (memWrite s p b) := by
  intro a ha
  simp only [memWrite, State.withPort_mem, State.withMem_mem, Memory.read_write]
  split
  · rfl
  · exact ha

theorem finishOK_keepsPresent (n : Nat) (v : Option Bits128) (s : State) : KeepsPresent s (finishOK n v s) := by
  intro a ha
  simp only [finishOK, State.withBlk_mem, settleRaced_mem]
  by_cases hr : a ∈ s.port.raced
  · obtain ⟨d, -, -, hd⟩ := drawRaced_read_raced _ s hr
    simp [hd]
  · rwa [drawRaced_read_other _ _ hr]

/-- What the turn of a running block at position k leaves, beside its accesses: the schedule, the bytes that are
present, and an operation that has ended or stands at k + 1, with fewer turns to go. -/
structure TurnTaken (s t : State) (op : BitVec 2) (o l k : Nat) : Prop where
  actions : t.actions = s.actions
  present : KeepsPresent s t
  outcome : t.blk.state = .idle ∨ ∃ rem acc, t.blk.Running op o l rem acc (k + 1)
  fewer : t.blk.turnsLeft < s.blk.turnsLeft

/-- The operation has ended. -/
theorem TurnTaken.of_idle (h : s.blk.Running op o l rem acc k) (ha : t.actions = s.actions) (hp : KeepsPresent s t)
    (hs : t.blk.state = .idle) : TurnTaken s t op o l k :=
  ⟨ha, hp, Or.inl hs, by rw [Block.turnsLeft_idle hs]; exact h.turnsLeft_pos⟩

/-- An encoder's turn writes one byte, at position K (R100, R120). -/
theorem blockTurn_writes (h : s.blk.Running op o l rem acc k) (he : isEncode op = true) :
    ∃ t b, blockTurn s = .next t ∧ t.port.accesses = s.port.accesses ++ [.write k b] ∧ TurnTaken s t op o l k := by
  obtain ⟨shift, more, henc, hturn⟩ := blockTurn_encode h.state h.op he
  rw [hturn, encoderStep_eq h.rem h.k]
  cases hm : more (lowGroup rem) (shift rem) with
  | false =>
    refine ⟨_, wireByte false (lowGroup rem), rfl, rfl, .of_idle h ?_ (fun a ha => ?_) rfl⟩
    · simp [finishOK, memWrite]
    · exact finishOK_keepsPresent _ _ _ a (memWrite_keepsPresent s k _ a ha)
  | true =>
    have hrun : Block.Running { s.blk with rem := some (shift rem), k := some (k + 1) } op o l (shift rem) acc (k + 1) :=
      ⟨h.state, h.op, h.offset, h.srcLen, rfl, h.acc, rfl⟩
    refine ⟨_, wireByte true (lowGroup rem), rfl, rfl, rfl, memWrite_keepsPresent s k _, Or.inr ⟨_, _, hrun⟩, ?_⟩
    have hpos := encodeTotal_pos op rem k
    refine lt_of_eq_of_lt (hrun.turnsLeft_encode he) ?_
    rw [h.turnsLeft_encode he, encodeTotal_shift henc hm]
    omega

/-- At the end of its source a decoder's turn raises Truncated (R103, R123, R145). -/
theorem blockTurn_truncates (h : s.blk.Running op o l rem acc k) (he : isEncode op = false) (hk : l ≤ o + k) :
    blockTurn s = .next (raiseError errTruncated s) ∧ TurnTaken s (raiseError errTruncated s) op o l k := by
  obtain ⟨overflow, complete, hturn⟩ := blockTurn_decode h.state h.op he
  exact ⟨hturn.trans (decoderStep_truncated h.offset h.srcLen h.acc h.k hk), .of_idle h rfl (fun _ => id) rfl⟩

/-- Within its source a decoder's turn reads one byte, at index OFFSET + K (R103, R123). -/
theorem blockTurn_reads (h : s.blk.Running op o l rem acc k) (he : isEncode op = false) (hk : o + k < l) {b : Byte}
    (hb : memRead s (o + k) = some b) :
    ∃ t, blockTurn s = .next t ∧ t.port.accesses = s.port.accesses ++ [.read (o + k) b] ∧ TurnTaken s t op o l k := by
  obtain ⟨overflow, complete, hturn⟩ := blockTurn_decode h.state h.op he
  rw [hturn, decoderStep_read h.offset h.srcLen h.acc h.k hk hb]
  refine ⟨_, rfl, ?_⟩
  split
  · exact ⟨rfl, .of_idle h rfl (fun _ => id) rfl⟩
  · split
    · have hrun (acc') : Block.Running { s.blk with acc := some acc', k := some (k + 1) } op o l rem acc' (k + 1) :=
        ⟨h.state, h.op, h.offset, h.srcLen, h.rem, rfl, rfl⟩
      refine ⟨rfl, rfl, fun _ => id, Or.inr ⟨_, _, hrun _⟩, lt_of_eq_of_lt ((hrun _).turnsLeft_decode he) ?_⟩
      rw [h.turnsLeft_decode he]
      omega
    · refine ⟨rfl, .of_idle h ?_ (fun a ha => ?_) rfl⟩
      · simp [finishOK, noteRead]
      · exact finishOK_keepsPresent _ _ _ a ha

/-- R37, R162: a turn never waits, a decode's next byte being present. -/
theorem blockTurn_taken (h : s.blk.Running op o l rem acc k)
    (hp : isEncode op = false → o + k < l → (memRead s (o + k)).isSome) :
    ∃ t, blockTurn s = .next t ∧ TurnTaken s t op o l k := by
  cases he : isEncode op with
  | true =>
    obtain ⟨t, -, ht, -, htaken⟩ := blockTurn_writes h he
    exact ⟨t, ht, htaken⟩
  | false =>
    rcases Nat.lt_or_ge (o + k) l with hk | hk
    · obtain ⟨b, hb⟩ := Option.isSome_iff_exists.1 (hp he hk)
      obtain ⟨t, ht, -, htaken⟩ := blockTurn_reads h he hk hb
      exact ⟨t, ht, htaken⟩
    · exact ⟨_, blockTurn_truncates h he hk⟩

/-- A turn that answers a next state met no absent byte. -/
theorem turnTaken_of_next (h : s.blk.Running op o l rem acc k) (ht : blockTurn s = .next t) :
    TurnTaken s t op o l k := by
  have hp : isEncode op = false → o + k < l → (memRead s (o + k)).isSome := by
    intro he hk
    obtain ⟨overflow, complete, hturn⟩ := blockTurn_decode h.state h.op he
    cases hb : memRead s (o + k) with
    | none =>
      rw [hturn, decoderStep_absent h.offset h.srcLen h.acc h.k hk hb] at ht
      cases ht
    | some b => rfl
  obtain ⟨u, hu, htaken⟩ := blockTurn_taken h hp
  cases hu.symm.trans ht
  exact htaken

/-- Settles O43: the accesses of one turn, by the direction of the operation and the end of the source. -/
theorem busyBlockTakesOneStep : Obligations.BusyBlockTakesOneStep := by
  intro s op o l k hi hb hop ho hl hk
  have hrun : ∃ rem acc, s.blk.Running op o l rem acc k := by
    obtain ⟨op', o', l', rem, acc, k', hrun⟩ := (hi.blocks _ List.mem_cons_self).running hb
    exact ⟨rem, acc, hb, hop, ho, hl, hrun.rem, hrun.acc, hk⟩
  obtain ⟨rem, acc, hrun⟩ := hrun
  have ends_or_goes_on {t : State} (h : TurnTaken s t op o l k) :
      t.blk.state = .idle ∨ t.blk.state = .busy ∧ t.blk.k = some (k + 1) :=
    h.outcome.imp_right fun ⟨_, _, h'⟩ => ⟨h'.state, h'.k⟩
  refine ⟨⟨?_, ?_, ?_, ?_⟩, fun he => ?_, fun he hle => ?_, fun he b hlt hbyte => ?_⟩
  · rintro rfl; exact blockTurn_of_op (i := .encu 0 0 0) hb hop
  · rintro rfl; exact blockTurn_of_op (i := .decu 0 0 0) hb hop
  · rintro rfl; exact blockTurn_of_op (i := .encs 0 0 0) hb hop
  · rintro rfl; exact blockTurn_of_op (i := .decs 0 0 0) hb hop
  · obtain ⟨t, b, ht, hacc, htaken⟩ := blockTurn_writes hrun he
    exact ⟨t, b, ht, hacc, ends_or_goes_on htaken⟩
  · exact ⟨_, (blockTurn_truncates hrun he hle).1, rfl, rfl, rfl⟩
  · obtain ⟨t, ht, hacc, htaken⟩ := blockTurn_reads hrun he hlt hbyte
    exact ⟨t, ht, hacc, ends_or_goes_on htaken⟩

/-! ## The end of an operation -/

/-- As many turns as a running block has left end its operation, unless one of them stops. -/
theorem blockTurns_ends (n : Nat) : ∀ {s : State} {rem acc : Bits128} {k : Nat}, s.blk.Running op o l rem acc k →
    s.blk.turnsLeft ≤ n → blockTurns n s = .next t → t.blk.state = .idle := by
  induction n with
  | zero => intro s rem acc k h hn; have := h.turnsLeft_pos; omega
  | succ n ih =>
    intro s rem acc k h hn ht
    obtain ⟨u, hu, ht⟩ := andThen_eq_next.1 ht
    have htaken := turnTaken_of_next h hu
    rcases htaken.outcome with hidle | ⟨rem', acc', hrun⟩
    · rw [blockTurns_idle hidle] at ht
      cases ht
      exact hidle
    · exact ih hrun (by have := htaken.fewer; omega) ht

end Running

/-- A command that completes has come to STATE = IDLE (R39). -/
theorem exec_idle {i : Instr} {s t : State} (h : exec i s = .next t) : t.blk.state = .idle := by
  rw [exec_turns, andThen_eq_next] at h
  obtain ⟨u, hu, h⟩ := h
  obtain ⟨-, rfl⟩ := startInstr_eq_next.1 hu
  exact blockTurns_ends _ (s.started_running i) (s.started_turnsLeft i) h

/-- Settles O41: the turns beyond the bound find the block IDLE, or the run has stopped before. -/
theorem transactionIsTheStepView : Obligations.TransactionIsTheStepView := by
  intro i s n hn
  obtain ⟨m, rfl⟩ := Nat.exists_eq_add_of_le hn
  have hsplit : andThen (startInstr i s) (blockTurns (turnBound i + m)) = andThen (exec i s) (blockTurns m) := by
    rw [exec_turns, andThen_assoc]
    exact congrArg _ (funext (blockTurns_add _ _))
  rw [hsplit]
  cases h : exec i s with
  | next t => exact (blockTurns_idle (exec_idle h) m).symm
  | fault e => rfl
  | refused e => rfl

/-- A decode that may be issued completes, its source bytes being present (R37, R162). -/
theorem exec_decode_next {i : Instr} {s : State} (he : isEncode i.op = false) (hm : s.mayIssue i)
    (hp : s.sourcePresent i.offset i.srcLen) : ∃ t, exec i s = .next t := by
  have hpresent (m : Nat) : ∀ k ≤ m, i.offset + k < i.srcLen → (memRead s (i.offset + k)).isSome :=
    fun k _ hk => hp _ (by omega) hk
  cases i with
  | encu v o l => simp at he
  | encs v o l => simp at he
  | decu v o l =>
    obtain ⟨m, -, hstop, hlt⟩ := first_stop (overflow := overflowU) s o l
    exact ⟨_, exec_decode rfl rfl hm (hpresent m) hstop hlt⟩
  | decs v o l =>
    obtain ⟨m, -, hstop, hlt⟩ := first_stop (overflow := overflowS) s o l
    exact ⟨_, exec_decode rfl rfl hm (hpresent m) hstop hlt⟩

/-- R37's bounds in one form. -/
theorem turnBound_eq (i : Instr) : turnBound i =
    if isEncode i.op then 19 else if i.offset ≤ i.srcLen then i.srcLen - i.offset + 1 else 1 := by
  have hdecode (o l : Nat) : l - o + 1 = if o ≤ l then l - o + 1 else 1 := by split <;> omega
  cases i with
  | encu v o l => rw [isEncode_encu, if_pos rfl]; rfl
  | encs v o l => rw [isEncode_encs, if_pos rfl]; rfl
  | decu v o l => rw [isEncode_decu, if_neg Bool.false_ne_true]; exact hdecode o l
  | decs v o l => rw [isEncode_decs, if_neg Bool.false_ne_true]; exact hdecode o l

/-- Settles O42: a turn never waits, and the bound's turns complete a command that may be issued. -/
theorem operationsEndWithinTheirBound : Obligations.OperationsEndWithinTheirBound := by
  refine ⟨fun s hi hb hp => ?_, fun s i hm hp => ?_⟩
  · obtain ⟨op, o, l, rem, acc, k, hrun⟩ := (hi.blocks _ List.mem_cons_self).running hb
    obtain ⟨t, ht, -⟩ := blockTurn_taken hrun fun he hk =>
      hp op hrun.op he o hrun.offset l hrun.srcLen (o + k) (by omega) hk
    exact ⟨t, ht⟩
  · have hnext : ∃ t, exec i s = .next t := by
      cases he : isEncode i.op with
      | true => exact ⟨_, exec_encode he hm⟩
      | false => exact exec_decode_next he hm (hp he)
    obtain ⟨t, ht⟩ := hnext
    exact ⟨turnBound i, t, (turnBound_eq i).le, exec_turns i s ▸ ht, exec_idle ht⟩

end Sys2Proof.Machine
end

section
/-! PROOFS. Every running operation ends when the host has nothing left to do (10_state.md R37, D21; log entry 6). -/

namespace Sys2Proof.Machine

variable {s t : State}

/-- R162 for every block: the source bytes of every running decode are present. -/
def State.SourcesPresent (s : State) : Prop :=
  ∀ u ∈ s.agents, ∀ a, inRange (sourceRange u) a = true → (Memory.read s.mem a).isSome = true

/-- The turns that the blocks have left together. -/
def State.turnsLeft (s : State) : Nat := (s.agents.map fun u => u.1.turnsLeft).sum

/-- What falls with every step of an empty schedule: a block's turn lowers the turns that are left, and turning from an
IDLE block to a BUSY one keeps them. -/
def State.fairMeasure (s : State) : Nat := 2 * s.turnsLeft + if s.blk.state = .idle then 1 else 0

/-- A step of an empty schedule that brings the blocks nearer to their end and keeps what the next such step needs. -/
structure FairStep (s t : State) : Prop where
  step : step s = .next t
  inv : t.Inv
  actions : t.actions = []
  sources : t.SourcesPresent
  nearer : t.fairMeasure < s.fairMeasure

theorem fairMeasure_busy (h : s.blk.state = .busy) : s.fairMeasure = 2 * s.turnsLeft := by
  simp [State.fairMeasure, h]

theorem fairMeasure_idle (h : s.blk.state = .idle) : s.fairMeasure = 2 * s.turnsLeft + 1 := by
  simp [State.fairMeasure, h]

theorem fairMeasure_le (s : State) : s.fairMeasure ≤ 2 * s.turnsLeft + 1 := by
  unfold State.fairMeasure
  split <;> omega

/-- A block's turn takes no source byte away and adds none to a source range. -/
theorem BlockStep.sourcesPresent (h : BlockStep s t) (hp : KeepsPresent s t) (hs : s.SourcesPresent) :
    t.SourcesPresent := by
  obtain ⟨hself, hothers⟩ := List.forall_mem_cons.1 hs
  refine List.forall_mem_cons.2 ⟨fun a ha => ?_, fun u hu a ha => hp a (hothers u (h.others ▸ hu) a ha)⟩
  rcases h.src with hsrc | hsrc <;> rw [hsrc] at ha
  · exact hp a (hself a ha)
  · simp at ha

/-- The selected block is BUSY: it takes its turn. -/
theorem fairStep_of_busy (hi : s.Inv) (ha : s.actions = []) (hs : s.SourcesPresent) (hb : s.blk.state = .busy) :
    ∃ t, FairStep s t := by
  obtain ⟨op, o, l, rem, acc, k, hrun⟩ := (hi.blocks _ List.mem_cons_self).running hb
  have hp : isEncode op = false → o + k < l → (memRead s (o + k)).isSome := by
    intro he hk
    refine hs _ List.mem_cons_self _ ?_
    rw [sourceRange_running hrun.state hrun.op he hrun.offset hrun.srcLen]
    simp only [inRange, decide_eq_true_eq]
    omega
  obtain ⟨t, ht, htaken⟩ := blockTurn_taken hrun hp
  rw [blockTurn_busy hb] at ht
  have hblock := stepOperation_blockStep hi hb ht
  have hsum : t.turnsLeft < s.turnsLeft := by
    have hfewer := htaken.fewer
    simp only [State.turnsLeft, State.agents, List.map_cons, List.sum_cons, hblock.others]
    omega
  refine ⟨t, ?_, hblock.inv hi, htaken.actions.trans ha, hblock.sourcesPresent htaken.present hs, ?_⟩
  · rw [step_nil ha, fairTurn, hb]; exact ht
  · have hle := fairMeasure_le t
    rw [fairMeasure_busy hb]
    omega

/-- The selected block is IDLE and another is BUSY: the host turns to a BUSY one. -/
theorem fairStep_of_idle (hi : s.Inv) (ha : s.actions = []) (hs : s.SourcesPresent) (hidle : s.blk.state = .idle)
    {v : Agent} (hv : v ∈ s.others) (hb : v.1.state = .busy) : ∃ t, FairStep s t := by
  obtain ⟨n, hn⟩ : ∃ n, s.others.findIdx? (fun u => u.1.state == .busy) = some n := by
    rw [← Option.isSome_iff_exists, List.findIdx?_isSome, List.any_eq_true]
    exact ⟨v, hv, by simp [hb]⟩
  obtain ⟨hlt, hbusy, -⟩ := List.findIdx?_eq_some_iff_getElem.1 hn
  obtain ⟨t, ht⟩ : ∃ t, select n s = .next t := ⟨_, select_eq_next.2 ⟨_, List.getElem?_eq_getElem hlt, rfl⟩⟩
  have hperm := select_agents ht
  have hsum : t.turnsLeft = s.turnsLeft := (hperm.map _).sum_eq
  have hinv := select_inv hi ht
  obtain ⟨u, hu, rfl⟩ := select_eq_next.1 ht
  obtain ⟨_, rfl⟩ := List.getElem?_eq_some_iff.1 hu
  refine ⟨_, ?_, hinv, ha, fun w hw => hs w (hperm.mem_iff.1 hw), ?_⟩
  · rw [step_nil ha, fairTurn, hidle]
    simp only [hn]
    exact ht
  · rw [fairMeasure_idle hidle, fairMeasure_busy (by simpa using hbusy), hsum]
    omega

/-- While a block is BUSY there is such a step. -/
theorem exists_fairStep (hi : s.Inv) (ha : s.actions = []) (hs : s.SourcesPresent)
    (hrunning : ¬ ∀ u ∈ s.agents, u.1.state = .idle) : ∃ t, FairStep s t := by
  cases hb : s.blk.state with
  | busy => exact fairStep_of_busy hi ha hs hb
  | idle =>
    have hother : ∃ v ∈ s.others, v.1.state = .busy := by
      by_contra hnone
      refine hrunning (List.forall_mem_cons.2 ⟨hb, fun v hv => ?_⟩)
      cases hv' : v.1.state with
      | idle => rfl
      | busy => exact absurd ⟨v, hv, hv'⟩ hnone
    obtain ⟨v, hv, hbusy⟩ := hother
    exact fairStep_of_idle hi ha hs hb hv hbusy

theorem run_succ_of_step {M : Host.Core} {n : Nat} {s t : M.State} (h : M.step s = .next t) :
    M.run (n + 1) s = M.run n t := by
  rw [Host.Core.run, h]

/-- Settles O44: by induction on the measure, which every step lowers while a block is BUSY. -/
theorem everyRunningOperationEnds : Obligations.EveryRunningOperationEnds := by
  intro s hi ha hs
  induction hm : s.fairMeasure using Nat.strong_induction_on generalizing s with
  | _ m ih =>
    by_cases hdone : ∀ u ∈ s.agents, u.1.state = .idle
    · exact ⟨0, s, rfl, hdone⟩
    · obtain ⟨t, hstep, hinv, hactions, hsources, hnearer⟩ := exists_fairStep hi ha hs hdone
      obtain ⟨n, u, hrun, hidle⟩ := ih t.fairMeasure (hm ▸ hnearer) t hinv hactions hsources rfl
      exact ⟨n + 1, u, (run_succ_of_step (M := Sys2Proof.core) hstep).trans hrun, hidle⟩

end Sys2Proof.Machine
end

section
/-! PROOFS. Which bit of a value each payload bit carries (20_memory.md R55). -/

namespace Sys2Proof.Machine

/-- R101: the groups of an unsigned value are its bits in order; no bit of the value lies above bit 127. -/
theorem payload_wireU_getLsbD (v : Bits128) (n k : Nat) {j : Nat} (hj : j < 7) :
    (payload (wireU v n k)).getLsbD j = v.getLsbD (7 * k + j) := by
  rw [wireU, payload_wireByte, BitVec.getLsbD_setWidth, BitVec.getLsbD_ushiftRight]
  simp [hj]

/-- R121: the groups of a signed value are its bits in order; above bit 127 the shift brings in the sign bit. -/
theorem payload_wireS_getLsbD (v : Bits128) (n k : Nat) {j : Nat} (hj : j < 7) :
    (payload (wireS v n k)).getLsbD j = if 7 * k + j < 128 then v.getLsbD (7 * k + j) else v.getLsbD 127 := by
  have hj' : ¬ 128 ≤ j := by omega
  rw [wireS, payload_wireByte, BitVec.getLsbD_setWidth, BitVec.getLsbD_sshiftRight, BitVec.msb_eq_getLsbD_last]
  simp [hj, hj']

/-- Settles O14: the groups that the encoders cut out, and the place where a decoder puts one. -/
theorem payloadBitsAreValueBits : Obligations.PayloadBitsAreValueBits :=
  ⟨fun v n k _ hj => payload_wireU_getLsbD v n k hj, fun v n k _ hj => payload_wireS_getLsbD v n k hj,
    fun acc p k _ hi => accumulate_getLsbD acc p k hi⟩

end Sys2Proof.Machine
end

section
/-! PROOFS. The command word and the START tuple (30_encoding.md R78, R79, R82): the four fields of a tuple as one
number, decoding what was encoded, and encoding what was decoded. -/

namespace Sys2Proof

/-! ## The fields of a tuple -/

section Fields

variable (w : Nat) (i : Instr)

theorem encodeTuple_op : BitVec.ofNat 2 (encodeTuple w i) = i.op := by
  apply BitVec.eq_of_toNat_eq
  have := i.op.isLt
  rw [BitVec.toNat_ofNat, encodeTuple]
  omega

theorem encodeTuple_aboveOp :
    encodeTuple w i / 2 ^ 2 = i.vin.toNat + 2 ^ 128 * (i.offset + 2 ^ w * i.srcLen) := by
  have := i.op.isLt
  rw [encodeTuple]
  omega

theorem encodeTuple_vin : BitVec.ofNat 128 (encodeTuple w i / 2 ^ 2) = i.vin := by
  apply BitVec.eq_of_toNat_eq
  rw [encodeTuple_aboveOp, BitVec.toNat_ofNat, Nat.add_mul_mod_self_left, Nat.mod_eq_of_lt i.vin.isLt]

theorem encodeTuple_aboveVin : encodeTuple w i / 2 ^ 130 = i.offset + 2 ^ w * i.srcLen := by
  rw [show 2 ^ 130 = 2 ^ 2 * 2 ^ 128 from rfl, ← Nat.div_div_eq_div_mul, encodeTuple_aboveOp,
    Nat.add_mul_div_left _ _ (by norm_num), Nat.div_eq_of_lt i.vin.isLt, Nat.zero_add]

variable {w i}

theorem encodeTuple_offset (h : i.offset < 2 ^ w) : encodeTuple w i / 2 ^ 130 % 2 ^ w = i.offset := by
  rw [encodeTuple_aboveVin, Nat.add_mul_mod_self_left, Nat.mod_eq_of_lt h]

theorem encodeTuple_srcLen (h : i.offset < 2 ^ w) : encodeTuple w i / 2 ^ (130 + w) = i.srcLen := by
  rw [pow_add, ← Nat.div_div_eq_div_mul, encodeTuple_aboveVin, Nat.add_mul_div_left _ _ (by positivity),
    Nat.div_eq_of_lt h, Nat.zero_add]

/-- A number below `2 ^ tupleBits w` is one whose top field fits W bits. -/
theorem lt_tupleBits_iff {n : Nat} : n < 2 ^ tupleBits w ↔ n / 2 ^ (130 + w) < 2 ^ w := by
  rw [Nat.div_lt_iff_lt_mul (by positivity), ← pow_add, show w + (130 + w) = tupleBits w by unfold tupleBits; omega]

theorem encodeTuple_lt (h : i.wellFormed w) : encodeTuple w i < 2 ^ tupleBits w := by
  rw [lt_tupleBits_iff, encodeTuple_srcLen h.1]
  exact h.2

/-- The bytes of a tuple hold its bits. -/
theorem two_pow_tupleBits_le (w : Nat) : 2 ^ tupleBits w ≤ 256 ^ tupleBytes w := by
  rw [show 256 = 2 ^ 8 from rfl, ← pow_mul]
  exact Nat.pow_le_pow_right (by omega) (by unfold tupleBytes; omega)

theorem decodeTuple_encodeTuple (h : i.wellFormed w) : decodeTuple w (encodeTuple w i) = .ok i := by
  simp only [decodeTuple, encodeTuple_op, encodeTuple_vin, encodeTuple_offset h.1, encodeTuple_srcLen h.1, if_pos h.2,
    commandOf_eta]

/-- What a number decodes to: its four fields, the top one of W bits. -/
theorem decodeTuple_eq_ok {n : Nat} : decodeTuple w n = .ok i ↔ n / 2 ^ (130 + w) < 2 ^ w ∧
    commandOf (BitVec.ofNat 2 n) (BitVec.ofNat 128 (n / 2 ^ 2)) (n / 2 ^ 130 % 2 ^ w) (n / 2 ^ (130 + w)) = i := by
  by_cases h : n / 2 ^ (130 + w) < 2 ^ w <;> simp [decodeTuple, h]

theorem decode_eq_ok {bs : List Byte} :
    decode w bs = .ok i ↔ bs.length = tupleBytes w ∧ decodeTuple w (natOfBytes bs) = .ok i := by
  by_cases h : bs.length = tupleBytes w <;> simp [decode, h]

/-- A number is put together from its fields. -/
theorem encodeTuple_commandOf (w n : Nat) :
    encodeTuple w (commandOf (BitVec.ofNat 2 n) (BitVec.ofNat 128 (n / 2 ^ 2)) (n / 2 ^ 130 % 2 ^ w)
      (n / 2 ^ (130 + w))) = n := by
  have htop : n / 2 ^ 130 % 2 ^ w + 2 ^ w * (n / 2 ^ (130 + w)) = n / 2 ^ 130 := by
    rw [pow_add, ← Nat.div_div_eq_div_mul, Nat.mod_add_div]
  have hvin : n / 2 ^ 2 % 2 ^ 128 + 2 ^ 128 * (n / 2 ^ 130) = n / 2 ^ 2 := by
    rw [show 2 ^ 130 = 2 ^ 2 * 2 ^ 128 from rfl, ← Nat.div_div_eq_div_mul, Nat.mod_add_div]
  simp only [encodeTuple, commandOf_op, commandOf_vin, commandOf_offset, commandOf_srcLen, BitVec.toNat_ofNat, htop,
    hvin, Nat.mod_add_div]

end Fields

/-! ## Both directions -/

/-- Settles O7: the tuple's number fits its bytes, and each field is read where it was put. -/
theorem decodeOfEncodeIsTheCommand : Obligations.DecodeOfEncodeIsTheCommand := by
  intro w i h
  rw [decode_eq_ok, encode, length_bytesOfNat, natOfBytes_bytesOfNat,
    Nat.mod_eq_of_lt ((encodeTuple_lt h).trans_le (two_pow_tupleBits_le w))]
  exact ⟨rfl, decodeTuple_encodeTuple h⟩

/-- Settles O8: the fields put together are the number that the bytes stand for. -/
theorem encodeOfDecodeIsTheTuple : Obligations.EncodeOfDecodeIsTheTuple := by
  intro w bs i h
  obtain ⟨hlength, htuple⟩ := decode_eq_ok.1 h
  obtain ⟨hsrcLen, rfl⟩ := decodeTuple_eq_ok.1 htuple
  refine ⟨?_, ?_⟩
  · rw [Instr.wellFormed, commandOf_offset, commandOf_srcLen]
    exact ⟨Nat.mod_lt _ (by positivity), hsrcLen⟩
  · rw [encode, encodeTuple_commandOf, ← hlength, bytesOfNat_natOfBytes]

/-! ## Command words -/

/-- Settles O5: both tables are written out from R78's. -/
theorem commandWordNamesItsOperation : Obligations.CommandWordNamesItsOperation :=
  fun _ _ _ => ⟨⟨rfl, rfl⟩, ⟨rfl, rfl⟩, ⟨rfl, rfl⟩, ⟨rfl, rfl⟩⟩

/-- A table word is the tuple of the command whose operands are zero. -/
theorem tableBytes_op {nbits : Nat} (h : 2 ≤ nbits) (w : Nat) (op : BitVec 2) :
    tableBytes w nbits op.toNat = encode w (commandOf op 0 0 0) := by
  have hfits : op.toNat < 2 ^ nbits := op.isLt.trans_le (Nat.pow_le_pow_right (by omega) h)
  rw [tableBytes, Nat.mod_eq_of_lt hfits, encode, encodeTuple]
  simp

theorem decodeTableWord_op {nbits : Nat} (h : 2 ≤ nbits) (op : BitVec 2) :
    decodeTableWord nbits op.toNat = some (commandOf op 0 0 0) := by
  have hdecode : decode Config.resetUsizeBits (tableBytes Config.resetUsizeBits nbits op.toNat) =
      .ok (commandOf op 0 0 0) := by
    rw [tableBytes_op h]
    exact decodeOfEncodeIsTheCommand _ _ (by simp [Instr.wellFormed])
  simp only [decodeTableWord, hdecode]

/-- Settles O6: the four words are the four values of OP. -/
theorem tableWordsDecode : Obligations.TableWordsDecode := fun _ h =>
  ⟨decodeTableWord_op h 0b00#2, decodeTableWord_op h 0b01#2, decodeTableWord_op h 0b10#2, decodeTableWord_op h 0b11#2⟩

end Sys2Proof
end

section
/-! PROOFS. The wire format (30_encoding.md R70 to R76): minimal lengths, and the one shortest sequence of a value. -/

namespace Sys2Proof.Machine

/-- Settles O13: the two parts of a byte, and the byte of its parts. -/
theorem wireByteHoldsFlagAndPayload : Obligations.WireByteHoldsFlagAndPayload :=
  ⟨fun c p => ⟨continues_wireByte c p, payload_wireByte c p⟩, wireByte_eta⟩

/-! ## Lengths -/

/-- R101, R121: an encode that ends has counted and accessed the bytes it wrote. -/
theorem exec_encode_counts {i : Instr} {s t : State} (he : isEncode i.op = true) (h : exec i s = .next t) :
    t.blk.count = some (bytesWritten i).length ∧ t.port.accesses.length = (bytesWritten i).length := by
  rw [exec_encode he (mayIssue_of_exec h)] at h
  cases h
  exact ⟨rfl, by simp [State.afterEncode, writesOf]⟩

theorem lengthU_eq_one_iff (v : Nat) : lengthU v = 1 ↔ v < 128 := by
  have hle := lengthU_le_iff v le_rfl
  have hpos := lengthU_pos v
  omega

theorem lengthU_eq_iff (v : Nat) {k : Nat} (hk : 2 ≤ k) :
    lengthU v = k ↔ 2 ^ (7 * (k - 1)) ≤ v ∧ v < 2 ^ (7 * k) := by
  have hle := lengthU_le_iff v (n := k) (by omega)
  have hshorter := lengthU_le_iff v (n := k - 1) (by omega)
  omega

/-- Settles O15: the length is the least one whose groups hold the value, and ENCU writes the value's encoding. -/
theorem unsignedLengthIsMinimal : Obligations.UnsignedLengthIsMinimal := by
  refine ⟨lengthU_eq_one_iff, fun v k hk => lengthU_eq_iff v hk, fun v hv => ?_, fun s t v o l h => ?_⟩
  · exact (lengthU_le_iff v (by omega)).2 (hv.trans (by norm_num))
  · simpa [bytesWritten] using exec_encode_counts (isEncode_encu v o l) h

/-- Settles O16: the length is the least one whose range holds the value, and ENCS writes the value's encoding. -/
theorem signedLengthIsMinimal : Obligations.SignedLengthIsMinimal := by
  refine ⟨fun v => ⟨lengthS_pos v, (lengthS_le_iff v (lengthS_pos v)).1 le_rfl⟩,
    fun v n hn hlow hhigh => (lengthS_le_iff v hn).2 ⟨hlow, hhigh⟩, fun v hlow hhigh => ?_, fun s t v o l h => ?_⟩
  · rw [lengthS_le_iff v (by omega)]
    norm_num at hlow hhigh ⊢
    omega
  · simpa [bytesWritten] using exec_encode_counts (isEncode_encs v o l) h

/-! ## Sequences of one length -/

theorem eq_of_continues_of_payload {b c : Byte} (hc : continues b = continues c) (hp : payload b = payload c) :
    b = c := by
  rw [← wireByte_eta b, ← wireByte_eta c, hc, hp]

/-- Groups of seven bits are the digits of the value. -/
theorem payloads_eq_of_denoteU_eq {bs cs : List Byte} (hl : bs.length = cs.length) (h : denoteU bs = denoteU cs) :
    bs.map payload = cs.map payload := by
  induction bs generalizing cs with
  | nil => rw [List.length_eq_zero_iff.1 hl.symm]
  | cons b bs ih =>
    obtain ⟨c, cs, rfl⟩ := List.exists_cons_of_length_eq_add_one hl.symm
    have hb := (payload b).isLt
    have hc := (payload c).isLt
    rw [denoteU, denoteU] at h
    have hhead : payload b = payload c := BitVec.eq_of_toNat_eq (by omega)
    rw [List.map_cons, List.map_cons, hhead, ih (Nat.succ.inj hl) (by omega)]

/-- R71: the flags of a sequence are given by its length, so its value and its length determine it. -/
theorem sequence_eq {bs cs : List Byte} (hb : isSequence bs = true) (hc : isSequence cs = true)
    (hl : bs.length = cs.length) (h : denoteU bs = denoteU cs) : bs = cs := by
  have hpayloads := payloads_eq_of_denoteU_eq hl h
  have hbflags := ((isSequence_iff bs).1 hb).2
  have hcflags := ((isSequence_iff cs).1 hc).2
  refine List.ext_getElem hl fun k hbk hck => eq_of_continues_of_payload ?_ ?_
  · rw [hbflags k hbk, hcflags k hck, hl]
  · simpa [hbk, hck] using congrArg (·[k]?) hpayloads

/-- R73: at one length the signed value determines the unsigned one, which is its residue. -/
theorem denoteU_eq_of_denoteS_eq {bs cs : List Byte} (hl : bs.length = cs.length) (h : denoteS bs = denoteS cs) :
    denoteU bs = denoteU cs := by
  have hb := denoteU_lt bs
  have hc := denoteU_lt cs
  have hpow : ((2 ^ (7 * cs.length) : Nat) : Int) = 2 ^ (7 * cs.length) := by push_cast; rfl
  rw [denoteS, denoteS, hl, ← hpow] at h
  rw [hl] at hb
  split at h <;> split at h <;> omega

/-! ## The encodings are sequences that denote their values -/

/-- R71: n bytes, n ≥ 1, whose flags are set before byte n − 1 alone. -/
theorem isSequence_map_range {n : Nat} (hn : 1 ≤ n) {f : Nat → Byte}
    (h : ∀ k, continues (f k) = decide (k < n - 1)) : isSequence ((List.range n).map f) = true := by
  refine (isSequence_iff _).2 ⟨by simp; omega, fun k hk => ?_⟩
  simp only [List.getElem_map, List.getElem_range, h, List.length_map, List.length_range, decide_eq_decide]
  omega

theorem isSequence_encodingU (v : Bits128) : isSequence (encodingU v) = true :=
  isSequence_map_range (lengthU_pos _) fun _ => continues_wireByte _ _

theorem isSequence_encodingS (v : Bits128) : isSequence (encodingS v) = true :=
  isSequence_map_range (lengthS_pos _) fun _ => continues_wireByte _ _

theorem encodingS_ne_nil (v : Bits128) : encodingS v ≠ [] := ((isSequence_iff _).1 (isSequence_encodingS v)).1

theorem uint_lowGroup (v : Bits128) : (lowGroup v).toNat = uint v % 128 := by simp [lowGroup, uint]

theorem sint_lowGroup (v : Bits128) : ((lowGroup v).toNat : Int) = sint v % 128 := by
  rw [uint_lowGroup, sint, BitVec.toInt_eq_toNat_cond, uint]
  split <;> omega

/-- R72, R101: by the remaining groups, one byte at a time. -/
theorem denoteU_encodingU (v : Bits128) : denoteU (encodingU v) = uint v := by
  induction hn : lengthU (uint v) generalizing v with
  | zero => have := lengthU_pos (uint v); omega
  | succ n ih =>
    have hlow := uint_lowGroup v
    have hiff := moreUnsigned_iff (lowGroup v) v
    cases hm : moreUnsigned (lowGroup v) (shiftUnsigned v) with
    | false =>
      simp only [hm, Bool.false_eq_true, false_iff, not_not] at hiff
      simp only [encodingU_last hm, denoteU, payload_wireByte]
      omega
    | true =>
      have hlength := lengthU_more (hiff.1 hm)
      have hshift := uint_shiftUnsigned v
      rw [encodingU_more hm, denoteU, payload_wireByte, ih _ (by rw [hshift]; omega)]
      omega

/-- R73, R121: by the remaining groups, one byte at a time; the last one carries the sign. -/
theorem denoteS_encodingS (v : Bits128) : denoteS (encodingS v) = sint v := by
  induction hn : lengthS (sint v) generalizing v with
  | zero => have := lengthS_pos (sint v); omega
  | succ n ih =>
    have hlow := sint_lowGroup v
    have hiff := moreSigned_iff v
    cases hm : moreSigned (lowGroup v) (shiftSigned v) with
    | false =>
      simp only [hm, Bool.false_eq_true, false_iff, not_not] at hiff
      rw [encodingS_last hm, denoteS_single, payload_wireByte]
      split <;> omega
    | true =>
      have hlength := lengthS_more (hiff.1 hm)
      have hshift := sint_shiftSigned v
      rw [encodingS_more hm, denoteS_cons _ (encodingS_ne_nil _), payload_wireByte, ih _ (by rw [hshift]; omega)]
      omega

/-! ## No other sequence is as short -/

theorem lengthU_le_of_denoteU {bs : List Byte} (hs : isSequence bs = true) {n : Nat} (h : denoteU bs = n) :
    lengthU n ≤ bs.length :=
  (lengthU_le_iff n (List.length_pos_of_ne_nil ((isSequence_iff bs).1 hs).1)).2 (h ▸ denoteU_lt bs)

theorem lengthS_le_of_denoteS {bs : List Byte} (hs : isSequence bs = true) {n : Int} (h : denoteS bs = n) :
    lengthS n ≤ bs.length := by
  have hne := ((isSequence_iff bs).1 hs).1
  exact (lengthS_le_iff n (List.length_pos_of_ne_nil hne)).2 (h ▸ denoteS_range hne)

/-- Settles O17: n bytes denote less than 2^(7n), and a value has one sequence of each length at most. -/
theorem unsignedEncodingIsTheOnlyMinimalOne : Obligations.UnsignedEncodingIsTheOnlyMinimalOne := by
  intro v
  refine ⟨isSequence_encodingU v, denoteU_encodingU v, fun bs hs h => ⟨lengthU_le_of_denoteU hs h, fun hl => ?_⟩⟩
  exact sequence_eq hs (isSequence_encodingU v) (by rw [hl, encodingU_length]) (by rw [h, denoteU_encodingU])

/-- Settles O18: n bytes denote a value of 7n bits, sign included, and a value has one sequence of a length at most. -/
theorem signedEncodingIsTheOnlyMinimalOne : Obligations.SignedEncodingIsTheOnlyMinimalOne := by
  intro v
  refine ⟨isSequence_encodingS v, denoteS_encodingS v, fun bs hs h => ⟨lengthS_le_of_denoteS hs h, fun hl => ?_⟩⟩
  have hl' : bs.length = (encodingS v).length := by rw [hl, encodingS_length]
  exact sequence_eq hs (isSequence_encodingS v) hl' (denoteU_eq_of_denoteS_eq hl' (by rw [h, denoteS_encodingS]))

end Sys2Proof.Machine
end

section
/-! PROOFS. Decoding an encoded sequence (30_encoding.md R72 to R74, R77): the decoder stops at the terminating byte,
whether or not the sequence is minimal and whatever bytes follow. -/

namespace Sys2Proof.Machine

section Decoder

variable {overflow : Payload → Nat → Bits128 → Bool} {complete : Bits128 → Payload → Nat → Bits128} {s : State}
  {i : Instr} {bs : List Byte}

/-- A decode of a sequence none of whose groups overflows completes after reading exactly the sequence (R74, R77). -/
theorem exec_decode_sequence (hf : stepOf i = decoderStep overflow complete)
    (hb : turnBound i = i.srcLen - i.offset + 1) (hm : s.mayIssue i) (hs : isSequence bs = true)
    (hh : s.sourceHolds i.offset bs) (hl : i.offset + bs.length ≤ i.srcLen)
    (hfits : ∀ k < bs.length,
      overflow (payload (s.sourceByte i.offset k)) k (s.accumulated i.offset k) = false) :
    exec i s = .next (s.afterDecode i.op i.offset i.srcLen
      (complete (s.accumulated i.offset bs.length) (payload (s.sourceByte i.offset (bs.length - 1))) bs.length)
      bs.length) := by
  obtain ⟨n, hn⟩ : ∃ n, bs.length = n + 1 :=
    Nat.exists_eq_add_one.2 (List.length_pos_of_ne_nil ((isSequence_iff bs).1 hs).1)
  rcases sequence_stop (overflow := overflow) hs hh hl with ⟨m, hlt, hov, -⟩ | ⟨-, hstop, hbefore⟩
  · rw [hfits m hlt] at hov; cases hov
  · have hpresent : ∀ k ≤ bs.length - 1, i.offset + k < i.srcLen → (memRead s (i.offset + k)).isSome :=
      fun k hk _ => memRead_of_holds hh (by omega)
    rw [exec_decode hf hb hm hpresent hstop hbefore, decodeEnd_started, if_neg (by omega), hfits _ (by omega),
      if_neg Bool.false_ne_true, hn, Nat.add_sub_cancel]

end Decoder

/-- Settles O30: no group overflows, the denoted value having 128 bits, and the accumulator holds it. -/
theorem decuReturnsTheDenotedValue : Obligations.DecuReturnsTheDenotedValue := by
  intro s v o l bs hm hs hh hl hv
  have hbytes := sourceBytes_of_holds hh
  have hfits := (unsigned_fits s o bs.length).2 (by rw [hbytes]; omega)
  have hvalue := accumulated_eq_bv s o bs.length
  rw [hbytes] at hvalue
  rw [exec_decode_sequence (i := .decu v o l) rfl rfl hm hs hh hl hfits, ← hvalue]
  rfl

/-- Settles O31: no group overflows, the denoted value having 128 bits, and the sign extension completes it. -/
theorem decsReturnsTheDenotedValue : Obligations.DecsReturnsTheDenotedValue := by
  intro s v o l bs hm hs hh hl hlow hhigh
  have hbytes := sourceBytes_of_holds hh
  obtain ⟨n, hn⟩ : ∃ n, bs.length = n + 1 :=
    Nat.exists_eq_add_one.2 (List.length_pos_of_ne_nil ((isSequence_iff bs).1 hs).1)
  have hfits := (signed_fits s o (n := bs.length) (by omega)).2 (by rw [hbytes]; exact ⟨hlow, hhigh⟩)
  have hvalue := completeSign_eq_bv s o n
  rw [← hn, hbytes] at hvalue
  rw [exec_decode_sequence (i := .decs v o l) rfl rfl hm hs hh hl hfits, ← hvalue, hn]
  rfl

end Sys2Proof.Machine
end

section
/-! PROOFS. The statements of a host program (30_encoding.md R81, R82): what the assembler makes of one, when it is
refused, and what it does. -/

namespace Sys2Proof.Machine

variable {s t : State} {st : Statement} {i : Instr}

/-! ## The command of a statement -/

theorem uint_bv {v : Int} (h : 0 ≤ v ∧ v ≤ 2 ^ 128 - 1) : uint (bv v) = v.toNat := by
  rw [uint, bv, BitVec.toNat_ofInt, Int.emod_eq_of_lt h.1 (by omega)]

theorem sint_bv {v : Int} (h : -2 ^ 127 ≤ v ∧ v ≤ 2 ^ 127 - 1) : sint (bv v) = v :=
  BitVec.toInt_ofInt_eq_self (by omega) h.1 (by omega)

/-- A cursor or an offset of W bits is in the range that R81 asks for. -/
theorem offset_inRange {w o : Nat} (h : o < 2 ^ w) : 0 ≤ (o : Int) ∧ (o : Int) ≤ 2 ^ w - 1 :=
  ⟨by omega, Int.le_sub_one_of_lt (by exact_mod_cast h)⟩

theorem assemble_encu {v : Int} (h : 0 ≤ v ∧ v ≤ 2 ^ 128 - 1) :
    assemble s (.encu v) = some (.encu (bv v) 0 0) := if_pos h

theorem assemble_encs {v : Int} (h : -2 ^ 127 ≤ v ∧ v ≤ 2 ^ 127 - 1) :
    assemble s (.encs v) = some (.encs (bv v) 0 0) := if_pos h

theorem assemble_decode {o : Nat} (signed : Bool) (h : o < 2 ^ s.usizeBits) :
    assemble s (if signed then .decs o else .decu o) = some (decodeOf signed o s.bufLen) := by
  cases signed <;> exact if_pos (offset_inRange h)

theorem assemble_cursor {o : Nat} (signed : Bool) (h : o < 2 ^ s.usizeBits) (hc : s.cursor = o) :
    assemble s (if signed then .decsCursor else .decuCursor) = some (decodeOf signed o s.bufLen) := by
  cases signed <;> simp [assemble, decodeOf, hc, offset_inRange h]

/-! ## The binary form -/

/-- R82: a statement's binary form decodes to its command. -/
theorem decode_binaryForm (ha : assemble s st = some i) (hw : i.wellFormed s.usizeBits) :
    (binaryForm s st).map (decode s.usizeBits) = some (.ok i) := by
  rw [binaryForm, ha, Option.map_some, Option.map_some, decodeOfEncodeIsTheCommand _ _ hw]

/-- Settles O59: each form's command, with its operands of W bits, and the round trip of its tuple. -/
theorem binaryFormIsTheStartTuple : Obligations.BinaryFormIsTheStartTuple := by
  intro s v o ho hlen
  have hzero : (0 : Nat) < 2 ^ s.usizeBits := by positivity
  refine ⟨fun hlow hhigh => ?_, fun hlow hhigh => ?_, ?_, ?_, fun hc => ⟨?_, ?_⟩, fun n => rfl⟩
  · exact decode_binaryForm (assemble_encu ⟨hlow, hhigh⟩) ⟨hzero, hzero⟩
  · exact decode_binaryForm (assemble_encs ⟨hlow, hhigh⟩) ⟨hzero, hzero⟩
  · exact decode_binaryForm (assemble_decode false ho) ⟨ho, hlen⟩
  · exact decode_binaryForm (assemble_decode true ho) ⟨ho, hlen⟩
  · exact decode_binaryForm (assemble_cursor false ho hc) ⟨ho, hlen⟩
  · exact decode_binaryForm (assemble_cursor true ho hc) ⟨ho, hlen⟩

/-! ## How a statement ends -/

/-- The source is BUF and the sink lies at the cursor (R81, log entry 28). -/
def State.atBuffer (s : State) : State := s.withPort { s.port with srcBase := 0, sinkBase := s.cursor.toNat }

/-- R81: what the assembler refuses; SETC is no command and is refused by no rule. -/
theorem execStatement_refused (hst : ∀ n, st ≠ .setc n) (ha : assemble s st = none) :
    execStatement st s = .refused .statementOutOfRange := by
  cases st with
  | setc n => exact absurd rfl (hst n)
  | _ => simp only [execStatement, ha]

/-- R81: an encode that would write outside BUF. -/
theorem execStatement_outside (ha : assemble s st = some i) (hidle : s.blk.state = .idle)
    (hf : fitsBuffer s i = false) : execStatement st s = .refused .sinkOutsideBuffer := by
  cases st with
  | setc n => cases ha
  | _ => simp only [execStatement, ha, hidle, hf]

/-- R81: any other statement is its command, run over BUF, and then the cursor's advance. -/
theorem execStatement_runs (ha : assemble s st = some i) (hidle : s.blk.state = .idle) (hf : fitsBuffer s i = true) :
    execStatement st s = andThen (exec i s.atBuffer) fun t => .next (advanceCursor st t) := by
  cases st with
  | setc n => cases ha
  | _ => simp only [execStatement, ha, hidle, hf, State.atBuffer]

theorem step_statement {rest : List Action} (h : s.actions = .statement st :: rest) :
    step s = execStatement st (s.withActions rest) := step_cons h

/-- R81: an encode fits where its bytes lie within BUF; a decode always fits. -/
theorem fitsBuffer_eq_true (s : State) (i : Instr) :
    fitsBuffer s i = true ↔ encodedLength i = 0 ∨ 0 ≤ s.cursor ∧ s.cursor + encodedLength i ≤ s.bufLen := by
  simp [fitsBuffer]

theorem fitsBuffer_decode (s : State) (signed : Bool) (o l : Nat) : fitsBuffer s (decodeOf signed o l) = true := by
  cases signed <;> rfl

theorem encodedLength_eq (i : Instr) : encodedLength i = (bytesWritten i).length := by
  cases i <;> simp [encodedLength, bytesWritten]

/-- An encode writes a byte at least (R75, R76). -/
theorem encodedLength_pos (he : isEncode i.op = true) : 1 ≤ encodedLength i := by
  cases i with
  | encu v o l => exact lengthU_pos _
  | encs v o l => exact lengthS_pos _
  | decu v o l => simp at he
  | decs v o l => simp at he

theorem fitsBuffer_eq_false (he : isEncode i.op = true)
    (h : (s.bufLen : Int) < s.cursor + encodedLength i ∨ s.cursor < 0) : fitsBuffer s i = false := by
  have hpos := encodedLength_pos he
  rw [← Bool.not_eq_true, fitsBuffer_eq_true]
  omega

/-! ## What is refused -/

/-- Settles O58: a statement out of range has no command, and an encode outside BUF does not fit. -/
theorem assemblerRefusesBadStatements : Obligations.AssemblerRefusesBadStatements := by
  intro s rest x
  refine ⟨fun ha hx => ?_, fun ha hx => ?_, fun ha hx => ?_, fun ha hx => ?_, fun ha hc => ?_, fun ha hc => ?_,
    fun ha hidle hlow hhigh hout => ?_, fun ha hidle hlow hhigh hout => ?_, fun ha => ?_⟩ <;> rw [step_statement ha]
  · exact execStatement_refused (by simp) (if_neg hx)
  · exact execStatement_refused (by simp) (if_neg hx)
  · exact execStatement_refused (by simp) (if_neg hx)
  · exact execStatement_refused (by simp) (if_neg hx)
  · exact execStatement_refused (by simp) (if_neg hc)
  · exact execStatement_refused (by simp) (if_neg hc)
  · rw [← uint_bv ⟨hlow, hhigh⟩] at hout
    exact execStatement_outside (assemble_encu ⟨hlow, hhigh⟩) hidle (fitsBuffer_eq_false (isEncode_encu _ 0 0) hout)
  · rw [← sint_bv ⟨hlow, hhigh⟩] at hout
    exact execStatement_outside (assemble_encs ⟨hlow, hhigh⟩) hidle (fitsBuffer_eq_false (isEncode_encs _ 0 0) hout)
  · rfl

/-! ## The cursor -/

/-- R81: the cursor stays where it is after an error. -/
theorem advanceCursor_error (h : t.blk.err ≠ 0) : advanceCursor st t = t := by
  have herr : (t.blk.err == errOk) = false := beq_false_of_ne h
  cases st <;> simp [advanceCursor, herr]

theorem advanceCursor_decode (signed : Bool) (o : Int) (t : State) :
    advanceCursor (if signed then .decs o else .decu o) t = t := by
  cases signed <;> simp [advanceCursor]

theorem advanceCursor_cursor {n : Nat} (signed : Bool) (he : t.blk.err = 0) (hc : t.blk.count = some n) :
    advanceCursor (if signed then .decsCursor else .decuCursor) t = t.withCursor (t.cursor + n) := by
  have herr : (t.blk.err == errOk) = true := beq_of_eq he
  cases signed <;> simp [advanceCursor, herr, hc]

theorem advanceCursor_encode {n : Nat} (signed : Bool) (v : Int) (he : t.blk.err = 0) (hc : t.blk.count = some n) :
    advanceCursor (if signed then .encs v else .encu v) t = t.withCursor (t.cursor + n) := by
  have herr : (t.blk.err == errOk) = true := beq_of_eq he
  cases signed <;> simp [advanceCursor, herr, hc]

/-! ## Encode statements -/

theorem encodeTotal_eq_length (he : isEncode i.op = true) : encodeTotal i.op i.vin 0 = (bytesWritten i).length := by
  cases i with
  | encu v o l => simp [encodeTotal, bytesWritten, Instr.op, Instr.vin]
  | encs v o l => simp [encodeTotal, bytesWritten, Instr.op, Instr.vin]
  | decu v o l => simp at he
  | decs v o l => simp at he

/-- R167: an encode may be issued where no other block's running operation meets the positions it writes. -/
theorem mayIssue_encode (he : isEncode i.op = true) (hidle : s.blk.state = .idle) (hw : i.wellFormed s.usizeBits)
    (h : s.sinkUnshared s.port.sinkBase (bytesWritten i).length) : s.mayIssue i := by
  rw [← encodeTotal_eq_length he] at h
  exact ⟨hidle, hw, aliasFault_encode he h⟩

/-- The command of an encode statement in range. -/
theorem assemble_encode (s : State) (signed : Bool) {v : Int}
    (h : if signed then -2 ^ 127 ≤ v ∧ v ≤ 2 ^ 127 - 1 else 0 ≤ v ∧ v ≤ 2 ^ 128 - 1) :
    ∃ i, assemble s (if signed then .encs v else .encu v) = some i ∧ isEncode i.op = true ∧ i.wellFormed s.usizeBits ∧
      bytesWritten i = if signed then encodingS (bv v) else encodingU (bv v) := by
  have hzero : (0 : Nat) < 2 ^ s.usizeBits := by positivity
  cases signed with
  | false => exact ⟨_, assemble_encu h, isEncode_encu _ 0 0, ⟨hzero, hzero⟩, rfl⟩
  | true => exact ⟨_, assemble_encs h, isEncode_encs _ 0 0, ⟨hzero, hzero⟩, rfl⟩

/-- Settles O56: the command completes over BUF, and what it wrote from the cursor on reads back. -/
theorem encodeStatementsPackAtTheCursor : Obligations.EncodeStatementsPackAtTheCursor := by
  intro s rest signed v bs hact hv hidle hshared hlow hhigh
  obtain ⟨i, ha, he, hw, (hbs : bytesWritten i = bs)⟩ := assemble_encode (s.withActions rest) signed hv
  clear_value bs
  subst hbs
  have hfits : fitsBuffer (s.withActions rest) i = true := by
    rw [fitsBuffer_eq_true, encodedLength_eq]
    exact Or.inr ⟨hlow, hhigh⟩
  have hexec := exec_encode he (mayIssue_encode (s := (s.withActions rest).atBuffer) he hidle hw hshared)
  rw [step_statement hact, execStatement_runs ha hidle hfits, hexec, andThen_next,
    advanceCursor_encode signed v rfl rfl]
  refine ⟨_, rfl, rfl, rfl, rfl, rfl, fun k b hk => ?_, fun a ha => ?_, rfl, rfl, rfl⟩
  · obtain ⟨hlt, rfl⟩ := List.getElem?_eq_some_iff.1 hk
    exact Memory.read_writeAll_inside (bytesWritten i) s.mem s.cursor.toNat k hlt
  · exact Memory.read_writeAll_outside (bytesWritten i) s.mem s.cursor.toNat a ha

/-! ## Decode statements -/

/-- What belongs to the host and no command touches. -/
structure KeepsHost (s t : State) : Prop where
  usizeBits : t.usizeBits = s.usizeBits
  others : t.others = s.others
  bufLen : t.bufLen = s.bufLen
  cursor : t.cursor = s.cursor
  actions : t.actions = s.actions
  lastRead : t.lastRead = s.lastRead

theorem KeepsHost.trans {u : State} (h : KeepsHost s t) (h' : KeepsHost t u) : KeepsHost s u :=
  ⟨h'.usizeBits.trans h.usizeBits, h'.others.trans h.others, h'.bufLen.trans h.bufLen, h'.cursor.trans h.cursor,
    h'.actions.trans h.actions, h'.lastRead.trans h.lastRead⟩

theorem finishOK_keepsHost (n : Nat) (v : Option Bits128) (h : KeepsHost s t) : KeepsHost s (finishOK n v t) :=
  h.trans (by constructor <;> simp [finishOK])

theorem encoderStep_keepsHost {shift : Bits128 → Bits128} {more : Payload → Bits128 → Bool}
    (h : encoderStep shift more s = .next t) : KeepsHost s t := by
  unfold encoderStep at h
  split at h
  · cases h
    split
    · exact ⟨rfl, rfl, rfl, rfl, rfl, rfl⟩
    · exact finishOK_keepsHost _ _ ⟨rfl, rfl, rfl, rfl, rfl, rfl⟩
  · cases h

theorem decoderStep_keepsHost {overflow : Payload → Nat → Bits128 → Bool}
    {complete : Bits128 → Payload → Nat → Bits128} (h : decoderStep overflow complete s = .next t) : KeepsHost s t := by
  unfold decoderStep at h
  split at h
  · simp only at h
    split at h
    · cases h; exact ⟨rfl, rfl, rfl, rfl, rfl, rfl⟩
    · split at h
      · cases h
      · split at h
        · cases h; exact ⟨rfl, rfl, rfl, rfl, rfl, rfl⟩
        · split at h <;> cases h
          · exact ⟨rfl, rfl, rfl, rfl, rfl, rfl⟩
          · exact finishOK_keepsHost _ _ ⟨rfl, rfl, rfl, rfl, rfl, rfl⟩
  · cases h

theorem stepOf_keepsHost (h : stepOf i s = .next t) : KeepsHost s t := by
  cases i with
  | encu v o l => exact encoderStep_keepsHost h
  | decu v o l => exact decoderStep_keepsHost h
  | encs v o l => exact encoderStep_keepsHost h
  | decs v o l => exact decoderStep_keepsHost h

theorem runToIdle_keepsHost {f : State → Result} (hf : ∀ s t, f s = .next t → KeepsHost s t) {n : Nat}
    (h : runToIdle f n s = .next t) : KeepsHost s t := by
  induction n generalizing s with
  | zero => cases h; exact ⟨rfl, rfl, rfl, rfl, rfl, rfl⟩
  | succ n ih =>
    obtain ⟨u, hu, h⟩ := andThen_eq_next.1 h
    split at h
    · cases h; exact hf _ _ hu
    · exact (hf _ _ hu).trans (ih h)

/-- A command is START and steps of its operation (R39). -/
theorem exec_keepsHost (h : exec i s = .next t) : KeepsHost s t := by
  rw [exec_eq, andThen_eq_next] at h
  obtain ⟨u, hu, h⟩ := h
  obtain ⟨-, rfl⟩ := startInstr_eq_next.1 hu
  have hstart : KeepsHost s (s.started i) := ⟨rfl, rfl, rfl, rfl, rfl, rfl⟩
  exact hstart.trans (runToIdle_keepsHost (fun _ _ => stepOf_keepsHost (i := i)) h)

theorem offset_decodeOf (signed : Bool) (o l : Nat) : (decodeOf signed o l).offset = o := by cases signed <;> rfl

/-- Settles O57: the command that completed could be issued, so its offset is in range and the block IDLE. -/
theorem decodeStatementsReadTheBuffer : Obligations.DecodeStatementsReadTheBuffer := by
  intro s t rest signed o hexec
  obtain ⟨hidle, ⟨ho, -⟩, -⟩ := mayIssue_of_exec hexec
  rw [offset_decodeOf] at ho
  have hcursor : t.cursor = s.cursor := (exec_keepsHost hexec).cursor
  have hrun {st : Statement} (hact : s.actions = .statement st :: rest)
      (ha : assemble (s.withActions rest) st = some (decodeOf signed o s.bufLen)) :
      step s = .next (advanceCursor st t) := by
    rw [step_statement hact, execStatement_runs ha hidle (fitsBuffer_decode _ signed o s.bufLen)]
    exact congrArg (andThen · _) hexec
  refine ⟨fun hact => ?_, fun hact hc => ⟨fun n herr hcount => ?_, fun herr => ?_⟩⟩
  · rw [hrun hact (assemble_decode signed ho), advanceCursor_decode]
  · rw [hrun hact (assemble_cursor signed ho hc), advanceCursor_cursor signed herr hcount, hcursor, hc]
    rfl
  · rw [hrun hact (assemble_cursor signed ho hc), advanceCursor_error herr]

end Sys2Proof.Machine
end

section
/-! PROOFS. The text of a line (30_encoding.md R81): its comment is cut off, then its label. -/

namespace Sys2Proof.Machine

/-- A run of characters ends where the separator first stands. -/
theorem takeWhile_ne_append {c : Char} {xs : List Char} (h : ∀ x ∈ xs, x ≠ c) (ys : List Char) :
    (xs ++ c :: ys).takeWhile (· != c) = xs := by
  rw [List.takeWhile_append_of_pos fun x hx => bne_iff_ne.2 (h x hx)]
  simp

theorem takeWhile_ne_self {c : Char} {xs : List Char} (h : ∀ x ∈ xs, x ≠ c) : xs.takeWhile (· != c) = xs :=
  List.takeWhile_eq_self_iff.2 fun x hx => bne_iff_ne.2 (h x hx)

/-- The line's comment changes nothing. -/
theorem lineText_comment {code : List Char} (h : ∀ c ∈ code, c ≠ ';') (comment : List Char) :
    lineText (code ++ ';' :: comment) = lineText code := by
  rw [lineText, lineText, takeWhile_ne_append h, takeWhile_ne_self h]

/-- A line without comment and label is its statement. -/
theorem lineText_plain {body : List Char} (hcomment : ∀ c ∈ body, c ≠ ';') (hlabel : ∀ c ∈ body, c ≠ ':') :
    lineText body = statementText body := by
  simp [lineText, takeWhile_ne_self hcomment, takeWhile_ne_self hlabel]

/-- The line's label changes nothing. -/
theorem lineText_label {label body : List Char} (hl : isLabel label = true) (hlabel : ∀ c ∈ label, c ≠ ':')
    (hcomment : ∀ c ∈ label ++ ':' :: body, c ≠ ';') : lineText (label ++ ':' :: body) = statementText body := by
  simp [lineText, takeWhile_ne_self hcomment, takeWhile_ne_append hlabel, hl]

/-- Settles O60: the comment goes first, and what is left is a labelled or a plain statement. -/
theorem labelsAndCommentsChangeNothing : Obligations.LabelsAndCommentsChangeNothing := by
  intro label body comment hl hlabel hbody
  have hplain := lineText_plain (fun c hc => (hbody c hc).2) (fun c hc => (hbody c hc).1)
  have hcode : ∀ c ∈ label ++ ':' :: body, c ≠ ';' := by
    intro c hc
    rcases List.mem_append.1 hc with hc | hc
    · exact (hlabel c hc).2
    · rcases List.mem_cons.1 hc with rfl | hc
      · decide
      · exact (hbody c hc).2
  have hlabelled := lineText_label hl (fun c hc => (hlabel c hc).1) hcode
  refine ⟨hplain, hlabelled, (lineText_comment (fun c hc => (hbody c hc).2) comment).trans hplain, ?_⟩
  rw [← hlabelled, ← lineText_comment hcode comment, List.append_assoc, List.cons_append]

end Sys2Proof.Machine
end

section
/-! PROOFS. The unsigned encoder, and what it shares with the signed one (40_unsigned.md R100 to R102, 41_signed.md R120
to R122): one step, the whole run, the number of steps, the frame. -/

namespace Sys2Proof.Machine

variable {s t : State} {i : Instr}

/-! ## One step -/

/-- What one encoder step writes, and the registers it leaves, whichever the encoder (R38, R52, R100, R120). -/
theorem encoderStep_writes_group {shift : Bits128 → Bits128} {more : Payload → Bits128 → Bool} {rem : Bits128} {k : Nat}
    (hr : s.blk.rem = some rem) (hk : s.blk.k = some k) :
    ∃ t, encoderStep shift more s = .next t ∧
      t.port.accesses = s.port.accesses ++ [.write k (wireByte (more (lowGroup rem) (shift rem)) (lowGroup rem))] ∧
      (s.port.sinkBase + k ∉ s.port.raced → Memory.read t.mem (s.port.sinkBase + k) =
        some (wireByte (more (lowGroup rem) (shift rem)) (lowGroup rem))) ∧
      (more (lowGroup rem) (shift rem) = true →
        t.blk = { s.blk with rem := some (shift rem), k := some (k + 1) }) ∧
      (more (lowGroup rem) (shift rem) = false →
        t.blk = { s.blk with count := some (k + 1), err := 0, state := .idle, rem := none, acc := none, k := none }) := by
  rw [encoderStep_eq hr hk]
  cases more (lowGroup rem) (shift rem) with
  | true => exact ⟨_, rfl, rfl, fun _ => Memory.read_write_same _ _ _, fun _ => rfl, fun h => nomatch h⟩
  | false =>
    refine ⟨_, rfl, rfl, fun hraced => ?_, fun h => (nomatch h), fun _ => rfl⟩
    exact (drawRaced_read_other _ _ hraced).trans (Memory.read_write_same _ _ _)

/-- R100: the flag of ENCU's group says that bits remain. -/
theorem moreUnsigned_eq_decide (p : Payload) (r : Bits128) : moreUnsigned p r = decide (r ≠ 0) := by
  simp [moreUnsigned, bne, beq_eq_decide]

/-- Settles O19: the encoder's step, with ENCU's shift and flag. -/
theorem encuStepWritesOneGroup : Obligations.EncuStepWritesOneGroup := by
  intro s rem k hb hop hr hk b
  obtain ⟨t, ht, haccess, hbyte, hmore, hlast⟩ :=
    encoderStep_writes_group (shift := shiftUnsigned) (more := moreUnsigned) hr hk
  rw [moreUnsigned_eq_decide] at haccess hbyte hmore hlast
  exact ⟨t, (blockTurn_of_op (i := .encu 0 0 0) hb hop).trans ht, haccess, hbyte,
    fun h => hmore (decide_eq_true h), fun h => hlast (decide_eq_false (not_not_intro h))⟩

/-! ## The whole run -/

/-- Settles O21: `encodingU` is R101's list of bytes. -/
theorem encuWritesTheUnsignedEncoding : Obligations.EncuWritesTheUnsignedEncoding :=
  fun _ v o l hm => exec_encode (isEncode_encu v o l) hm

/-- Settles O25: an encode that answers a next state answers `afterEncode`. -/
theorem encodersFrame : Obligations.EncodersFrame := by
  intro s t i he h
  rw [exec_encode he (mayIssue_of_exec h)] at h
  cases h
  rw [encodedLength_eq]
  exact ⟨rfl, rfl, rfl, rfl, rfl, rfl, rfl, rfl, rfl, rfl,
    fun a ha => Memory.read_writeAll_outside (bytesWritten i) s.mem s.port.sinkBase a ha,
    rfl, rfl, rfl, rfl, rfl, rfl, rfl, rfl, rfl⟩

/-! ## The number of steps -/

/-- R100, R120: a group without continuation flag is the last byte. -/
theorem encodeTotal_last {op : BitVec 2} {shift : Bits128 → Bits128} {more : Payload → Bits128 → Bool} {rem : Bits128}
    (h : IsEncoder op shift more) (hm : more (lowGroup rem) (shift rem) = false) (k : Nat) :
    encodeTotal op rem k = k + 1 := by
  rcases h with ⟨rfl, rfl, rfl⟩ | ⟨rfl, rfl, rfl⟩
  · have hlength := congrArg List.length (encodingU_last hm)
    simpa [encodeTotal] using hlength
  · have hlength := congrArg List.length (encodingS_last hm)
    simpa [encodeTotal] using hlength

section Running

variable {op : BitVec 2} {o l k : Nat} {rem acc : Bits128}

/-- A turn before the last one leaves the encode BUSY, with one turn less to go. -/
theorem blockTurn_encode_goes_on (h : s.blk.Running op o l rem acc k) (he : isEncode op = true)
    (hleft : 1 < s.blk.turnsLeft) :
    ∃ t rem', blockTurn s = .next t ∧ t.blk.Running op o l rem' acc (k + 1) ∧
      t.blk.turnsLeft + 1 = s.blk.turnsLeft := by
  obtain ⟨shift, more, henc, hturn⟩ := blockTurn_encode h.state h.op he
  rw [h.turnsLeft_encode he] at hleft ⊢
  obtain ⟨t, ht, -, -, hmore, -⟩ := encoderStep_writes_group (shift := shift) (more := more) h.rem h.k
  cases hm : more (lowGroup rem) (shift rem) with
  | false => rw [encodeTotal_last henc hm] at hleft; omega
  | true =>
    have hrun : t.blk.Running op o l (shift rem) acc (k + 1) := by
      rw [hmore hm]
      exact ⟨h.state, h.op, h.offset, h.srcLen, rfl, h.acc, rfl⟩
    refine ⟨t, _, hturn.trans ht, hrun, ?_⟩
    rw [hrun.turnsLeft_encode he, encodeTotal_shift henc hm]
    omega

/-- After fewer turns than are left an encode is BUSY, and each turn has counted. -/
theorem blockTurns_encode_busy (he : isEncode op = true) (j : Nat) : ∀ {s : State} {rem : Bits128} {k : Nat},
    s.blk.Running op o l rem acc k → j < s.blk.turnsLeft →
    ∃ u rem', blockTurns j s = .next u ∧ u.blk.Running op o l rem' acc (k + j) ∧
      u.blk.turnsLeft + j = s.blk.turnsLeft := by
  induction j with
  | zero => exact fun h _ => ⟨_, _, rfl, h, rfl⟩
  | succ j ih =>
    intro s rem k h hj
    obtain ⟨t, rem', ht, hrun, hleft⟩ := blockTurn_encode_goes_on h he (by omega)
    obtain ⟨u, rem'', hu, hrun', hleft'⟩ := ih hrun (by omega)
    refine ⟨u, rem'', ?_, ?_, by omega⟩
    · rw [blockTurns_succ, ht, andThen_next, hu]
    · rwa [show k + (j + 1) = k + 1 + j by omega]

/-- As many turns as are left end an encode: the last of them finds one turn left, and none remains after it. -/
theorem blockTurns_encode_idle (h : s.blk.Running op o l rem acc k) (he : isEncode op = true) :
    ∃ u, blockTurns s.blk.turnsLeft s = .next u ∧ u.blk.state = .idle := by
  obtain ⟨j, hj⟩ : ∃ j, s.blk.turnsLeft = j + 1 := Nat.exists_eq_add_one.2 h.turnsLeft_pos
  obtain ⟨t, rem', ht, hrun, hleft⟩ := blockTurns_encode_busy he j h (by omega)
  obtain ⟨u, -, hu, -, htaken⟩ := blockTurn_writes hrun he
  have hturns : blockTurns (j + 1) s = .next u := by
    rw [blockTurns_add, ht, andThen_next, blockTurns_succ, hu, andThen_next, blockTurns_zero]
  have hfewer := htaken.fewer
  refine ⟨u, hj ▸ hturns, ?_⟩
  rcases htaken.outcome with hidle | ⟨_, _, hrun'⟩
  · exact hidle
  · have := hrun'.turnsLeft_pos
    omega

end Running

/-- An encode ends after exactly as many steps as it has bytes (R102, R122). -/
theorem encode_takes_its_length (he : isEncode i.op = true) (h : startInstr i s = .next t) :
    (∀ j < encodedLength i, ∃ u, blockTurns j t = .next u ∧ u.blk.state = .busy) ∧
      ∃ u, blockTurns (encodedLength i) t = .next u ∧ u.blk.state = .idle := by
  obtain ⟨-, rfl⟩ := startInstr_eq_next.1 h
  have hrun := s.started_running i
  have hleft : (s.started i).blk.turnsLeft = encodedLength i := by
    rw [hrun.turnsLeft_encode he, encodeTotal_eq_length he, encodedLength_eq, Nat.sub_zero]
  rw [← hleft]
  refine ⟨fun j hj => ?_, blockTurns_encode_idle hrun he⟩
  obtain ⟨u, _, hu, hbusy, -⟩ := blockTurns_encode_busy he j hrun hj
  exact ⟨u, hu, hbusy.state⟩

/-- Settles O23: the bytes of the encoding, one a step, and 19 groups hold 133 bits. -/
theorem encuTakesItsLengthInSteps : Obligations.EncuTakesItsLengthInSteps := by
  intro s t v o l h
  have hshift : v >>> 133 = 0 := BitVec.ushiftRight_eq_zero (by omega)
  exact ⟨lengthU_bits v, hshift, encode_takes_its_length (isEncode_encu v o l) h⟩

end Sys2Proof.Machine
end

section
/-! PROOFS. The unsigned decoder, and what it shares with the signed one (40_unsigned.md R103 to R105, 41_signed.md R123
to R126): one step, overflow, the three ends, the frame. -/

namespace Sys2Proof.Machine

variable {s t : State} {i : Instr}

/-! ## One step -/

/-- R38: without raced positions finishOK writes registers and nothing else. -/
theorem finishOK_of_raced_nil (h : s.port.raced = []) (n : Nat) (v : Option Bits128) :
    finishOK n v s = s.withBlk (s.blk.finished n v) := by
  rw [finishOK, settleRaced_nil h]

section Step

variable {overflow : Payload → Nat → Bits128 → Bool} {complete : Bits128 → Payload → Nat → Bits128} {o l k : Nat}
  {acc : Bits128} {b : Byte}

/-- The registers and the port that a decoder step leaves after it has read a byte of a block no position of which is
raced, by the tests of R145 in their order (R103, R123). -/
theorem decoderStep_byte (hraced : s.port.raced = []) (ho : s.blk.offset = some o) (hl : s.blk.srcLen = some l)
    (ha : s.blk.acc = some acc) (hk : s.blk.k = some k) (h : o + k < l) (hb : memRead s (o + k) = some b) :
    (overflow (payload b) k acc = true → decoderStep overflow complete s =
      .next ((noteRead s (o + k) b).withBlk (s.blk.raised errOverflow))) ∧
    (overflow (payload b) k acc = false → continues b = true → decoderStep overflow complete s =
      .next ((noteRead s (o + k) b).withBlk
        { s.blk with acc := some (accumulate acc (payload b) k), k := some (k + 1) })) ∧
    (overflow (payload b) k acc = false → continues b = false → decoderStep overflow complete s =
      .next ((noteRead s (o + k) b).withBlk
        (s.blk.finished (k + 1) (some (complete (accumulate acc (payload b) k) (payload b) (k + 1)))))) := by
  rw [decoderStep_read ho hl ha hk h hb]
  refine ⟨fun hov => ?_, fun hov hc => ?_, fun hov hc => ?_⟩
  · rw [if_pos hov]; rfl
  · rw [if_neg (by simp [hov]), if_pos hc]
  · rw [if_neg (by simp [hov]), if_neg (by simp [hc])]
    exact congrArg _ (finishOK_of_raced_nil (by exact hraced) _ _)

end Step

/-- R166: no position is raced beside a decode. -/
theorem State.Inv.raced_nil_of_decode (hi : s.Inv) {op : BitVec 2} (hop : s.blk.op = some op)
    (he : isEncode op = false) : s.port.raced = [] := hi.raced_nil (sinkRange_decode hop he)

/-- Settles O26: the decoder's step, with DECU's overflow test and nothing to complete. -/
theorem decuStepReadsOneByte : Obligations.DecuStepReadsOneByte := by
  intro s o l k acc hi hb hop ho hl ha hk
  have hturn : blockTurn s = stepDecu s := blockTurn_of_op (i := .decu 0 0 0) hb hop
  rw [hturn]
  refine ⟨fun hle => decoderStep_truncated ho hl ha hk hle, fun b hlt hbyte => ?_⟩
  exact decoderStep_byte (hi.raced_nil_of_decode hop rfl) ho hl ha hk hlt hbyte

/-! ## Overflow -/

theorem overflowU_eighteen (p : Payload) (acc : Bits128) : overflowU p 18 acc = true ↔ p.extractLsb 6 2 ≠ 0 :=
  bne_iff_ne

theorem overflowU_beyond (p : Payload) {k : Nat} (hk : 19 ≤ k) (acc : Bits128) :
    overflowU p k acc = true ↔ p ≠ 0 := by
  rw [overflowU, if_neg (by omega), if_neg (by omega), bne_iff_ne]

/-- R104 at K = 18: the payload's bits 2 to 6 land at bits 128 to 132. -/
theorem extractLsb_six_two_ne_zero (p : Payload) :
    p.extractLsb 6 2 ≠ 0 ↔ ∃ j < 7, p.getLsbD j = true ∧ 128 ≤ 7 * 18 + j := by
  revert p; decide

theorem payload_ne_zero_iff (p : Payload) : p ≠ 0 ↔ ∃ j < 7, p.getLsbD j = true := by
  revert p; decide

/-- R104: a set payload bit lands at bit 128 or above. -/
theorem overflowU_iff_bit (p : Payload) (k : Nat) (acc : Bits128) :
    overflowU p k acc = true ↔ ∃ j < 7, p.getLsbD j = true ∧ 128 ≤ 7 * k + j := by
  rcases lt_trichotomy k 18 with hk | rfl | hk
  · have hle : k ≤ 17 := by omega
    simp only [overflowU, if_pos hle, Bool.false_eq_true, false_iff, not_exists, not_and]
    omega
  · rw [overflowU_eighteen, extractLsb_six_two_ne_zero]
  · rw [overflowU_beyond p hk, payload_ne_zero_iff]
    exact exists_congr fun j => and_congr_right fun _ => (and_iff_left (by omega)).symm

section Decoder

variable {overflow : Payload → Nat → Bits128 → Bool} {complete : Bits128 → Payload → Nat → Bits128} {bs : List Byte}

/-- A decode of a sequence inside its source completes, and in Overflow exactly when one of its groups overflows
(R104, R124). -/
theorem exec_decode_overflow_iff (hf : stepOf i = decoderStep overflow complete)
    (hb : turnBound i = i.srcLen - i.offset + 1) (hm : s.mayIssue i) (hs : isSequence bs = true)
    (hh : s.sourceHolds i.offset bs) (hl : i.offset + bs.length ≤ i.srcLen) :
    ∃ t, exec i s = .next t ∧ (t.blk.err = errOverflow ↔ ¬ ∀ k < bs.length,
      overflow (payload (s.sourceByte i.offset k)) k (s.accumulated i.offset k) = false) := by
  rcases sequence_stop (overflow := overflow) hs hh hl with ⟨m, hlt, hov, hstop, hbefore⟩ | ⟨hfits, -⟩
  · have hpresent : ∀ k ≤ m, i.offset + k < i.srcLen → (memRead s (i.offset + k)).isSome :=
      fun k hk _ => memRead_of_holds hh (by omega)
    refine ⟨_, exec_decode hf hb hm hpresent hstop hbefore, ?_⟩
    rw [decodeEnd_started, if_neg (by omega), if_pos hov]
    refine iff_of_true rfl fun hfits => ?_
    rw [hfits m hlt] at hov
    cases hov
  · refine ⟨_, exec_decode_sequence hf hb hm hs hh hl hfits, iff_of_false ?_ (not_not_intro hfits)⟩
    simp [State.afterDecode, Block.ended, errOk, errOverflow]

end Decoder

/-- Settles O28: a group overflows exactly when the value leaves 128 bits. -/
theorem decuOverflowsExactlyBeyond128Bits : Obligations.DecuOverflowsExactlyBeyond128Bits := by
  refine ⟨fun p k acc => ⟨overflowU_iff_bit p k acc, fun hk => if_pos hk, ?_, fun hk => overflowU_beyond p hk acc⟩,
    fun s v o l bs hm hs hh hl => ?_⟩
  · rintro rfl
    exact overflowU_eighteen p acc
  · obtain ⟨t, ht, herr⟩ := exec_decode_overflow_iff (i := .decu v o l) rfl rfl hm hs hh hl
    have hfits := unsigned_fits s o bs.length
    rw [sourceBytes_of_holds hh] at hfits
    exact ⟨t, ht, herr.trans ((not_congr hfits).trans (by omega))⟩

/-! ## The first stop -/

/-- Settles O32: the first stop, and the accumulator as the value of the bytes read (R72). -/
theorem decuEndsAtItsFirstStop : Obligations.DecuEndsAtItsFirstStop := by
  intro s v o l hm hp
  obtain ⟨m, -, hstop, hbefore⟩ := first_stop (overflow := overflowU) s o l
  refine ⟨m, hstop, hbefore, ?_⟩
  rw [exec_decode (i := .decu v o l) rfl rfl hm (fun k _ hk => hp (o + k) (by omega) hk) hstop hbefore,
    decodeEnd_started, ← accumulated_eq_bv]
  rfl

/-! ## The frame -/

section Decoder

variable {overflow : Payload → Nat → Bits128 → Bool} {complete : Bits128 → Payload → Nat → Bits128} {o l k m : Nat}

/-- A decode that goes on has read a byte that is present. -/
theorem memRead_isSome_of_not_stopsAt (h : ¬ s.stopsAt overflow o l k) : (memRead s (o + k)).isSome := by
  cases hb : memRead s (o + k) with
  | some b => rfl
  | none => exact absurd (Or.inr (Or.inr (by simp [State.sourceByte, hb, continues]))) h

/-- A decode that comes to an absent byte stops there (R162, log entry 5). -/
theorem decoder_run_absent (ho : s.blk.offset = some o) (hl : s.blk.srcLen = some l) (hs : s.blk.state = .busy)
    (hm : o + m < l) (habsent : memRead s (o + m) = none) (hlt : ∀ k < m, ¬ s.stopsAt overflow o l k) (d : Nat) :
    ∀ k n : Nat, k + d = m → d < n →
      runToIdle (decoderStep overflow complete) n (s.decodeMid o k) = .fault .byteAbsent := by
  induction d with
  | zero =>
    rintro k (_ | n) hk hn
    · omega
    · obtain rfl : k = m := by omega
      rw [runToIdle, decoderStep_absent (s := s.decodeMid o k) (l := l) (acc := s.accumulated o k) ho hl rfl rfl hm
        habsent, andThen_fault]
  | succ d ih =>
    rintro k (_ | n) hk hn
    · omega
    · have hgoes := hlt k (by omega)
      rw [runToIdle, decodeMid_step overflow complete ho hl (memRead_isSome_of_not_stopsAt hgoes) hgoes, andThen_next]
      have hbusy : (s.decodeMid o (k + 1)).blk.state = .busy := hs
      simp only [hbusy]
      exact ih (k + 1) n (by omega) (by omega)

/-- A decode command that comes to an absent byte stops there (R162, log entry 5). -/
theorem exec_decode_absent (hf : stepOf i = decoderStep overflow complete) (hb : turnBound i = i.srcLen - i.offset + 1)
    (hissue : s.mayIssue i) (hm : i.offset + m < i.srcLen) (habsent : memRead s (i.offset + m) = none)
    (hlt : ∀ k < m, ¬ s.stopsAt overflow i.offset i.srcLen k) : exec i s = .fault .byteAbsent := by
  rw [exec_eq, startInstr_of_mayIssue hissue, andThen_next, hf, hb]
  exact decoder_run_absent (s := s.started i) (o := i.offset) (l := i.srcLen) rfl rfl rfl hm habsent hlt m 0 _
    (by omega) (by omega)

/-- A decode that answers a next state ends in one of the three ways of R105 and R126. -/
theorem exec_decode_eq_next (hf : stepOf i = decoderStep overflow complete)
    (hb : turnBound i = i.srcLen - i.offset + 1) (h : exec i s = .next t) :
    ∃ n, t = s.afterError i.op i.offset i.srcLen errTruncated n ∨
      t = s.afterError i.op i.offset i.srcLen errOverflow n ∨
      ∃ v, t = s.afterDecode i.op i.offset i.srcLen v n := by
  have hissue := mayIssue_of_exec h
  obtain ⟨m, -, hstop, hbefore⟩ := first_stop (overflow := overflow) s i.offset i.srcLen
  have hpresent : ∀ k ≤ m, i.offset + k < i.srcLen → (memRead s (i.offset + k)).isSome := by
    intro k hk hlt
    by_contra habsent
    rw [exec_decode_absent hf hb hissue hlt (Option.not_isSome_iff_eq_none.1 habsent)
      fun j hj => hbefore j (by omega)] at h
    cases h
  rw [exec_decode hf hb hissue hpresent hstop hbefore, decodeEnd_started, Host.Outcome.next.injEq] at h
  subst h
  split
  · exact ⟨m, Or.inl rfl⟩
  · split
    · exact ⟨m + 1, Or.inr (Or.inl rfl)⟩
    · exact ⟨m + 1, Or.inr (Or.inr ⟨_, rfl⟩)⟩

end Decoder

/-- The two decoders: a decode that answers a next state ends in one of three ways (R105, R126). -/
theorem exec_eq_next_of_decode (he : isEncode i.op = false) (h : exec i s = .next t) :
    ∃ n, t = s.afterError i.op i.offset i.srcLen errTruncated n ∨
      t = s.afterError i.op i.offset i.srcLen errOverflow n ∨
      ∃ v, t = s.afterDecode i.op i.offset i.srcLen v n := by
  cases i with
  | encu v o l => simp at he
  | encs v o l => simp at he
  | decu v o l => exact exec_decode_eq_next rfl rfl h
  | decs v o l => exact exec_decode_eq_next rfl rfl h

/-- Settles O35: the three ends are written out field by field. -/
theorem decodersFrame : Obligations.DecodersFrame := by
  intro s t i he h
  obtain ⟨n, rfl | rfl | ⟨v, rfl⟩⟩ := exec_eq_next_of_decode he h
  · simp [State.afterError, Block.ended, errTruncated]
  · simp [State.afterError, Block.ended, errOverflow]
  · simp [State.afterDecode, Block.ended, errOk]

end Sys2Proof.Machine
end

section
/-! PROOFS. Round trips (40_unsigned.md R106, 41_signed.md R127, 95_test_vectors.md P1): a decode of what an encode
wrote, and of values packed back to back. -/

namespace Sys2Proof.Machine

variable {s : State} {o l : Nat}

/-! ## One value -/

theorem bv_uint (v : Bits128) : bv (uint v) = v := by
  apply BitVec.eq_of_toNat_eq
  rw [bv_natCast, Nat.mod_eq_of_lt v.isLt]

theorem bv_sint (v : Bits128) : bv (sint v) = v := BitVec.ofInt_toInt

/-- R106: DECU returns the value whose unsigned encoding it reads. -/
theorem exec_decu_encodingU {v w : Bits128} (hm : s.mayIssue (.decu w o l)) (hh : s.sourceHolds o (encodingU v))
    (hl : o + (encodingU v).length ≤ l) :
    exec (.decu w o l) s = .next (s.afterDecode 0b01#2 o l v (encodingU v).length) := by
  have hfits : denoteU (encodingU v) ≤ 2 ^ 128 - 1 := by
    rw [denoteU_encodingU]
    exact Nat.le_sub_one_of_lt v.isLt
  rw [decuReturnsTheDenotedValue s w o l _ hm (isSequence_encodingU v) hh hl hfits, denoteU_encodingU, bv_uint]

/-- R127: DECS returns the value whose signed encoding it reads. -/
theorem exec_decs_encodingS {v w : Bits128} (hm : s.mayIssue (.decs w o l)) (hh : s.sourceHolds o (encodingS v))
    (hl : o + (encodingS v).length ≤ l) :
    exec (.decs w o l) s = .next (s.afterDecode 0b11#2 o l v (encodingS v).length) := by
  have hlow : -2 ^ 127 ≤ denoteS (encodingS v) := by
    rw [denoteS_encodingS]
    exact BitVec.le_toInt v
  have hhigh : denoteS (encodingS v) ≤ 2 ^ 127 - 1 := by
    rw [denoteS_encodingS]
    exact Int.le_sub_one_of_lt BitVec.toInt_lt
  rw [decsReturnsTheDenotedValue s w o l _ hm (isSequence_encodingS v) hh hl hlow hhigh, denoteS_encodingS, bv_sint]

/-- R106, R127: the decode of a value's own codec returns the value whose encoding it reads. -/
theorem exec_decode_packed (p : Packed) (hm : s.mayIssue (decodeOf p.1 o l)) (hh : s.sourceHolds o (packedBytes p))
    (hl : o + (packedBytes p).length ≤ l) :
    exec (decodeOf p.1 o l) s =
      .next (s.afterDecode (decodeOf p.1 o l).op o l p.2 (packedBytes p).length) := by
  obtain ⟨signed, v⟩ := p
  cases signed with
  | false => exact exec_decu_encodingU hm hh hl
  | true => exact exec_decs_encodingS hm hh hl

/-! ## Values back to back -/

/-- R34, R167: a decode from a source that no running encode writes may be issued. -/
theorem mayIssue_decodeOf (signed : Bool) (hidle : s.blk.state = .idle) (hu : s.sourceUnshared o l) (ho : o ≤ l)
    (hl : l < 2 ^ s.usizeBits) : s.mayIssue (decodeOf signed o l) := by
  have hwide : o < 2 ^ s.usizeBits := ho.trans_lt hl
  cases signed with
  | false => exact ⟨hidle, ⟨hwide, hl⟩, aliasFault_decode (isEncode_decu 0 o l) hu⟩
  | true => exact ⟨hidle, ⟨hwide, hl⟩, aliasFault_decode (isEncode_decs 0 o l) hu⟩

/-- The source holds a packing when it holds the first part, and the rest behind it. -/
theorem sourceHolds_append {bs cs : List Byte} (h : s.sourceHolds o (bs ++ cs)) :
    s.sourceHolds o bs ∧ s.sourceHolds (o + bs.length) cs := by
  refine ⟨fun k hk => ?_, fun k hk => ?_⟩
  · rw [h k (by simp; omega), List.getElem_append_left hk]
  · have hbyte := h (bs.length + k) (by simp; omega)
    rw [← Nat.add_assoc] at hbyte
    simpa using hbyte

theorem sourceUnshared_mono {o' : Nat} (h : s.sourceUnshared o l) (ho : o ≤ o') : s.sourceUnshared o' l :=
  fun u hu x hx hx' => h u hu x (by omega) hx'

/-- The first value is decoded, and the others from the end of its encoding. -/
theorem decodeInOrder_cons {c : Bool} {cs : List Bool} {op : BitVec 2} {v : Bits128} {n : Nat}
    (h : exec (decodeOf c o l) s = .next (s.afterDecode op o l v n)) :
    decodeInOrder l (c :: cs) o s = (decodeInOrder l cs (o + n) (s.afterDecode op o l v n)).map (v :: ·) := by
  rw [decodeInOrder, h]
  rfl

/-- Settles O40: by induction on the values; a decode touches neither the source nor the other blocks. -/
theorem mixedPackingIsReadBackInOrder : Obligations.MixedPackingIsReadBackInOrder := by
  intro s vs o l hidle hu hw hh hl
  induction vs generalizing s o with
  | nil => rfl
  | cons p vs ih =>
    rw [List.map_cons, List.flatten_cons] at hh hl
    rw [List.length_append] at hl
    obtain ⟨hfirst, hrest⟩ := sourceHolds_append hh
    have hissue := mayIssue_decodeOf p.1 hidle hu (by omega) hw
    rw [List.map_cons, List.map_cons, decodeInOrder_cons (exec_decode_packed p hissue hfirst (by omega))]
    have htail := ih (s.afterDecode (decodeOf p.1 o l).op o l p.2 (packedBytes p).length) (o + (packedBytes p).length)
      rfl (sourceUnshared_mono hu (by omega)) hw hrest (by omega)
    rw [htail, Option.map_some]

/-- Settles O37: DECU of ENCU's bytes, and unsigned values as packed ones. -/
theorem unsignedRoundTrip : Obligations.UnsignedRoundTrip := by
  refine ⟨fun s v w o l hm hh hl => ?_, fun s vs o l hidle hu hw hh hl => ?_⟩
  · rw [← encodingU_length] at hl ⊢
    exact exec_decu_encodingU hm hh hl
  · have hbytes : (vs.map (Prod.mk false)).map packedBytes = vs.map encodingU := List.map_map
    have hpacked := mixedPackingIsReadBackInOrder s (vs.map (Prod.mk false)) o l hidle hu hw
    rw [hbytes, List.map_map, List.map_map] at hpacked
    exact (hpacked hh hl).trans (congrArg some (List.map_id vs))

/-! ## An encode and then its decode -/

/-- What an encode wrote is the source of a decode whose first index lies where the sink lay (R50, R52). -/
theorem sourceHolds_afterEncode (hbase : s.port.sinkBase = s.port.srcBase + o) (op : BitVec 2) (o' l' : Nat)
    (bs : List Byte) : (s.afterEncode op o' l' bs).sourceHolds o bs := by
  intro k hk
  have hread := Memory.read_writeAll_inside bs s.mem s.port.sinkBase k hk
  rwa [show s.port.sinkBase + k = s.port.srcBase + (o + k) by omega] at hread

/-- Settles O39: the encode leaves its bytes and an IDLE block, and the decode reads them. -/
theorem encodeThenDecodeReturnsTheValue : Obligations.EncodeThenDecodeReturnsTheValue := by
  intro s signed v o l o' l' enc hm hu hbase hl hw
  have henc : isEncode enc.op = true ∧ bytesWritten enc = packedBytes (signed, v) := by
    cases signed with
    | false => exact ⟨isEncode_encu v o' l', rfl⟩
    | true => exact ⟨isEncode_encs v o' l', rfl⟩
  obtain ⟨he, hbytes⟩ := henc
  rw [encodedLength_eq, hbytes] at hl ⊢
  have hexec := exec_encode he hm
  rw [hbytes] at hexec
  have hholds := sourceHolds_afterEncode hbase enc.op enc.offset enc.srcLen (packedBytes (signed, v))
  have hissue := mayIssue_decodeOf
    (s := s.afterEncode enc.op enc.offset enc.srcLen (packedBytes (signed, v))) signed rfl hu (by omega) hw
  exact ⟨_, _, hexec, exec_decode_packed (signed, v) hissue hholds hl, rfl, rfl, rfl⟩

end Sys2Proof.Machine
end

section
/-! PROOFS. The signed encoder (41_signed.md R120 to R122): one step, the termination test, the whole run, the number of
steps. -/

namespace Sys2Proof.Machine

/-! ## One step -/

/-- R120: the encoding ends when bit 6 of the payload predicts all remaining bits. -/
theorem moreSigned_eq_false_iff (p : Payload) (r : Bits128) :
    moreSigned p r = false ↔ (r = 0 ∧ p.getLsbD 6 = false) ∨ (r = ones128 ∧ p.getLsbD 6 = true) := by
  rw [moreSigned, Bool.not_eq_false', Bool.or_eq_true, Bool.and_eq_true, Bool.and_eq_true, beq_iff_eq, beq_iff_eq,
    Bool.not_eq_true']

/-- Settles O20: the encoder's step, with ENCS's shift and flag. -/
theorem encsStepWritesOneGroup : Obligations.EncsStepWritesOneGroup := by
  intro s rem k hb hop hr hk p r last
  have hflag : moreSigned p r = false ↔ last := moreSigned_eq_false_iff p r
  obtain ⟨t, ht, haccess, hbyte, hmore, hlast⟩ :=
    encoderStep_writes_group (shift := shiftSigned) (more := moreSigned) hr hk
  refine ⟨t, _, (blockTurn_of_op (i := .encs 0 0 0) hb hop).trans ht, haccess, payload_wireByte _ _, ?_, hbyte,
    fun h => hmore (eq_true_of_ne_false (mt hflag.1 h)), fun h => hlast (hflag.2 h)⟩
  rw [continues_wireByte]
  exact hflag

/-! ## The termination test and the bytes written -/

theorem sint_sshiftRight (v : Bits128) (n : Nat) : sint (v.sshiftRight n) = sint v / 2 ^ n := by
  rw [sint, BitVec.toInt_sshiftRight, Int.shiftRight_eq_div_pow]
  norm_cast

/-- R121: only copies of the sign are left exactly when the value has n bits and its sign. -/
theorem sshiftRight_eq_zero_or_ones (v : Bits128) (n : Nat) :
    v.sshiftRight n = 0 ∨ v.sshiftRight n = ones128 ↔ -2 ^ n ≤ sint v ∧ sint v < 2 ^ n := by
  have hpos : (0 : Int) < 2 ^ n := by positivity
  have hzero : v.sshiftRight n = 0 ↔ sint v / 2 ^ n = 0 := by
    rw [← sint_sshiftRight, ← BitVec.toInt_inj]
    rfl
  have hones : v.sshiftRight n = ones128 ↔ sint v / 2 ^ n = -1 := by
    rw [← sint_sshiftRight, ← BitVec.toInt_inj, show ones128.toInt = -1 by decide]
  have hlow : 0 - 1 ≤ sint v / 2 ^ n ↔ (0 - 1) * 2 ^ n ≤ sint v := Int.le_ediv_iff_mul_le hpos
  have hhigh : sint v / 2 ^ n < 1 ↔ sint v < 1 * 2 ^ n := Int.ediv_lt_iff_lt_mul hpos
  rw [hzero, hones]
  omega

/-- R121: the test at step k, on the value itself. -/
theorem moreSigned_sshiftRight_eq_false_iff (v : Bits128) (k : Nat) :
    moreSigned ((v.sshiftRight (7 * k)).setWidth 7) (v.sshiftRight (7 * (k + 1))) = false ↔
      -2 ^ (7 * (k + 1) - 1) ≤ sint v ∧ sint v < 2 ^ (7 * (k + 1) - 1) := by
  have hpos : (0 : Int) < 2 ^ (7 * k) := by positivity
  have hshift : v.sshiftRight (7 * (k + 1)) = shiftSigned (v.sshiftRight (7 * k)) := BitVec.sshiftRight_add
  have hlow : -64 ≤ sint v / 2 ^ (7 * k) ↔ -64 * 2 ^ (7 * k) ≤ sint v := Int.le_ediv_iff_mul_le hpos
  have hhigh : sint v / 2 ^ (7 * k) < 64 ↔ sint v < 64 * 2 ^ (7 * k) := Int.ediv_lt_iff_lt_mul hpos
  have hpow : (2 : Int) ^ (7 * (k + 1) - 1) = 64 * 2 ^ (7 * k) := by
    rw [show 7 * (k + 1) - 1 = 6 + 7 * k by omega, pow_add]
    norm_num
  rw [hshift, ← Bool.not_eq_true]
  refine (not_congr (moreSigned_iff (v.sshiftRight (7 * k)))).trans ?_
  rw [not_not, sint_sshiftRight, hlow, hhigh, hpow]
  omega

/-- Settles O22: both forms of the test bound the value, and `encodingS` is R121's list of bytes. -/
theorem encsWritesTheSignedEncoding : Obligations.EncsWritesTheSignedEncoding := by
  refine ⟨fun v k => ?_, fun _ v o l hm => exec_encode (isEncode_encs v o l) hm⟩
  have htest := moreSigned_sshiftRight_eq_false_iff v k
  exact ⟨htest.trans (sshiftRight_eq_zero_or_ones v _).symm, htest⟩

/-! ## The number of steps -/

/-- Settles O24: the bytes of the encoding, one a step, and 19 groups hold 133 bits, the sign included. -/
theorem encsTakesItsLengthInSteps : Obligations.EncsTakesItsLengthInSteps := by
  intro s t v o l h
  have hlength := lengthS_bits v
  obtain ⟨hlow, hhigh⟩ := (lengthS_le_iff (sint v) (by omega)).1 hlength
  exact ⟨hlength, hlow, hhigh, encode_takes_its_length (isEncode_encs v o l) h⟩

end Sys2Proof.Machine
end

section
/-! PROOFS. The signed decoder (41_signed.md R123 to R126): one step, sign completion, overflow, the three ends. -/

namespace Sys2Proof.Machine

/-! ## One step -/

/-- Settles O27: the decoder's step, with DECS's overflow test and sign completion. -/
theorem decsStepReadsOneByte : Obligations.DecsStepReadsOneByte := by
  intro s o l k acc hi hb hop ho hl ha hk
  have hturn : blockTurn s = stepDecs s := blockTurn_of_op (i := .decs 0 0 0) hb hop
  rw [hturn]
  refine ⟨fun hle => decoderStep_truncated ho hl ha hk hle, fun b hlt hbyte => ?_⟩
  exact decoderStep_byte (hi.raced_nil_of_decode hop rfl) ho hl ha hk hlt hbyte

/-! ## Sign completion -/

/-- Ones shifted left by n stand at the bits from n on. -/
theorem ones128_shiftLeft_getLsbD (n : Nat) {i : Nat} (hi : i < 128) :
    (ones128 <<< n).getLsbD i = decide (n ≤ i) := by
  rw [BitVec.getLsbD_shiftLeft, BitVec.getLsbD_allOnes]
  by_cases h : n ≤ i
  · simp [h, hi, show i - n < 128 by omega]
  · simp [h, show i < n by omega]

/-- Settles O34: ones shifted left by 7n stand at the bits from 7n on, and at none below 128 when n ≥ 19. -/
theorem signCompletionSetsTheHighBits : Obligations.SignCompletionSetsTheHighBits := by
  intro acc p n i hi
  cases hsign : p.getLsbD 6 with
  | false =>
    have hunsigned : ¬(7 * n < 128 ∧ p.getLsbD 6 = true) := fun h => Bool.false_ne_true (hsign.symm.trans h.2)
    rw [completeSign, if_neg hunsigned, Bool.and_false, Bool.or_false]
  | true =>
    by_cases hn : 7 * n < 128
    · rw [completeSign, if_pos ⟨hn, hsign⟩, BitVec.getLsbD_or, ones128_shiftLeft_getLsbD _ hi, Bool.and_true]
    · rw [completeSign, if_neg fun h => hn h.1, decide_eq_false (by omega), Bool.false_and, Bool.or_false]

/-! ## Overflow -/

theorem overflowS_eighteen_iff (p : Payload) (acc : Bits128) :
    overflowS p 18 acc = true ↔ p.extractLsb 6 1 ≠ 0 ∧ p.extractLsb 6 1 ≠ 0b111111#6 := by
  have htest : overflowS p 18 acc = !(p.extractLsb 6 1 == 0 || p.extractLsb 6 1 == BitVec.allOnes 6) := rfl
  rw [htest, Bool.not_eq_true', Bool.or_eq_false_iff, beq_eq_false_iff_ne, beq_eq_false_iff_ne]
  rfl

theorem payload_ne_rep7_iff (p : Payload) (c : Bool) : p ≠ rep7 c ↔ ∃ j < 7, p.getLsbD j ≠ c := by
  revert p c; decide

/-- R124: from K = 19 on every payload bit lies above bit 127 and must equal it. -/
theorem overflowS_beyond (p : Payload) {k : Nat} (hk : 19 ≤ k) (acc : Bits128) :
    overflowS p k acc = true ↔ ∃ j < 7, p.getLsbD j ≠ acc.getLsbD 127 := by
  rw [overflowS, if_neg (by omega), if_neg (by omega), bne_iff_ne, payload_ne_rep7_iff]

/-- R124: the test in its cases of K. -/
theorem overflowS_iff (p : Payload) (k : Nat) (acc : Bits128) : overflowS p k acc = true ↔
    (k = 18 ∧ p.extractLsb 6 1 ≠ 0 ∧ p.extractLsb 6 1 ≠ 0b111111#6) ∨
    (19 ≤ k ∧ ∃ j < 7, p.getLsbD j ≠ acc.getLsbD 127) := by
  rcases lt_trichotomy k 18 with hk | rfl | hk
  · have hnever : overflowS p k acc = false := if_pos (by omega)
    rw [hnever]
    refine iff_of_false Bool.false_ne_true ?_
    omega
  · rw [overflowS_eighteen_iff]
    simp
  · have hne : k ≠ 18 := by omega
    rw [overflowS_beyond p hk]
    simp [hne, show 19 ≤ k from hk]

/-- Settles O29: a group overflows exactly when the value leaves 128 bits. -/
theorem decsOverflowsExactlyBeyond128Bits : Obligations.DecsOverflowsExactlyBeyond128Bits := by
  refine ⟨overflowS_iff, fun s o k hk => accumulated_top s o hk, fun s v o l bs hm hs hh hl => ?_⟩
  obtain ⟨t, ht, herr⟩ := exec_decode_overflow_iff (i := .decs v o l) rfl rfl hm hs hh hl
  have hfits := signed_fits s o (List.length_pos_of_ne_nil ((isSequence_iff bs).1 hs).1)
  rw [sourceBytes_of_holds hh] at hfits
  exact ⟨t, ht, herr.trans (not_congr hfits)⟩

/-! ## The first stop -/

/-- Settles O33: the first stop, and the completed accumulator as the value of the bytes read (R73, R125). -/
theorem decsEndsAtItsFirstStop : Obligations.DecsEndsAtItsFirstStop := by
  intro s v o l hm hp
  obtain ⟨m, -, hstop, hbefore⟩ := first_stop (overflow := overflowS) s o l
  refine ⟨m, hstop, hbefore, ?_⟩
  rw [exec_decode (i := .decs v o l) rfl rfl hm (fun k _ hk => hp (o + k) (by omega) hk) hstop hbefore,
    decodeEnd_started, ← completeSign_eq_bv]
  rfl

end Sys2Proof.Machine
end

section
/-! PROOFS. The signed round trip (41_signed.md R127): DECS over what ENCS wrote, one value and values back to back. -/

namespace Sys2Proof.Machine

/-- Settles O38: DECS of ENCS's bytes, and signed values as packed ones. -/
theorem signedRoundTrip : Obligations.SignedRoundTrip := by
  refine ⟨fun s v w o l hm hh hl => ?_, fun s vs o l hidle hu hw hh hl => ?_⟩
  · rw [← encodingS_length] at hl ⊢
    exact exec_decs_encodingS hm hh hl
  · have hbytes : (vs.map (Prod.mk true)).map packedBytes = vs.map encodingS := List.map_map
    have hpacked := mixedPackingIsReadBackInOrder s (vs.map (Prod.mk true)) o l hidle hu hw
    rw [hbytes, List.map_map, List.map_map] at hpacked
    exact (hpacked hh hl).trans (congrArg some (List.map_id vs))

end Sys2Proof.Machine
end

section
/-! PROOFS. Errors and faults (60_exceptions.md R142, R143), and what an action leaves of the other blocks (R149). -/

namespace Sys2Proof.Machine

variable {s t : State}

/-! ## HOST_BUSY -/

/-- Settles O11: START faults, so the command, which is START and then its steps, never takes a step. -/
theorem commandWhileBusyFaults : Obligations.CommandWhileBusyFaults := by
  intro s i hw hb
  rw [exec_eq, startInstr_busy hw hb, andThen_fault]

/-! ## The step that raises an error -/

section Running

variable {op : BitVec 2} {o l k : Nat} {rem acc : Bits128}

/-- An encoder has no error: its turn leaves ERR as it was, or OK (R38, R100, R120). -/
theorem err_of_blockTurn_encode (h : s.blk.Running op o l rem acc k) (he : isEncode op = true)
    (herr : s.blk.err = errOk) (ht : blockTurn s = .next t) : t.blk.err = errOk := by
  obtain ⟨shift, more, -, hturn⟩ := blockTurn_encode h.state h.op he
  obtain ⟨u, hu, -, -, hmore, hlast⟩ := encoderStep_writes_group (shift := shift) (more := more) h.rem h.k
  cases (hturn.trans hu).symm.trans ht
  cases hm : more (lowGroup rem) (shift rem) with
  | true => rw [hmore hm]; exact herr
  | false => rw [hlast hm]; rfl

/-- A turn that ends in error is a decode's, and it raises Truncated without a read or Overflow after the one read of
this turn, the byte at index OFFSET + K (R103, R123, R143, R145). -/
theorem blockTurn_raises (h : s.blk.Running op o l rem acc k) (herr : s.blk.err = errOk)
    (ht : blockTurn s = .next t) (hraised : t.blk.err ≠ errOk) :
    t = raiseError errTruncated s ∨
      ∃ b, memRead s (o + k) = some b ∧ t = raiseError errOverflow (noteRead s (o + k) b) := by
  cases he : isEncode op with
  | true => exact absurd (err_of_blockTurn_encode h he herr ht) hraised
  | false =>
    obtain ⟨overflow, complete, hturn⟩ := blockTurn_decode h.state h.op he
    rw [hturn] at ht
    rcases Nat.lt_or_ge (o + k) l with hk | hk
    · cases hb : memRead s (o + k) with
      | none => rw [decoderStep_absent h.offset h.srcLen h.acc h.k hk hb] at ht; cases ht
      | some b =>
        rw [decoderStep_read h.offset h.srcLen h.acc h.k hk hb, Host.Outcome.next.injEq] at ht
        subst ht
        split at hraised
        · next hover => exact Or.inr ⟨b, rfl, if_pos hover⟩
        · split at hraised
          · exact absurd herr hraised
          · exact absurd rfl hraised
    · rw [decoderStep_truncated h.offset h.srcLen h.acc h.k hk] at ht
      exact Or.inl (Host.Outcome.next.inj ht).symm

end Running

/-- Settles O45: the turn raised its error, the results were cleared by START, and an IDLE block takes no step. -/
theorem raiseEndsTheOperation : Obligations.RaiseEndsTheOperation := by
  intro s t hi hb ht hraised
  have hwf := hi.blocks _ List.mem_cons_self
  obtain ⟨hvout, hcount, herr⟩ := hwf.busy_no_result hb
  obtain ⟨op, o, l, rem, acc, k, hrun⟩ := hwf.running hb
  rcases blockTurn_raises hrun herr ht hraised with rfl | ⟨b, hbyte, rfl⟩
  · exact ⟨rfl, hvout, hcount, rfl, Or.inl ⟨rfl, rfl⟩, blockTurn_idle rfl⟩
  · exact ⟨rfl, hvout, hcount, rfl, Or.inr ⟨rfl, _, b, hbyte, rfl⟩, blockTurn_idle rfl⟩

/-! ## The other blocks -/

theorem blockTurn_others (h : blockTurn s = .next t) : t.others = s.others := by
  cases hs : s.blk.state with
  | idle => rw [blockTurn_idle hs] at h; cases h; rfl
  | busy =>
    obtain ⟨-, -, -, hothers⟩ := stepOperation_keeps ((blockTurn_busy hs).symm.trans h)
    exact hothers

/-- R149: no action but the turn to another block touches another block's registers. A write of host memory may mark
a sink position of another block as raced, which is no register (R166). -/
theorem perform_keeps_other_blocks {a : Action} (hselect : ∀ n, a ≠ .select n) (h : perform a s = .next t) :
    t.others.map Prod.fst = s.others.map Prod.fst := by
  have same : t.others = s.others → t.others.map Prod.fst = s.others.map Prod.fst := congrArg _
  cases a with
  | command bytes =>
    simp only [perform] at h
    split at h
    · exact same (exec_keepsHost h).others
    · cases h
  | start bytes =>
    simp only [perform] at h
    split at h
    · obtain ⟨-, rfl⟩ := startInstr_eq_next.1 h; exact same rfl
    · cases h
  | statement st =>
    rcases execStatement_next h with ⟨c, rfl⟩ | ⟨-, i, u, c, hu, rfl⟩
    · exact same rfl
    · exact same (exec_keepsHost hu).others
  | blockTurn => exact same (blockTurn_others h)
  | readState => cases h; exact same rfl
  | readErr => obtain ⟨-, rfl⟩ := readErr_eq_next.1 h; exact same rfl
  | readVout => obtain ⟨-, v, -, rfl⟩ := readVout_eq_next.1 h; exact same rfl
  | readCount => obtain ⟨-, n, -, rfl⟩ := readCount_eq_next.1 h; exact same rfl
  | reset => cases h; exact same (settleRaced_others s)
  | hostWrite addr b => obtain ⟨-, rfl⟩ := hostWrite_eq_next.1 h; exact List.map_map
  | hostRead addr => obtain ⟨b, n, rfl, -⟩ := hostRead_next h; exact same rfl
  | place src sink => obtain ⟨-, rfl⟩ := place_eq_next.1 h; exact same rfl
  | select n => exact absurd rfl (hselect n)

/-! ## The order of the blocks -/

/-- Turning to another block moves blocks and nothing else. -/
theorem select_keeps {n : Nat} (h : select n s = .next t) :
    t.agents.Perm s.agents ∧ t.mem = s.mem ∧ t.draws = s.draws := by
  have hperm := select_agents h
  obtain ⟨u, -, rfl⟩ := select_eq_next.1 h
  exact ⟨hperm, rfl, rfl⟩

theorem select_beyond {n : Nat} (h : s.others.length ≤ n) : select n s = .refused .noSuchBlock := by
  rw [select, List.getElem?_eq_none h]

theorem place_busy {src sink : Nat} (h : s.blk.state = .busy) : place src sink s = .refused .placeWhileBusy := by
  rw [place, h]

theorem fairTurn_busy (h : s.blk.state = .busy) : fairTurn s = stepOperation s := by rw [fairTurn, h]

/-- With no action left and the selected block IDLE nothing happens, or the host turns to another block (log entry 6). -/
theorem fairTurn_idle (hs : s.blk.state = .idle) (h : fairTurn s = .next t) : t = s ∨ ∃ n, select n s = .next t := by
  rw [fairTurn, hs] at h
  simp only at h
  split at h
  · exact Or.inl (Host.Outcome.next.inj h).symm
  · next n _ => exact Or.inr ⟨n, h⟩

/-- Settles O53: action by action, then the empty schedule, and the host's own actions `select` and `place`. -/
theorem blocksShareNoState : Obligations.BlocksShareNoState := by
  refine ⟨fun s t a rest ha hselect h => ?_, fun s t ha h => ⟨fun hb => ?_, fun hidle => ?_⟩,
    fun s n rest ha => ⟨fun u hu => ?_, fun hn => ?_⟩, fun s src sink rest ha => ⟨fun hidle => ?_, fun hb => ?_⟩⟩
  · rw [step_cons ha] at h
    exact perform_keeps_other_blocks (s := s.withActions rest) hselect h
  · rw [step_nil ha, fairTurn_busy hb] at h
    obtain ⟨-, -, -, hothers⟩ := stepOperation_keeps h
    exact hothers
  · rw [step_nil ha] at h
    rcases fairTurn_idle hidle h with rfl | ⟨n, hselect⟩
    · exact ⟨.refl _, rfl, rfl⟩
    · exact select_keeps hselect
  · exact (step_cons ha).trans (select_eq_next.2 ⟨u, hu, rfl⟩)
  · exact (step_cons ha).trans (select_beyond hn)
  · exact (step_cons ha).trans (place_eq_next.2 ⟨hidle, rfl⟩)
  · exact (step_cons ha).trans (place_busy hb)

end Sys2Proof.Machine
end

section
/-! PROOFS. Reset, results and hazards (70_reset_and_hazards.md R160 to R170): what a reset leaves, when the host may
read, and the byte ranges of running operations. -/

namespace Sys2Proof.Machine

variable {s t : State} {u : Agent} {i : Instr}

/-! ## Reset (R160) -/

/-- Settles O4: a reset settles the raced positions and sets the registers; settling stores at those positions only. -/
theorem resetAbandonsTheOperation : Obligations.ResetAbandonsTheOperation := by
  intro s rest ha
  refine ⟨resetBlock (s.withActions rest), step_cons ha, rfl, fun a hraced => ?_, rfl, rfl, rfl, rfl, ?_⟩
  · exact drawRaced_read_other _ _ hraced
  · simp [resetBlock]

/-! ## Source bytes (R162) -/

/-- Settles O36: both decoders come to the absent byte, no step before it being a stop. -/
theorem absentSourceByteStopsTheDecode : Obligations.AbsentSourceByteStopsTheDecode :=
  ⟨fun _ v o l _ hissue hm habsent hlt => exec_decode_absent (i := .decu v o l) rfl rfl hissue hm habsent hlt,
    fun _ v o l _ hissue hm habsent hlt => exec_decode_absent (i := .decs v o l) rfl rfl hissue hm habsent hlt⟩

/-! ## Reading the results (R164) -/

theorem readErr_busy (h : s.blk.state = .busy) : readErr s = .fault .resultUnavailable := by simp [readErr, h]

theorem readVout_unavailable (h : s.blk.state = .busy ∨ s.blk.vout = none) :
    readVout s = .fault .resultUnavailable := by
  unfold readVout
  rcases h with hb | hnone
  · rw [hb]
  · rw [hnone]; cases s.blk.state <;> rfl

theorem readCount_unavailable (h : s.blk.state = .busy ∨ s.blk.count = none) :
    readCount s = .fault .resultUnavailable := by
  unfold readCount
  rcases h with hb | hnone
  · rw [hb]
  · rw [hnone]; cases s.blk.state <;> rfl

/-- Settles O46: read by read, each with its value and its fault. -/
theorem resultsAreReadOnlyWhenIdle : Obligations.ResultsAreReadOnlyWhenIdle := by
  refine fun s rest => ⟨fun ha => ?_, fun ha => ⟨fun hidle => ?_, fun hb => ?_⟩,
    fun ha => ⟨fun v hidle hv => ?_, fun h => ?_⟩, fun ha => ⟨fun n hidle hn => ?_, fun h => ?_⟩⟩ <;> rw [step_cons ha]
  · rfl
  · exact readErr_eq_next.2 ⟨hidle, rfl⟩
  · exact readErr_busy (s := s.withActions rest) hb
  · exact readVout_eq_next.2 ⟨hidle, v, hv, rfl⟩
  · exact readVout_unavailable (s := s.withActions rest) h
  · exact readCount_eq_next.2 ⟨hidle, n, hn, rfl⟩
  · exact readCount_unavailable (s := s.withActions rest) h

/-! ## The results of an IDLE block (R170) -/

/-- R33, R35: the actions that may change a register of an IDLE block are START in its three forms, reset and the turn
to another block. -/
theorem perform_keeps_idle_block {a : Action} (hidle : s.blk.state = .idle) (hcommand : ∀ bs, a ≠ .command bs)
    (hstart : ∀ bs, a ≠ .start bs) (hstatement : ∀ st, a = .statement st → ∃ n, st = .setc n) (hreset : a ≠ .reset)
    (hselect : ∀ n, a ≠ .select n) (h : perform a s = .next t) : t.blk = s.blk := by
  cases a with
  | command bytes => exact absurd rfl (hcommand bytes)
  | start bytes => exact absurd rfl (hstart bytes)
  | statement st => obtain ⟨n, rfl⟩ := hstatement st rfl; cases h; rfl
  | blockTurn => cases (blockTurn_idle hidle).symm.trans h; rfl
  | readState => cases h; rfl
  | readErr => obtain ⟨-, rfl⟩ := readErr_eq_next.1 h; rfl
  | readVout => obtain ⟨-, v, -, rfl⟩ := readVout_eq_next.1 h; rfl
  | readCount => obtain ⟨-, n, -, rfl⟩ := readCount_eq_next.1 h; rfl
  | reset => exact absurd rfl hreset
  | hostWrite addr b => obtain ⟨-, rfl⟩ := hostWrite_eq_next.1 h; rfl
  | hostRead addr => obtain ⟨b, n, rfl, -⟩ := hostRead_next h; rfl
  | place src sink => obtain ⟨-, rfl⟩ := place_eq_next.1 h; rfl
  | select n => exact absurd rfl (hselect n)

/-- With no block BUSY nothing moves (log entry 6). -/
theorem fairTurn_all_idle (h : ∀ u ∈ s.agents, u.1.state = .idle) : fairTurn s = .next s := by
  obtain ⟨(hidle : s.blk.state = .idle), hothers⟩ := List.forall_mem_cons.1 h
  have hnone : s.others.findIdx? (fun u => u.1.state == .busy) = none :=
    List.findIdx?_eq_none_iff.2 fun u hu => by rw [hothers u hu]; rfl
  simp [fairTurn, hidle, hnone]

/-- Settles O47: action by action; a change of block only moves blocks, and with none BUSY nothing moves. -/
theorem resultsStayUntilTheNextStart : Obligations.ResultsStayUntilTheNextStart := by
  refine ⟨fun s t a rest hidle ha hcommand hstart hstatement hreset hselect h => ?_,
    fun s t hidle ha h => ?_, fun s ha hall => ?_⟩
  · rw [step_cons ha] at h
    exact perform_keeps_idle_block (s := s.withActions rest) hidle hcommand hstart hstatement hreset hselect h
  · have hmem : (s.blk, s.port) ∈ s.agents := List.mem_cons_self
    rcases ha with ha | ⟨n, rest, ha⟩
    · rw [step_nil ha] at h
      rcases fairTurn_idle hidle h with rfl | ⟨n, hselect⟩
      · exact hmem
      · exact (select_agents hselect).mem_iff.2 hmem
    · rw [step_cons ha] at h
      exact (select_agents (s := s.withActions rest) h).mem_iff.2 hmem
  · rw [step_nil ha, fairTurn_all_idle hall]

/-! ## Addresses in a running range (R165, R166) -/

theorem inRange_iff {r : Nat × Nat} {a : Nat} : inRange r a = true ↔ r.1 ≤ a ∧ a < r.2 := by
  simp [inRange]

/-- An address in a source range is an index from OFFSET to SRC_LEN − 1 of a running decode. -/
theorem decode_of_inRange_sourceRange {a : Nat} (h : inRange (sourceRange u) a = true) :
    ∃ op o l, u.1.state = .busy ∧ u.1.op = some op ∧ isEncode op = false ∧ u.1.offset = some o ∧ u.1.srcLen = some l ∧
      u.2.srcBase + o ≤ a ∧ a < u.2.srcBase + l := by
  unfold sourceRange at h
  split at h
  · next op o l hb hop ho hl =>
    split at h
    · simp at h
    · next he => exact ⟨op, o, l, hb, hop, Bool.eq_false_of_not_eq_true he, ho, hl, inRange_iff.1 h⟩
  · simp at h

/-- An address in a sink range belongs to a running encode. -/
theorem encode_of_inRange_sinkRange {a : Nat} (h : inRange (sinkRange u) a = true) :
    ∃ op, u.1.op = some op ∧ isEncode op = true := by
  unfold sinkRange at h
  split at h
  · next op rem k hb hop hr hk =>
    split at h
    · next he => exact ⟨op, hop, he⟩
    · simp at h
  · simp at h

theorem sourceRange_encode {op : BitVec 2} (h : u.1.op = some op) (he : isEncode op = true) :
    sourceRange u = (0, 0) := by
  unfold sourceRange
  split
  · simp_all
  · rfl

/-- R165: the indices from OFFSET to SRC_LEN − 1 of a running decode are in its source range. -/
theorem inRange_sourceRange_running {op : BitVec 2} {o l x : Nat} (hb : u.1.state = .busy) (hop : u.1.op = some op)
    (he : isEncode op = false) (ho : u.1.offset = some o) (hl : u.1.srcLen = some l) (hlow : o ≤ x) (hhigh : x < l) :
    inRange (sourceRange u) (u.2.srcBase + x) = true := by
  rw [sourceRange_running hb hop he ho hl, inRange_iff]
  exact ⟨Nat.add_le_add_left hlow _, Nat.add_lt_add_left hhigh _⟩

/-- R166: the positions that a running encode writes in all are in its sink range. -/
theorem inRange_sinkRange_running {op : BitVec 2} {rem : Bits128} {k p : Nat} (hb : u.1.state = .busy)
    (hop : u.1.op = some op) (he : isEncode op = true) (hr : u.1.rem = some rem) (hk : u.1.k = some k)
    (hp : p < encodeTotal op rem k) : inRange (sinkRange u) (u.2.sinkBase + p) = true := by
  rw [sinkRange_running hb hop he hr hk, inRange_iff]
  exact ⟨Nat.le_add_right _ _, Nat.add_lt_add_left hp _⟩

/-! ## Writes by other agents (R165) -/

theorem hostWrite_into_source {a : Nat} (b : Byte) (hu : u ∈ s.agents) (h : inRange (sourceRange u) a = true) :
    hostWrite a b s = .fault .sourceRace := if_pos (List.any_eq_true.2 ⟨u, hu, h⟩)

/-- Settles O49: the index lies in the source range of that block. -/
theorem writeIntoARunningSourceFaults : Obligations.WriteIntoARunningSourceFaults := by
  intro s rest u op o l x b hu hb hop he ho hl hlow hhigh ha
  rw [step_cons ha]
  exact hostWrite_into_source (s := s.withActions rest) b hu (inRange_sourceRange_running hb hop he ho hl hlow hhigh)

/-- Settles O50: an address in no running decode's range is in no source range, and the write stores one byte. -/
theorem otherHostWritesStoreTheByte : Obligations.OtherHostWritesStoreTheByte := by
  intro s rest a b ha hout
  have hfree : ∀ u ∈ s.agents, inRange (sourceRange u) a = false := by
    refine fun u hu => Bool.eq_false_of_not_eq_true fun hin => ?_
    obtain ⟨op, o, l, hb, hop, he, ho, hl, hlow, hhigh⟩ := decode_of_inRange_sourceRange hin
    have := hout u hu op hop o ho l hl hb he
    omega
  exact ⟨_, (step_cons ha).trans (hostWrite_eq_next.2 ⟨hfree, rfl⟩), Memory.read_write_same _ _ _,
    fun _ hne => Memory.read_write_other _ _ hne, rfl, List.map_map, rfl, rfl, rfl, rfl⟩

/-! ## Host reads (R166) -/

theorem hostRead_of_sink {a : Nat} (hu : u ∈ s.agents) (h : inRange (sinkRange u) a = true) :
    hostRead a s = .next ((s.withReading (.byte (Config.freeByte s.draws))).withDraws (s.draws + 1)) :=
  if_pos (List.any_eq_true.2 ⟨u, hu, h⟩)

/-- Outside every running sink a host read looks at host memory. -/
theorem hostRead_outside {a : Nat} (h : ∀ u ∈ s.agents, inRange (sinkRange u) a = false) :
    hostRead a s = (Memory.read s.mem a).elim (.fault .byteAbsent) fun b => .next (s.withReading (.byte b)) := by
  have hnone : s.agents.any (fun u => inRange (sinkRange u) a) = false :=
    List.any_eq_false.2 fun u hu => ne_true_of_eq_false (h u hu)
  refine (if_neg (ne_true_of_eq_false hnone)).trans ?_
  cases Memory.read s.mem a <;> rfl

/-- Settles O51: a position of a running encode lies in its sink range; elsewhere memory answers. -/
theorem readOfARunningSinkIsFree : Obligations.ReadOfARunningSinkIsFree := by
  refine ⟨fun s rest u op rem k p hu hb hop he hr hk hp ha => ?_,
    fun s rest a ha hout => ⟨fun b hbyte => ?_, fun habsent => ?_⟩⟩ <;> rw [step_cons ha]
  · exact hostRead_of_sink (s := s.withActions rest) hu (inRange_sinkRange_running hb hop he hr hk hp)
  · refine (hostRead_outside (s := s.withActions rest) hout).trans ?_
    rw [State.withActions_mem, hbyte]; rfl
  · refine (hostRead_outside (s := s.withActions rest) hout).trans ?_
    rw [State.withActions_mem, habsent]; rfl

/-! ## Raced positions (R166) -/

/-- The position still belongs to the running encode of this block, and is marked. -/
def StaysRaced (t : State) (u : Agent) (a : Nat) : Prop :=
  ∃ v ∈ t.agents, v.1.state = .busy ∧ v.1.op = u.1.op ∧ v.2.sinkBase = u.2.sinkBase ∧ a ∈ v.2.raced

/-- The position holds a byte that was drawn between the two states. -/
def DrawnBetween (s t : State) (a : Nat) : Prop :=
  ∃ n, s.draws ≤ n ∧ n < t.draws ∧ Memory.read t.mem a = some (Config.freeByte n)

theorem StaysRaced.of_mem {a : Nat} (hu : u ∈ t.agents) (hb : u.1.state = .busy) (ha : a ∈ u.2.raced) :
    StaysRaced t u a := ⟨u, hu, hb, rfl, rfl, ha⟩

/-- A mark stays over a write, wherever it goes. -/
theorem mem_noteRaced_of_mem {a x : Nat} (h : x ∈ u.2.raced) : x ∈ (noteRaced a u).raced := by
  unfold noteRaced
  split
  · exact List.mem_cons_of_mem _ h
  · exact h

/-- A write to a sink position of a running encode marks it. -/
theorem mem_noteRaced_self {a : Nat} (h : inRange (sinkRange u) a = true) : a ∈ (noteRaced a u).raced := by
  by_cases hold : a ∈ u.2.raced
  · exact mem_noteRaced_of_mem hold
  · simp [noteRaced, h, hold]

theorem hostWrite_agents {a : Nat} {b : Byte} (h : hostWrite a b s = .next t) :
    t.agents = s.agents.map fun u => (u.1, noteRaced a u) := by
  obtain ⟨-, rfl⟩ := hostWrite_eq_next.1 h
  rfl

/-- A block runs an encode or a decode, so its own two ranges never meet. -/
theorem raceBetween_self (u : Agent) : raceBetween u u = false := by
  have hself : overlaps (sinkRange u) (sourceRange u) = false := overlaps_eq_false.2 fun x hx => by
    obtain ⟨op, hop, he⟩ := encode_of_inRange_sinkRange hx
    rw [sourceRange_encode hop he, inRange_empty]
  rw [raceBetween, overlaps_comm (sourceRange u), hself, Bool.or_self]

theorem raceBetween_comm (u v : Agent) : raceBetween u v = raceBetween v u := by
  rw [raceBetween, raceBetween, Bool.or_comm, overlaps_comm (sourceRange u), overlaps_comm (sinkRange u)]

/-- R167: under the invariant a sink position lies in no running source range. -/
theorem State.Inv.sink_not_source (hi : s.Inv) {v : Agent} {a : Nat} (hu : u ∈ s.agents) (hv : v ∈ s.agents)
    (h : inRange (sinkRange u) a = true) : inRange (sourceRange v) a = false := by
  have hrace : raceBetween u v = false :=
    List.Pairwise.forall_of_forall_of_flip (fun w _ => raceBetween_self w) (hi.disjoint.imp And.left)
      (hi.disjoint.imp fun huv => (raceBetween_comm _ _).trans huv.1) hu hv
  exact overlaps_eq_false.1 (Bool.or_eq_false_iff.1 hrace).1 a h

/-- Settling draws a byte for every raced position. -/
theorem settleRaced_draws {a : Nat} (h : a ∈ s.port.raced) : DrawnBetween s (settleRaced s) a :=
  drawRaced_read_raced _ _ h

/-- An encoder step that goes on keeps the mark, and the one that completes draws the byte. -/
theorem encoderStep_raced {shift : Bits128 → Bits128} {more : Payload → Bits128 → Bool} {a : Nat}
    (h : encoderStep shift more s = .next t) (ha : a ∈ s.port.raced) :
    (t.blk.state = s.blk.state ∧ t.port.sinkBase = s.port.sinkBase ∧ a ∈ t.port.raced) ∨
      t.blk.state = .idle ∧ DrawnBetween s t a := by
  unfold encoderStep at h
  split at h
  · next rem k _ _ =>
    cases h
    split
    · exact Or.inl ⟨rfl, rfl, ha⟩
    · exact Or.inr ⟨rfl, settleRaced_draws (s := (memWrite s k _).withBlk _) ha⟩
  · cases h

/-- The same of a turn of a running encode. -/
theorem blockTurn_raced {op : BitVec 2} {a : Nat} (hb : s.blk.state = .busy) (hop : s.blk.op = some op)
    (he : isEncode op = true) (ha : a ∈ s.port.raced) (h : blockTurn s = .next t) :
    (t.blk.state = .busy ∧ t.port.sinkBase = s.port.sinkBase ∧ a ∈ t.port.raced) ∨
      t.blk.state = .idle ∧ DrawnBetween s t a := by
  obtain ⟨shift, more, -, hturn⟩ := blockTurn_encode hb hop he
  exact hb ▸ encoderStep_raced (hturn.symm.trans h) ha

section Raced

variable {a : Nat}

theorem mem_others_of_idle (hidle : s.blk.state = .idle) (hu : u ∈ s.agents) (hb : u.1.state = .busy) :
    u ∈ s.others := by
  rcases List.mem_cons.1 hu with rfl | hu
  · exact absurd (hb.symm.trans hidle) (by decide)
  · exact hu

/-- A turn of the selected block, for the mark of any block. -/
theorem blockTurn_keeps_mark (hi : s.Inv) (hu : u ∈ s.agents) (hb : u.1.state = .busy) (ha : a ∈ u.2.raced)
    (h : blockTurn s = .next t) : StaysRaced t u a ∨ DrawnBetween s t a := by
  have hin := hi.raced u hu a ha
  rcases List.mem_cons.1 hu with rfl | hother
  · obtain ⟨op, hop, he⟩ := encode_of_inRange_sinkRange hin
    have hkeeps := (stepOperation_keeps ((blockTurn_busy hb).symm.trans h)).1
    refine (blockTurn_raced hb hop he ha h).imp (fun ⟨hbusy, hbase, hraced⟩ => ?_) And.right
    exact ⟨_, List.mem_cons_self, hbusy, hkeeps, hbase, hraced⟩
  · refine Or.inl (.of_mem (List.mem_cons_of_mem _ ?_) hb ha)
    rwa [blockTurn_others h]

/-- A command starts at an IDLE block, so the encode with the mark is another block's. -/
theorem exec_keeps_mark (hu : u ∈ s.agents) (hb : u.1.state = .busy) (ha : a ∈ u.2.raced) (h : exec i s = .next t) :
    StaysRaced t u a := by
  refine .of_mem (List.mem_cons_of_mem _ ?_) hb ha
  rw [(exec_keepsHost h).others]
  exact mem_others_of_idle (mayIssue_of_exec h).idle hu hb

/-- R166: no action takes a mark away but by the draw of a byte. -/
theorem perform_keeps_mark {act : Action} (hi : s.Inv) (hu : u ∈ s.agents) (hb : u.1.state = .busy)
    (ha : a ∈ u.2.raced) (h : perform act s = .next t) : StaysRaced t u a ∨ DrawnBetween s t a := by
  have same : u ∈ t.agents → StaysRaced t u a ∨ DrawnBetween s t a := fun hmem => Or.inl (.of_mem hmem hb ha)
  have beside (hidle : s.blk.state = .idle) : t.others = s.others → StaysRaced t u a ∨ DrawnBetween s t a :=
    fun hothers => same (List.mem_cons_of_mem _ (hothers ▸ mem_others_of_idle hidle hu hb))
  cases act with
  | command bytes =>
    simp only [perform] at h
    split at h
    · exact Or.inl (exec_keeps_mark hu hb ha h)
    · cases h
  | start bytes =>
    simp only [perform] at h
    split at h
    · obtain ⟨hm, rfl⟩ := startInstr_eq_next.1 h; exact beside hm.idle rfl
    · cases h
  | statement st =>
    rcases execStatement_next h with ⟨c, rfl⟩ | ⟨hidle, i, w, c, hw, rfl⟩
    · exact same hu
    · exact beside hidle (exec_keepsHost hw).others
  | blockTurn => exact blockTurn_keeps_mark hi hu hb ha h
  | readState => cases h; exact same hu
  | readErr => obtain ⟨-, rfl⟩ := readErr_eq_next.1 h; exact same hu
  | readVout => obtain ⟨-, v, -, rfl⟩ := readVout_eq_next.1 h; exact same hu
  | readCount => obtain ⟨-, n, -, rfl⟩ := readCount_eq_next.1 h; exact same hu
  | reset =>
    cases h
    rcases List.mem_cons.1 hu with rfl | hother
    · exact Or.inr (settleRaced_draws ha)
    · exact same (List.mem_cons_of_mem _ ((settleRaced_others s).symm ▸ hother))
  | hostWrite addr b =>
    refine Or.inl ⟨(u.1, noteRaced addr u), ?_, hb, rfl, noteRaced_sinkBase addr u, mem_noteRaced_of_mem ha⟩
    rw [hostWrite_agents h]
    exact List.mem_map_of_mem hu
  | hostRead addr => obtain ⟨b, n, rfl, -⟩ := hostRead_next h; exact same hu
  | place src sink => obtain ⟨hidle, rfl⟩ := place_eq_next.1 h; exact beside hidle rfl
  | select n => exact same ((select_agents h).mem_iff.2 hu)

/-- The same of the turn that comes when no action is left. -/
theorem fairTurn_keeps_mark (hi : s.Inv) (hu : u ∈ s.agents) (hb : u.1.state = .busy) (ha : a ∈ u.2.raced)
    (h : fairTurn s = .next t) : StaysRaced t u a ∨ DrawnBetween s t a := by
  cases hs : s.blk.state with
  | busy => exact blockTurn_keeps_mark hi hu hb ha ((blockTurn_busy hs).trans ((fairTurn_busy hs).symm.trans h))
  | idle =>
    refine Or.inl (.of_mem ?_ hb ha)
    rcases fairTurn_idle hs h with rfl | ⟨n, hselect⟩
    · exact hu
    · exact (select_agents hselect).mem_iff.2 hu

end Raced

/-- Settles O52: a write that meets no source marks the position of its block; a mark goes only by a draw, which an
encode's last step makes. -/
theorem writeIntoARunningSinkIsFree : Obligations.WriteIntoARunningSinkIsFree := by
  refine ⟨fun s rest n u op rem k p b hi hn hb hop he hr hk hp ha => ?_, fun s t u a hi hu hb ha h => ?_,
    fun s t op a hb hop he ha h => ?_⟩
  · have hin := inRange_sinkRange_running hb hop he hr hk hp
    have hu := List.mem_of_getElem? hn
    have hwrite : hostWrite (u.2.sinkBase + p) b (s.withActions rest) = .next _ :=
      hostWrite_eq_next.2 ⟨fun v hv => hi.sink_not_source hu hv hin, rfl⟩
    have hagents := hostWrite_agents hwrite
    refine ⟨_, (u.1, noteRaced (u.2.sinkBase + p) u), (step_cons ha).trans hwrite, ?_, ?_,
      noteRaced_sinkBase _ u, mem_noteRaced_self hin⟩
    · rw [hagents]; exact List.map_map
    · rw [hagents, List.getElem?_map]; exact congrArg (Option.map _) hn
  · cases hact : s.actions with
    | nil => exact fairTurn_keeps_mark hi hu hb ha (step_nil hact ▸ h)
    | cons act rest =>
      have hrest : (s.withActions rest).Inv := hi.of_perm rfl (.refl _) rfl
      exact perform_keeps_mark (s := s.withActions rest) hrest hu hb ha (step_cons hact ▸ h)
  · rcases blockTurn_raced hb hop he ha h with ⟨hbusy, -, hraced⟩ | ⟨hidle, hdrawn⟩
    · exact ⟨fun _ => hraced, fun hidle => absurd (hbusy.symm.trans hidle) (by decide)⟩
    · exact ⟨fun hbusy => absurd (hbusy.symm.trans hidle) (by decide), fun _ => hdrawn⟩

/-! ## Byte spaces that meet (R167) -/

theorem overlaps_of_inRange {r q : Nat × Nat} {a : Nat} (hr : inRange r a = true) (hq : inRange q a = true) :
    overlaps r q = true := by
  refine Bool.eq_true_of_not_eq_false fun h => ?_
  exact ne_true_of_eq_false (overlaps_eq_false.1 h a hr) hq

theorem aliasFault_race {v : Agent} {others : List Agent} (hv : v ∈ others) (h : raceBetween u v = true) :
    aliasFault u others = some .sourceRace := if_pos (List.any_eq_true.2 ⟨v, hv, h⟩)

/-- R167: sink positions are shared, and no running source is met. -/
theorem aliasFault_shared {v : Agent} {others : List Agent} (hv : v ∈ others) (h : sharedSink u v = true)
    (hrace : ∀ w ∈ others, raceBetween u w = false) : aliasFault u others = some .sinkShared := by
  have hnone : others.any (raceBetween u) = false :=
    List.any_eq_false.2 fun w hw => ne_true_of_eq_false (hrace w hw)
  rw [aliasFault, if_neg (ne_true_of_eq_false hnone), if_pos (List.any_eq_true.2 ⟨v, hv, h⟩)]

/-- A command whose START meets an aliasing fault takes no step (R39, R167). -/
theorem exec_aliased {f : Fault} (hidle : s.blk.state = .idle) (hw : i.wellFormed s.usizeBits)
    (h : aliasFault (Block.started i.op i.vin i.offset i.srcLen, s.port.started) s.others = some f) :
    exec i s = .fault f := by
  have hstart : startInstr i s = .fault f := by
    rw [startInstr, issue, if_pos hw]
    simp only [start, hidle, h]
  rw [exec_eq, hstart, andThen_fault]

/-- The sink range of an encode that starts holds every byte it writes (R101, R121). -/
theorem inRange_sinkRange_started {a : Nat} (he : isEncode i.op = true) :
    inRange (sinkRange (Block.started i.op i.vin i.offset i.srcLen, s.port.started)) a = true ↔
      s.port.sinkBase ≤ a ∧ a < s.port.sinkBase + encodedLength i := by
  rw [sinkRange_running rfl rfl he rfl rfl, inRange_iff, encodeTotal_eq_length he, ← encodedLength_eq]
  rfl

/-- The source range of a decode that starts (R103, R123). -/
theorem inRange_sourceRange_started {a : Nat} (he : isEncode i.op = false) :
    inRange (sourceRange (Block.started i.op i.vin i.offset i.srcLen, s.port.started)) a = true ↔
      s.port.srcBase + i.offset ≤ a ∧ a < s.port.srcBase + i.srcLen := by
  rw [sourceRange_running rfl rfl he rfl rfl, inRange_iff]
  rfl

/-- Settles O54: the shared address lies in the range that START gives the block and in the other block's. -/
theorem overlappingByteSpacesFault : Obligations.OverlappingByteSpacesFault := by
  intro s i u a hidle hw hu hencode hdecode
  refine exec_aliased hidle hw (aliasFault_race hu (Bool.or_eq_true_iff.2 ?_))
  cases he : isEncode i.op with
  | true =>
    obtain ⟨hlow, hhigh, hin⟩ := hencode he
    exact Or.inl (overlaps_of_inRange ((inRange_sinkRange_started he).2 ⟨hlow, hhigh⟩) hin)
  | false =>
    obtain ⟨hlow, hhigh, hin⟩ := hdecode he
    exact Or.inr (overlaps_of_inRange ((inRange_sourceRange_started he).2 ⟨hlow, hhigh⟩) hin)

/-- Settles O55: the encode meets no running source and has none itself, and the shared address lies in both sinks. -/
theorem sharedSinkPositionsFault : Obligations.SharedSinkPositionsFault := by
  intro s i u a hidle hw hu he hlow hhigh hin hfree
  refine exec_aliased hidle hw (aliasFault_shared hu ?_ fun v hv => Bool.or_eq_false_iff.2 ⟨?_, ?_⟩)
  · exact overlaps_of_inRange ((inRange_sinkRange_started he).2 ⟨hlow, hhigh⟩) hin
  · refine overlaps_eq_false.2 fun x hx => ?_
    obtain ⟨hxlow, hxhigh⟩ := (inRange_sinkRange_started he).1 hx
    exact hfree v hv x hxlow hxhigh
  · rw [sourceRange_encode rfl he, overlaps_empty_left]

end Sys2Proof.Machine
end
